-- ==== Sys2Proof/Syntax.lean ====
section
/-! DEFINITION. The commands of KWE: one constructor per row of spec/opcode_table.json (R92).
A command word carries no operand (R91, R94), so no constructor has an argument. -/

namespace Sys2Proof

/-- The six commands (R92, R99). -/
inductive Instr where
  | kekLoad     -- KEKLOAD
  | kekClr      -- KEKCLR
  | kwWrap      -- KW_WRAP
  | kwUnwrap    -- KW_UNWRAP
  | kwpWrap     -- KWP_WRAP
  | kwpUnwrap   -- KWP_UNWRAP
  deriving DecidableEq, Repr

end Sys2Proof
end

