-- ==== Sys2Proof/Word.lean ====
section
/-! DEFINITION. The bit-vector types of KWE: 64-bit registers (R21), bytes (R7), the two halves of a
cipher block (R5) and the block itself. Nothing here computes anything the spec could get wrong. -/

namespace Sys2Proof

/-- A host-visible register's value: 64 bits (R10, R21). -/
abbrev Word := BitVec 64

/-- One byte (R7). -/
abbrev Byte := BitVec 8

/-- `Bytes(8)` seen as a 64-bit number (R10): byte 0 of the string is bits 63..56. -/
abbrev Semiblock := BitVec 64

/-- `Bytes(16)`, the cipher block (R5): byte 0 of the string is bits 127..120. -/
abbrev Block := BitVec 128

end Sys2Proof
end

