-- ==== Sys2Proof/Decode.lean ====
section
/-! DEFINITION. The command word: its fields (R91), the decoder (R93), the reasons a value is illegal (R95),
and the encoder (R92). -/

namespace Sys2Proof

/-- Bits 63:8 of a command word, which must be 0 (R91). -/
def zeroField (v : Word) : BitVec 56 := v.extractLsb' 8 56

/-- CLASS, bits 7:4 (R91): 0 is KEK management, 1 is codec, the rest is reserved. -/
def classField (v : Word) : BitVec 4 := v.extractLsb' 4 4

/-- FUNC, bits 3:0 (R91). -/
def funcField (v : Word) : BitVec 4 := v.extractLsb' 0 4

/-- Why a value is no command, in R95's words. The engine does the same for all of them (IllegalCommand); the
names, and the order in which they are tried, are the model's own (DESIGN CHOICE, log entry 15). -/
inductive IllegalWord where
  | zeroFieldNotZero    -- a bit set in 63:8
  | reservedClass       -- CLASS 2 to 15
  | reservedKekFunc     -- CLASS 0 with FUNC other than 1 and 2
  | reservedCodecFunc   -- CLASS 1 with FUNC[3:2] not 0
  deriving DecidableEq, Repr

/-- The reason of R95 that a value which is no command falls under. -/
def illegalReason (v : Word) : IllegalWord :=
  if zeroField v ≠ 0 then .zeroFieldNotZero
  else if classField v = 0 then .reservedKekFunc
  else if classField v = 1 then .reservedCodecFunc
  else .reservedClass

/-- The decoder of R93: it reads nothing but the value. -/
def decode (v : Word) : Except IllegalWord Instr :=
  if v = 0x01 then .ok .kekLoad
  else if v = 0x02 then .ok .kekClr
  else if v = 0x10 then .ok .kwWrap
  else if v = 0x11 then .ok .kwUnwrap
  else if v = 0x12 then .ok .kwpWrap
  else if v = 0x13 then .ok .kwpUnwrap
  else .error (illegalReason v)

/-- CLASS of each command (R92). -/
def Instr.classCode : Instr → BitVec 4
  | .kekLoad | .kekClr => 0b0000#4
  | .kwWrap | .kwUnwrap | .kwpWrap | .kwpUnwrap => 0b0001#4

/-- FUNC of each command (R92). -/
def Instr.funcCode : Instr → BitVec 4
  | .kekLoad   => 0b0001#4
  | .kekClr    => 0b0010#4
  | .kwWrap    => 0b0000#4
  | .kwUnwrap  => 0b0001#4
  | .kwpWrap   => 0b0010#4
  | .kwpUnwrap => 0b0011#4

/-- The word of a command: ZERO, CLASS and FUNC side by side (format CW, R91). -/
def encode (i : Instr) : Word := 0#56 ++ i.classCode ++ i.funcCode

/-- The command the decoder reads from a table word: one 64-bit word, the bits above `nbits` zero. -/
def decodeTableWord (nbits w : Nat) : Option Instr :=
  if nbits ≤ 64 then
    match decode (BitVec.ofNat 64 (w % 2 ^ nbits)) with
    | .ok i => some i
    | .error _ => none
  else none

end Sys2Proof
end

