-- ==== Sys2Proof/Config.lean ====
section
/-! DEFINITION. What an implementation fixes (R6, R37): the Block Cipher Port and the buffer capacity;
and the one value the spec leaves free, the bytes of IN and OUT after a reset (R38, U1). -/

namespace Sys2Proof

/-- The three byte-addressed spaces (R60). The fourth space, REG, is the register file (R21). -/
inductive Space where
  | inp   -- IN
  | out   -- OUT
  | key   -- KEY
  deriving DecidableEq, Repr

/-- A value of the port's state type `Cipher.State` (R120), written as the bytes the port keeps.
DESIGN CHOICE (log entry 2): the spec leaves the type to the port; byte strings can encode every one. -/
structure CipherState where
  bytes : List Byte
  deriving DecidableEq, Repr

/-- The Block Cipher Port (R120): total and pure functions (R121) with the inverse law (R122), which is
asked only of states that `init` makes from a key of an accepted size (R123). -/
structure Cipher where
  init : List Byte → CipherState
  enc  : CipherState → Block → Block
  dec  : CipherState → Block → Block
  dec_enc : ∀ key : List Byte, (key.length = 16 ∨ key.length = 24 ∨ key.length = 32) →
    ∀ b : Block, dec (init key) (enc (init key) b) = b

/-- The two arguments of the model (R6): `Cipher` and `BUF_BYTES`, with 16 ≤ BUF_BYTES ≤ 2^63. -/
structure Params where
  cipher : Cipher
  bufBytes : Nat
  bufBytes_ge : 16 ≤ bufBytes
  bufBytes_le : bufBytes ≤ 2 ^ 63

/-- Some parameters of the required kind. No value of it can be proved or computed; its argument only
shows Lean that parameters exist (log entry 1). -/
opaque Config.someParams (witness : Inhabited Params) : Params

/-- THE parameters of the machine: arbitrary ones that meet R6 and R120 to R122. The cipher handed to
`someParams` (each block its own image) is there to show that such parameters exist and no more. -/
def Config.params : Params :=
  Config.someParams
    ⟨{ cipher := { init := fun _ => ⟨[]⟩, enc := fun _ b => b, dec := fun _ b => b, dec_enc := fun _ _ _ => rfl }
       bufBytes := 16, bufBytes_ge := by decide, bufBytes_le := by decide }⟩

/-- The free value of U1: what byte an offset of IN or OUT holds after a reset, until something writes it.
The first argument counts the resets so far, so that nothing relates the bytes of two resets (R271). That what was
there before the reset is no argument is the model's choice (DESIGN CHOICE, log entry 4). -/
opaque Config.freeByte : Nat → Space → Nat → Byte

end Sys2Proof
end

