-- ==== Sys2Proof/Machine/State.lean ====
section
/-! DEFINITION. The state of KWE (R20, R39) as plain data, the accesses of the host (R61), what stops a
step, and the state after reset (R38). -/

namespace Sys2Proof.Machine

open Sys2Proof

/-- The seven registers of the REG space (R21). -/
inductive Reg where
  | cmd | status | inLen | outLen | kekLen | resultLen | errInfo
  deriving DecidableEq, Repr

/-- The values STATUS.ERR takes (R230). Codes 7 to 15 are never produced and have no constructor. -/
inductive ErrCode where
  | success
  | invalidDataSize
  | invalidKekSize
  | invalidOutputSize
  | integrityCheckFailed
  | kekNotLoaded
  | illegalCommand
  deriving DecidableEq, Repr

/-- An error together with what it carries (R230): `size` or `expected`, for the two errors that carry one. -/
inductive EngineError where
  | invalidDataSize
  | invalidKekSize (size : Word)
  | invalidOutputSize (expected : Word)
  | integrityCheckFailed
  | kekNotLoaded
  | illegalCommand
  deriving DecidableEq, Repr

/-- The moves of the host (R61). An offset is a number from 0; a register value is a 64-bit word. -/
inductive HostAccess where
  | readReg (off : Nat)
  | writeReg (off : Nat) (v : Word)
  | readByte (S : Space) (k : Nat)
  | writeByte (S : Space) (k : Nat) (b : Byte)
  | reset
  deriving DecidableEq, Repr

/-- What an access hands back to the host: a register's value, a byte, or nothing (a write, a reset). -/
inductive HostReturn where
  | nothing
  | word (v : Word)
  | byte (b : Byte)
  deriving DecidableEq, Repr

/-- A byte space's content: the bytes listed by offset, in canonical form (`Memory.wf`, Machine/Ops.lean). -/
abbrev Memory := List Host.Cell

/-- The state of KWE. -/
structure State where
  /-- STATUS.ERR (R23). -/
  err : ErrCode
  /-- STATUS.DONE (R23). -/
  done : Bool
  /-- IN_LEN (R24). -/
  inLen : Word
  /-- OUT_LEN (R25). -/
  outLen : Word
  /-- KEK_LEN (R26). -/
  kekLen : Word
  /-- RESULT_LEN (R27). -/
  resultLen : Word
  /-- ERRINFO (R28). -/
  errInfo : Word
  /-- IN (R29). -/
  inp : Memory
  /-- OUT (R30). -/
  out : Memory
  /-- KEY (R31). -/
  key : Memory
  /-- The KEK slot (R32): kek_state where kek_valid = 1, `none` where kek_valid = 0. -/
  kek : Option CipherState
  /-- The accumulator A (R34), seen as a number (R10; log entries 9 and 13). -/
  acc : Semiblock
  /-- The block register B (R35). -/
  blk : Block
  /-- The sequencer position (j, i): the step of the transform performed next (R33, R147); `none` unless a
  transform runs. -/
  seq : Option (Nat × Nat)
  /-- The round counter t of the latest step (R35, R141); `none` before the first (R38; log entry 9). -/
  ctr : Option Nat
  /-- The semiblock count n of the command (R35); `none` outside one (R38; log entry 9). -/
  count : Option Nat
  /-- The model's own: the accesses the host has issued and the engine has not yet performed, oldest first (R74; log entry 3). -/
  pending : List HostAccess
  /-- The model's own: what the latest access handed back to the host (log entry 3). -/
  returned : HostReturn
  /-- The model's own: resets so far, the argument of the free value `Config.freeByte` (log entry 4). -/
  resets : Nat
  deriving DecidableEq, Repr

/-- KWE has no faults: every abnormal outcome is an error code (R218, R244; 93_implementation_defined.md
section 1: "No behaviour of this block is treated as `fault`"), so this type has no constructor (log entry 12). -/
inductive Fault where
  deriving DecidableEq, Repr

/-- Why a step has no meaning. -/
inductive Refusal where
  /-- An instruction without a meaning. Raised by `exec`'s refused arms, of which there are none; safe. -/
  | notModelled (mnemonic : String)
  /-- A host access to a REG offset that names no register (R41, R67, U3; log entry 6). Raised by `performAccess`; safe. -/
  | noRegister (off : Nat)
  /-- A host access to a buffer offset at or above the space's size (R41, R60, U3; log entry 6). Raised by `performAccess`; safe. -/
  | noBufferByte (S : Space) (off : Nat)
  deriving DecidableEq, Repr

/-- The state after reset (R38). IN and OUT list no byte, so each of their bytes is a free value (U1); KEY
lists no byte, so each of its bytes is zero. The three model's own fields are empty (log entries 3 and 4). -/
def State.reset : State where
  err := .success
  done := false
  inLen := 0
  outLen := 0
  kekLen := 0
  resultLen := 0
  errInfo := 0
  inp := []
  out := []
  key := []
  kek := none
  acc := 0
  blk := 0
  seq := none
  ctr := none
  count := none
  pending := []
  returned := .nothing
  resets := 0

end Sys2Proof.Machine
end

