-- ==== Sys2Proof/Machine/Flags.lean ====
section
/-! DEFINITION. STATUS: the numbering of the error codes (R230), the register's layout (R23), and the one
place that writes its stored fields (R36). KWE has no arithmetic condition codes (R36). -/

namespace Sys2Proof.Machine

open Sys2Proof

/-- The code of an outcome, the value of the field ERR (R230). -/
def errCode : ErrCode → BitVec 4
  | .success              => 0
  | .invalidDataSize      => 1
  | .invalidKekSize       => 2
  | .invalidOutputSize    => 3
  | .integrityCheckFailed => 4
  | .kekNotLoaded         => 5
  | .illegalCommand       => 6

/-- STATUS.KEK_VALID: a live view of the slot (R23, R32). -/
def State.kekValid (s : State) : Bool := s.kek.isSome

/-- STATUS as the host reads it (R23): 63:9 zero, KEK_VALID in bit 8, 7:5 zero, DONE in bit 4, ERR in 3:0. -/
def State.status (s : State) : Word :=
  0#55 ++ BitVec.ofBool s.kekValid ++ 0#3 ++ BitVec.ofBool s.done ++ errCode s.err

/-- The outcome registers at the end of a command: ERR, DONE = 1, RESULT_LEN and ERRINFO (R240, R241). -/
def State.setOutcome (s : State) (e : ErrCode) (result info : Word) : State :=
  { s with err := e, done := true, resultLen := result, errInfo := info }

end Sys2Proof.Machine
end

