-- ==== Sys2Proof/Machine/Ops.lean ====
section
/-! DEFINITION. The operations every command is made of: bytes and integers (R8, R9, R62, R63), the byte
spaces (R11, R60, R61), the updates of the state, and the two ends of a command, `raise` and `complete`
(R240, R241). -/

namespace Sys2Proof.Machine

open Sys2Proof

/-! ### Byte strings and integers (R8, R9) -/

/-- `int_be` (R8): the number whose big-endian representation is the string. -/
def intBe (bs : List Byte) : Nat := bs.foldl (fun v b => 256 * v + b.toNat) 0

/-- The big-endian representation of `v` in `k` bytes (R8): `be32` is `k = 4`, `be64` is `k = 8`. -/
def beBytes : Nat → Nat → List Byte
  | 0, _ => []
  | k + 1, v => BitVec.ofNat 8 (v / 256 ^ k) :: beBytes k v

/-- `be64(v)` as a semiblock (R8, R63). -/
def be64 (v : Nat) : Semiblock := BitVec.ofNat 64 v

/-- `be32(v)` (R8, R63). -/
def be32 (v : Nat) : BitVec 32 := BitVec.ofNat 32 v

/-- The semiblock that eight bytes make, the first byte most significant (R10, R62). -/
def semiblockOf (bs : List Byte) : Semiblock := BitVec.ofNat 64 (intBe bs)

/-- The block that sixteen bytes make (R9). -/
def blockOf (bs : List Byte) : Block := BitVec.ofNat 128 (intBe bs)

/-- The eight bytes of a semiblock, byte 0 first. -/
def semiblockBytes (x : Semiblock) : List Byte := beBytes 8 x.toNat

/-- The sixteen bytes of a block, byte 0 first. -/
def blockBytes (b : Block) : List Byte := beBytes 16 b.toNat

/-- `A ‖ R`: the block whose first eight bytes are A (R65). -/
def joinBlock (a r : Semiblock) : Block := a ++ r

/-- `high(B) = B[0:8)` (R9). -/
def high (b : Block) : Semiblock := b.extractLsb' 64 64

/-- `low(B) = B[8:16)` (R9). -/
def low (b : Block) : Semiblock := b.extractLsb' 0 64

/-- `0^k` (R7). -/
def zeros (k : Nat) : List Byte := List.replicate k 0

/-- `ceil8(x)` (R8). -/
def ceil8 (x : Nat) : Nat := (x + 7) / 8

/-! ### Memory in canonical form -/

/-- The byte listed at an offset, if one is. -/
def Memory.lookup : Memory → Nat → Option Byte
  | [], _ => none
  | (k, b) :: rest, a => if k = a then some b else Memory.lookup rest a

/-- List a byte at an offset, in its place in the rising order. -/
def Memory.insert : Memory → Nat → Byte → Memory
  | [], a, b => [(a, b)]
  | (k, c) :: rest, a, b =>
    if a < k then (a, b) :: (k, c) :: rest
    else if a = k then (a, b) :: rest
    else (k, c) :: Memory.insert rest a b

/-- Take an offset's entry away. -/
def Memory.remove : Memory → Nat → Memory
  | [], _ => []
  | (k, c) :: rest, a => if k = a then rest else (k, c) :: Memory.remove rest a

/-- The value that is not listed because every unlisted offset of the space is known to hold it: 0 in KEY,
which a reset zeroises (R31, R38); none in IN and OUT, whose unlisted bytes are unspecified (U1). -/
def unlistedKnown : Space → Option Byte
  | .inp => none
  | .out => none
  | .key => some 0

/-- Store a byte and keep the canonical form. -/
def Memory.store (known : Option Byte) (m : Memory) (a : Nat) (b : Byte) : Memory :=
  if known = some b then Memory.remove m a else Memory.insert m a b

/-- The canonical form: offsets strictly rising, and no entry equal to the known unlisted value. -/
abbrev Memory.wf (known : Option Byte) (m : Memory) : Prop :=
  (m.map Prod.fst).Pairwise (· < ·) ∧ ∀ c ∈ m, known ≠ some c.2

/-- Every listed offset is below the space's size. -/
abbrev Memory.within (size : Nat) (m : Memory) : Prop := ∀ c ∈ m, c.1 < size

/-- What an unlisted offset reads as: 0 in KEY, the free value in IN and OUT (R38, U1). DESIGN CHOICE (log entry
4): beside R271 the spec leaves open whether a byte of IN or OUT after a reset may depend on what was there before
it (U1 lets a RAM keep its content); here it depends on the count of resets, the space and the offset alone.
Unsafe for a claim that compares two runs across a reset, or that says content is gone after one. -/
def unlistedByte (resets : Nat) : Space → Nat → Byte
  | .key, _ => 0
  | S, a => Config.freeByte resets S a

/-! ### Spaces (R60) -/

/-- The size of a space in bytes (R60). -/
def spaceSize (P : Params) : Space → Nat
  | .inp => P.bufBytes
  | .out => P.bufBytes
  | .key => 32

/-- The content of a space. -/
def State.mem (s : State) : Space → Memory
  | .inp => s.inp
  | .out => s.out
  | .key => s.key

/-- Replace the content of a space. -/
def State.setMem (s : State) : Space → Memory → State
  | .inp, m => { s with inp := m }
  | .out, m => { s with out := m }
  | .key, m => { s with key := m }

/-- The byte a space holds at an offset. -/
def readByte (s : State) (S : Space) (a : Nat) : Byte :=
  (Memory.lookup (s.mem S) a).getD (unlistedByte s.resets S a)

/-- Store a byte in a space. -/
def writeByte (s : State) (S : Space) (a : Nat) (b : Byte) : State :=
  s.setMem S (Memory.store (unlistedKnown S) (s.mem S) a b)

/-- `MemRead(S, a, n)` (R11): the bytes at offsets a to a+n−1, byte a first. -/
def memRead (s : State) (S : Space) (a n : Nat) : List Byte :=
  (List.range n).map fun i => readByte s S (a + i)

/-- `MemWrite(S, a, n, v)` (R11), with n the length of v: byte 0 of v at offset a. -/
def memWrite (s : State) (S : Space) (a : Nat) : List Byte → State
  | [] => s
  | b :: bs => memWrite (writeByte s S a b) S (a + 1) bs

/-! ### Updates of the state -/

/-- Write the KEK slot (R32): `none` is kek_valid = 0 with no kek_state. -/
def State.setKek (s : State) (k : Option CipherState) : State := { s with kek := k }

/-- Set the accumulator A (R34). -/
def State.setAcc (s : State) (a : Semiblock) : State := { s with acc := a }

/-- Set the block register B (R35). -/
def State.setBlk (s : State) (b : Block) : State := { s with blk := b }

/-- Set the sequencer position (R33). -/
def State.setSeq (s : State) (p : Option (Nat × Nat)) : State := { s with seq := p }

/-- Set the round counter t (R35). -/
def State.setCtr (s : State) (t : Option Nat) : State := { s with ctr := t }

/-- Set the semiblock count n (R35). -/
def State.setCount (s : State) (n : Option Nat) : State := { s with count := n }

/-- Clear the transients at the end of a command (R33 to R35, R240, R241). -/
def State.clearTransients (s : State) : State :=
  { s with acc := 0, blk := 0, seq := none, ctr := none, count := none }

/-- Hand a value back to the host. -/
def State.setReturned (s : State) (r : HostReturn) : State := { s with returned := r }

/-- Take the oldest access off the host's list; `rest` is what remains. Nothing has been returned yet. -/
def State.takeAccess (s : State) (rest : List HostAccess) : State :=
  { s with pending := rest, returned := .nothing }

/-! ### The two ends of a command -/

/-- The code of an error (R230). -/
def EngineError.toCode : EngineError → ErrCode
  | .invalidDataSize      => .invalidDataSize
  | .invalidKekSize _     => .invalidKekSize
  | .invalidOutputSize _  => .invalidOutputSize
  | .integrityCheckFailed => .integrityCheckFailed
  | .kekNotLoaded         => .kekNotLoaded
  | .illegalCommand       => .illegalCommand

/-- What ERRINFO holds after an error (R230, R240): the carried number, else 0. -/
def EngineError.info : EngineError → Word
  | .invalidKekSize size        => size
  | .invalidOutputSize expected => expected
  | .invalidDataSize | .integrityCheckFailed | .kekNotLoaded | .illegalCommand => 0

/-- `raise E(info)` (R240), the one way a command ends in an error. Nothing is saved, no mode changes and
control goes nowhere; there is no return to make (R244). -/
def raise (e : EngineError) (s : State) : State := (s.setOutcome e.toCode 0 e.info).clearTransients

/-- `complete(len)` (R241), the one way a command ends in success. -/
def complete (len : Nat) (s : State) : State :=
  (s.setOutcome .success (BitVec.ofNat 64 len) 0).clearTransients

/-- IllegalCommand (R235): what a write to CMD does when its value is no command. -/
def illegalCommand (s : State) : State := raise .illegalCommand s

end Sys2Proof.Machine
end

