-- ==== Sys2Proof/Machine/Operands.lean ====
section
/-! DEFINITION. The operands of the commands: all implicit (R94). The constants the engine assembles (R98),
the accepted lengths with the output length each requires (R164, R190), and the order in which a codec
command tests its operands (R237). -/

namespace Sys2Proof.Machine

open Sys2Proof

/-- IV_KW (R5, R98a): `A6 A6 A6 A6 A6 A6 A6 A6`. -/
def ivKw : Semiblock := 0xA6A6A6A6A6A6A6A6#64

/-- AIV_PREFIX (R5): `A6 59 59 A6`. -/
def aivPrefix : BitVec 32 := 0xA65959A6#32

/-- AIV(len) = `A6 59 59 A6` ‖ be32(len) (R98b, R181). -/
def aiv (len : Nat) : Semiblock := aivPrefix ++ be32 len

/-- `A[0:4)` of a recovered header (R187). -/
def headerPrefix (a : Semiblock) : BitVec 32 := a.extractLsb' 32 32

/-- MLI = `int_be(A[4:8))`, zero-extended (R98b, R187). -/
def headerMli (a : Semiblock) : Nat := (a.extractLsb' 0 32).toNat

/-- KWP_MAX_PLAIN (R5). -/
def kwpMaxPlain : Nat := 2 ^ 32 - 1

/-- `KWP_UNWRAP_MAX_BYTES` (R6; 90_conflicts.md C2). -/
def kwpUnwrapMaxBytes : Nat := 2 ^ 32 - 1

/-- Is n an accepted KEK size in bytes (R5, R126)? -/
def kekSizeOk (n : Nat) : Bool := n = 16 || n = 24 || n = 32

/-- The output length KW_WRAP requires for an input of L bytes, if it accepts L (R161, R164). -/
def kwWrapLength (L : Nat) : Option Nat :=
  if L % 8 ≠ 0 ∨ L < 8 then none else some (L + 8)

/-- The output length KW_UNWRAP requires for an input of L bytes, if it accepts L (R162, R164). -/
def kwUnwrapLength (L : Nat) : Option Nat :=
  if L % 8 ≠ 0 ∨ L < 16 then none else some (8 * (L / 8 - 1))

/-- The output length KWP_WRAP requires for an input of L bytes, if it accepts L (R183, R190). -/
def kwpWrapLength (L : Nat) : Option Nat :=
  if L > kwpMaxPlain ∨ L < 1 then none else some (8 * ceil8 L + 8)

/-- The output length KWP_UNWRAP requires for an input of L bytes, if it accepts L (R185, R190). -/
def kwpUnwrapLength (L : Nat) : Option Nat :=
  if L % 8 ≠ 0 ∨ L < 16 ∨ L > kwpUnwrapMaxBytes then none else some (8 * (L / 8 - 1))

/-- What every codec command does before its own work (R237): KekNotLoaded, then InvalidDataSize for the
command's length rule `required`, then InvalidDataSize for capacity (R236), then InvalidOutputSize. When all
pass, `body` runs on kek_state, L and the required output length, all read as they stand (R75). -/
def codec (P : Params) (required : Nat → Option Nat) (body : CipherState → Nat → Nat → State → State)
    (s : State) : State :=
  match s.kek with
  | none => raise .kekNotLoaded s
  | some k =>
    match required s.inLen.toNat with
    | none => raise .invalidDataSize s
    | some E =>
      if s.inLen.toNat > P.bufBytes ∨ E > P.bufBytes then raise .invalidDataSize s
      else if s.outLen.toNat ≠ E then raise (.invalidOutputSize (BitVec.ofNat 64 E)) s
      else body k s.inLen.toNat E s

/-- The end of an unwrap whose integrity check fails: OUT[0 : E) is zeroised, then the error is reported
(R76, R162, R185). -/
def failIntegrity (E : Nat) (s : State) : State :=
  raise .integrityCheckFailed (memWrite s .out 0 (zeros E))

end Sys2Proof.Machine
end

