-- ==== Sys2Proof/Machine/Kek.lean ====
section
/-! DEFINITION. The KEK commands: KEKLOAD (R126) and KEKCLR (R127). -/

namespace Sys2Proof.Machine

open Sys2Proof

/-- KEKLOAD (R126) for given parameters: only `Cipher.init` is used of them. -/
def kekLoad (P : Params) (s : State) : State :=
  if kekSizeOk s.kekLen.toNat then
    complete 0 (s.setKek (some (P.cipher.init (memRead s .key 0 s.kekLen.toNat))))
  else raise (.invalidKekSize s.kekLen) s

/-- KEKCLR (R127). -/
def kekClr (s : State) : State := complete 0 (memWrite (s.setKek none) .key 0 (zeros 32))

/-- The meaning of KEKLOAD (R126). -/
def execKekLoad (s : State) : Host.Outcome State Fault Refusal := .next (kekLoad Config.params s)

/-- The meaning of KEKCLR (R127). -/
def execKekClr (s : State) : Host.Outcome State Fault Refusal := .next (kekClr s)

end Sys2Proof.Machine
end

