-- ==== Sys2Proof/Machine/Transform.lean ====
section
/-! DEFINITION. The Semiblock Transform Engine: the micro-operations W and Winv on the accumulator A and the
semiblocks in OUT (R140 to R148). -/

namespace Sys2Proof.Machine

open Sys2Proof

/-- The round counter t = n·j + (i + 1) (R141). -/
def roundCounter (n j i : Nat) : Nat := n * j + (i + 1)

/-- Where the sequencer goes after the forward step at (j, i), none after the last (R33). -/
def forwardNext (n : Nat) : Nat × Nat → Option (Nat × Nat)
  | (j, i) => if i + 1 < n then some (j, i + 1) else if j < 5 then some (j + 1, 0) else none

/-- Where the sequencer goes after the inverse step at (j, i), none after the last (R33). -/
def inverseNext (n : Nat) : Nat × Nat → Option (Nat × Nat)
  | (j, i) => if 0 < i then some (j, i - 1) else if 0 < j then some (j - 1, n - 1) else none

/-- R[i]: the semiblock at OUT[base + 8·i : base + 8·i + 8) (R140). -/
def readSemiblock (s : State) (base i : Nat) : Semiblock := semiblockOf (memRead s .out (base + 8 * i) 8)

/-- Write R[i] (R140). -/
def writeSemiblock (s : State) (base i : Nat) (x : Semiblock) : State :=
  memWrite s .out (base + 8 * i) (semiblockBytes x)

/-- `Wstep(base, n, j, i)` (R142): encrypt A ‖ R[i], then XOR be64(t) into the high half. The sequencer goes on
to the step after this one (R33). -/
def wStep (P : Params) (k : CipherState) (base n : Nat) (p : Nat × Nat) (s : State) : State :=
  let t := roundCounter n p.1 p.2
  let b := P.cipher.enc k (joinBlock s.acc (readSemiblock s base p.2))
  let s := ((s.setCtr (some t)).setBlk b).setAcc (high b ^^^ be64 t)
  (writeSemiblock s base p.2 (low b)).setSeq (forwardNext n p)

/-- `Winvstep(base, n, j, i)` (R144): XOR be64(t) into A first, then decrypt A ‖ R[i]. The sequencer goes on to the
step after this one (R33). -/
def winvStep (P : Params) (k : CipherState) (base n : Nat) (p : Nat × Nat) (s : State) : State :=
  let t := roundCounter n p.1 p.2
  let b := P.cipher.dec k (joinBlock (s.acc ^^^ be64 t) (readSemiblock s base p.2))
  let s := ((s.setCtr (some t)).setBlk b).setAcc (high b)
  (writeSemiblock s base p.2 (low b)).setSeq (inverseNext n p)

/-- Perform the step the sequencer stands at (R33, R147); nothing where no transform runs. -/
def forwardAdvance (P : Params) (k : CipherState) (base : Nat) (s : State) : State :=
  match s.seq, s.count with
  | some p, some n => wStep P k base n p s
  | _, _ => s

/-- Perform the inverse step the sequencer stands at (R33, R147); nothing where no transform runs. -/
def inverseAdvance (P : Params) (k : CipherState) (base : Nat) (s : State) : State :=
  match s.seq, s.count with
  | some p, some n => winvStep P k base n p s
  | _, _ => s

/-- Let the sequencer perform up to m forward steps. -/
def forwardRun (P : Params) (k : CipherState) (base : Nat) : Nat → State → State
  | 0, s => s
  | m + 1, s => forwardRun P k base m (forwardAdvance P k base s)

/-- Let the sequencer perform up to m inverse steps. -/
def inverseRun (P : Params) (k : CipherState) (base : Nat) : Nat → State → State
  | 0, s => s
  | m + 1, s => inverseRun P k base m (inverseAdvance P k base s)

/-- The forward transform starts at (0, 0) with n semiblocks (R33, R35). -/
def forwardStart (n : Nat) (s : State) : State := (s.setCount (some n)).setSeq (some (0, 0))

/-- The inverse transform starts at (5, n−1) with n semiblocks (R33, R35). -/
def inverseStart (n : Nat) (s : State) : State := (s.setCount (some n)).setSeq (some (5, n - 1))

/-- `W(base, n)` (R143): the steps the sequencer walks from (0, 0), 6·n of them, after which it stands nowhere.
Every command calls it with n ≥ 1 (R146, U5; log entry 14). -/
def transformW (P : Params) (k : CipherState) (base n : Nat) (s : State) : State :=
  forwardRun P k base (6 * n) (forwardStart n s)

/-- `Winv(base, n)` (R145): likewise from (5, n−1). Every command calls it with n ≥ 1 (R146). -/
def transformWinv (P : Params) (k : CipherState) (base n : Nat) (s : State) : State :=
  inverseRun P k base (6 * n) (inverseStart n s)

end Sys2Proof.Machine
end

