-- ==== Sys2Proof/Machine/KwCodec.lean ====
section
/-! DEFINITION. The KW codec: KW_WRAP (R161) and KW_UNWRAP (R162) with the IV check (R163). -/

namespace Sys2Proof.Machine

open Sys2Proof

/-- KW_WRAP once its operands have passed (R161): L input bytes, E = L + 8 output bytes. -/
def kwWrapBody (P : Params) (k : CipherState) (L E : Nat) (s : State) : State :=
  let s := s.setAcc ivKw
  let s := memWrite s .out 8 (memRead s .inp 0 L)
  let s := transformW P k 8 (L / 8) s
  let s := memWrite s .out 0 (semiblockBytes s.acc)
  complete E s

/-- KW_UNWRAP once its operands have passed (R162): L input bytes, E = L − 8 output bytes. The check is the
equality of all 64 bits of the recovered A with IV_KW (R163). -/
def kwUnwrapBody (P : Params) (k : CipherState) (L E : Nat) (s : State) : State :=
  let s := s.setAcc (semiblockOf (memRead s .inp 0 8))
  let s := memWrite s .out 0 (memRead s .inp 8 E)
  let s := transformWinv P k 0 (L / 8 - 1) s
  if s.acc ≠ ivKw then failIntegrity E s else complete E s

/-- KW_WRAP (R161) for given parameters. -/
def kwWrap (P : Params) (s : State) : State := codec P kwWrapLength (kwWrapBody P) s

/-- KW_UNWRAP (R162) for given parameters. -/
def kwUnwrap (P : Params) (s : State) : State := codec P kwUnwrapLength (kwUnwrapBody P) s

/-- The meaning of KW_WRAP (R161). -/
def execKwWrap (s : State) : Host.Outcome State Fault Refusal := .next (kwWrap Config.params s)

/-- The meaning of KW_UNWRAP (R162). -/
def execKwUnwrap (s : State) : Host.Outcome State Fault Refusal := .next (kwUnwrap Config.params s)

end Sys2Proof.Machine
end

