-- ==== Sys2Proof/Machine/KwpCodec.lean ====
section
/-! DEFINITION. The KWP codec: the padding encoder and KWP_WRAP (R181 to R184), KWP_UNWRAP (R185, R186), and
the padding decoder with the AIV check (R187). -/

namespace Sys2Proof.Machine

open Sys2Proof

/-- KWP_WRAP once its operands have passed (R183): L input bytes, E output bytes. -/
def kwpWrapBody (P : Params) (k : CipherState) (L E : Nat) (s : State) : State :=
  if ceil8 L = 1 then
    let b := P.cipher.enc k (joinBlock (aiv L) (semiblockOf (memRead s .inp 0 L ++ zeros (8 - L))))
    let s := (s.setCount (some 1)).setBlk b
    let s := memWrite s .out 0 (blockBytes b)
    complete E s
  else
    let s := s.setAcc (aiv L)
    let s := memWrite s .out 8 (memRead s .inp 0 L)
    let s := memWrite s .out (8 + L) (zeros (8 * ceil8 L - L))
    let s := transformW P k 8 (ceil8 L) s
    let s := memWrite s .out 0 (semiblockBytes s.acc)
    complete E s

/-- `KwpCheck(A, n)` (R187): the MLI where the prefix, the MLI and the padding verify, none where one does not. -/
def kwpCheck (s : State) (a : Semiblock) (n : Nat) : Option Nat :=
  if headerPrefix a ≠ aivPrefix then none
  else if ceil8 (headerMli a) ≠ n then none
  else if memRead s .out (headerMli a) (8 * n - headerMli a) ≠ zeros (8 * n - headerMli a) then none
  else some (headerMli a)

/-- The first half of KWP_UNWRAP's work (R185): the candidate header in A, the candidate padded plaintext in
OUT, by one `Dec` when n = 1 (R186) and by `Winv` otherwise. -/
def kwpRecover (P : Params) (k : CipherState) (n E : Nat) (s : State) : State :=
  if n = 1 then
    let b := P.cipher.dec k (blockOf (memRead s .inp 0 16))
    let s := ((s.setCount (some n)).setBlk b).setAcc (high b)
    memWrite s .out 0 (semiblockBytes (low b))
  else
    let s := s.setAcc (semiblockOf (memRead s .inp 0 8))
    let s := memWrite s .out 0 (memRead s .inp 8 E)
    transformWinv P k 0 n s

/-- KWP_UNWRAP once its operands have passed (R185): L input bytes, E = L − 8 output bytes. -/
def kwpUnwrapBody (P : Params) (k : CipherState) (L E : Nat) (s : State) : State :=
  let s := kwpRecover P k (L / 8 - 1) E s
  match kwpCheck s s.acc (L / 8 - 1) with
  | none => failIntegrity E s
  | some mli => complete mli s

/-- KWP_WRAP (R183) for given parameters. -/
def kwpWrap (P : Params) (s : State) : State := codec P kwpWrapLength (kwpWrapBody P) s

/-- KWP_UNWRAP (R185) for given parameters. -/
def kwpUnwrap (P : Params) (s : State) : State := codec P kwpUnwrapLength (kwpUnwrapBody P) s

/-- The meaning of KWP_WRAP (R183). -/
def execKwpWrap (s : State) : Host.Outcome State Fault Refusal := .next (kwpWrap Config.params s)

/-- The meaning of KWP_UNWRAP (R185). -/
def execKwpUnwrap (s : State) : Host.Outcome State Fault Refusal := .next (kwpUnwrap Config.params s)

end Sys2Proof.Machine
end

