-- ==== Sys2Proof/Machine/Dispatch.lean ====
section
/-! DEFINITION. One arm per command (R92). -/

namespace Sys2Proof.Machine

open Sys2Proof

def exec (i : Instr) (s : State) : Host.Outcome State Fault Refusal :=
  match i with
  -- KEK management (CLASS 0)
  | .kekLoad => Sys2Proof.Machine.execKekLoad s
  | .kekClr => Sys2Proof.Machine.execKekClr s
  -- codecs (CLASS 1)
  | .kwWrap => Sys2Proof.Machine.execKwWrap s
  | .kwUnwrap => Sys2Proof.Machine.execKwUnwrap s
  | .kwpWrap => Sys2Proof.Machine.execKwpWrap s
  | .kwpUnwrap => Sys2Proof.Machine.execKwpUnwrap s

end Sys2Proof.Machine
end

