-- ==== Sys2Proof/Machine/HostPort.lean ====
section
/-! DEFINITION. The host's side of KWE: what each access of R61 does. A write to CMD is handed to `issue`,
which runs the command (R90); it is the only access with an effect beyond storing its value (R70). -/

namespace Sys2Proof.Machine

open Sys2Proof

/-- The register at a REG offset, if one is there (R21, R41). -/
def regAt : Nat → Option Reg
  | 0x00 => some .cmd
  | 0x08 => some .status
  | 0x10 => some .inLen
  | 0x18 => some .outLen
  | 0x20 => some .kekLen
  | 0x28 => some .resultLen
  | 0x30 => some .errInfo
  | _ => none

/-- `x[NAME]` as the host reads it (R22 to R28, R40): CMD reads 0, and no read changes anything. -/
def readReg (s : State) : Reg → Word
  | .cmd       => 0
  | .status    => s.status
  | .inLen     => s.inLen
  | .outLen    => s.outLen
  | .kekLen    => s.kekLen
  | .resultLen => s.resultLen
  | .errInfo   => s.errInfo

/-- `HostReadByte(S, k)` (R61): the byte held, and 0x00 for every offset of KEY (R31). -/
def hostByte (s : State) : Space → Nat → Byte
  | .key, _ => 0
  | S, k => readByte s S k

/-- `HostWriteReg` on a register (R22 to R28, R40): CMD issues a command, the three length registers store
the value, and the three read-only registers ignore it. -/
def writeReg (issue : Word → State → Host.Outcome State Fault Refusal) (v : Word) (s : State) :
    Reg → Host.Outcome State Fault Refusal
  | .cmd       => issue v s
  | .inLen     => .next { s with inLen := v }
  | .outLen    => .next { s with outLen := v }
  | .kekLen    => .next { s with kekLen := v }
  | .status    => .next s
  | .resultLen => .next s
  | .errInfo   => .next s

/-- `Reset` (R270): every piece of state at its value of R38. What the host still wants to do and the count
of resets are the model's own, so they go on (log entries 3 and 4). -/
def resetAccess (s : State) : State :=
  { State.reset with pending := s.pending, returned := .nothing, resets := s.resets + 1 }

/-- One access of the host (R61); an offset that does not exist is refused (R41, U3). -/
def performAccess (P : Params) (issue : Word → State → Host.Outcome State Fault Refusal) (a : HostAccess)
    (s : State) : Host.Outcome State Fault Refusal :=
  match a with
  | .readReg off =>
    match regAt off with
    | some r => .next (s.setReturned (.word (readReg s r)))
    | none => .refused (.noRegister off)
  | .writeReg off v =>
    match regAt off with
    | some r => writeReg issue v s r
    | none => .refused (.noRegister off)
  | .readByte S k =>
    if k < spaceSize P S then .next (s.setReturned (.byte (hostByte s S k)))
    else .refused (.noBufferByte S k)
  | .writeByte S k b =>
    if k < spaceSize P S then .next (writeByte s S k b)
    else .refused (.noBufferByte S k)
  | .reset => .next (resetAccess s)

end Sys2Proof.Machine
end

