-- ==== Sys2Proof/Machine/Step.lean ====
section
/-! DEFINITION. One step: the oldest host access the engine has not yet performed, done whole (R74, R75).
With no access to perform the engine waits (R38, R270). -/

namespace Sys2Proof.Machine

open Sys2Proof

/-- Issue the command a CMD write's value encodes (R90, R93): a command runs to its end as one transition,
and every other value is IllegalCommand (R95, R235). -/
def issueCommand (v : Word) (s : State) : Host.Outcome State Fault Refusal :=
  match decode v with
  | .ok i => exec i s
  | .error _ => .next (illegalCommand s)

/-- One step of KWE. -/
def step (s : State) : Host.Outcome State Fault Refusal :=
  match s.pending with
  | [] => .next s
  | a :: rest => performAccess Config.params issueCommand a (s.takeAccess rest)

/-- `s` with the host about to write the word `w` to CMD: KWE fetches no command from a memory, a command is
the value of a CMD write (R79), so this is where the next step finds it (log entry 5). -/
def State.withFetchWord (s : State) (nbits w : Nat) : State :=
  { s with pending := .writeReg 0x00 (BitVec.ofNat 64 (w % 2 ^ nbits)) :: s.pending }

end Sys2Proof.Machine
end

