-- ==== Sys2Proof/Machine/Script.lean ====
section
/-! DEFINITION. The host-script syntax (R100) and its pseudo-statements (R101): each statement stands for a
list of host accesses, some with the value the script requires back. -/

namespace Sys2Proof.Machine

open Sys2Proof

/-- One line of a host script (R100, R101). -/
inductive ScriptLine where
  | reset
  | wr (r : Reg) (v : Word)
  | rd (r : Reg)
  | wrb (S : Space) (off : Nat) (bytes : List Byte)
  | rdb (S : Space) (off count : Nat)
  | cmd (i : Instr)
  | loadkek (key : List Byte)
  | input (bytes : List Byte)
  | expect (r : Reg) (v : Word)
  | expectb (S : Space) (off : Nat) (bytes : List Byte)
  deriving DecidableEq, Repr

/-- The offset of a register (R21). -/
def regOffset : Reg → Nat
  | .cmd       => 0x00
  | .status    => 0x08
  | .inLen     => 0x10
  | .outLen    => 0x18
  | .kekLen    => 0x20
  | .resultLen => 0x28
  | .errInfo   => 0x30

/-- `wrb <SPACE>+<off>, <hex>`: one byte write per byte, at rising offsets (R100). -/
def byteWrites (S : Space) : Nat → List Byte → List HostAccess
  | _, [] => []
  | off, b :: bs => .writeByte S off b :: byteWrites S (off + 1) bs

/-- `rdb <SPACE>+<off>, <count>`: one byte read per offset, rising (R100). -/
def byteReads (S : Space) (off count : Nat) : List HostAccess :=
  (List.range count).map fun k => .readByte S (off + k)

/-- The accesses a line stands for (R100, R101). -/
def expandLine : ScriptLine → List HostAccess
  | .reset => [.reset]
  | .wr r v => [.writeReg (regOffset r) v]
  | .rd r => [.readReg (regOffset r)]
  | .wrb S off bytes => byteWrites S off bytes
  | .rdb S off count => byteReads S off count
  | .cmd i => [.writeReg (regOffset .cmd) (encode i)]
  | .loadkek key =>
    byteWrites .key 0 key ++
      [.writeReg (regOffset .kekLen) (BitVec.ofNat 64 key.length), .writeReg (regOffset .cmd) (encode .kekLoad)]
  | .input bytes => byteWrites .inp 0 bytes ++ [.writeReg (regOffset .inLen) (BitVec.ofNat 64 bytes.length)]
  | .expect r _ => [.readReg (regOffset r)]
  | .expectb S off bytes => byteReads S off bytes.length

/-- The accesses of a whole script, in order. -/
def expandScript (lines : List ScriptLine) : List HostAccess := lines.flatMap expandLine

/-- The values a line requires its reads to return, in order (R101); none for a line that requires nothing. -/
def requiredReturns : ScriptLine → List HostReturn
  | .expect _ v => [.word v]
  | .expectb _ _ bytes => bytes.map .byte
  | .reset | .wr _ _ | .rd _ | .wrb _ _ _ | .rdb _ _ _ | .cmd _ | .loadkek _ | .input _ => []

end Sys2Proof.Machine
end

