-- ==== Sys2Proof/Safety.lean ====
section
/-! DEFINITION. The terms claims are stated in: the invariant every step keeps, the transform written a second
time in the flat numbering of R147 over lists of semiblocks (no memory, no sequencer), and what the four codec
commands should produce in those terms. -/

namespace Sys2Proof.Machine

open Sys2Proof

/-- The slot's state comes from `Cipher.init` of a key of an accepted size: "the KEK" of 44_laws.md. -/
def FromInit (P : Params) (k : CipherState) : Prop :=
  ∃ key : List Byte, (key.length = 16 ∨ key.length = 24 ∨ key.length = 32) ∧ k = P.cipher.init key

/-- The four codec commands (CLASS 1, R91). -/
def isCodec : Instr → Bool
  | .kwWrap | .kwUnwrap | .kwpWrap | .kwpUnwrap => true
  | .kekLoad | .kekClr => false

/-- The two unwraps (FUNC[0] = 1, R91). -/
def isUnwrap : Instr → Bool
  | .kwUnwrap | .kwpUnwrap => true
  | .kekLoad | .kekClr | .kwWrap | .kwpWrap => false

/-! ### The invariant -/

/-- The memories are canonical and lie inside their spaces (R60). -/
structure MemoriesOk (P : Params) (s : State) : Prop where
  inp_wf : Memory.wf (unlistedKnown .inp) s.inp
  out_wf : Memory.wf (unlistedKnown .out) s.out
  key_wf : Memory.wf (unlistedKnown .key) s.key
  inp_in : Memory.within (spaceSize P .inp) s.inp
  out_in : Memory.within (spaceSize P .out) s.out
  key_in : Memory.within (spaceSize P .key) s.key

/-- Between two host accesses no transient holds anything (R33 to R35, R240, R241). -/
structure TransientsClear (s : State) : Prop where
  acc : s.acc = 0
  blk : s.blk = 0
  seq : s.seq = none
  ctr : s.ctr = none
  count : s.count = none

/-- The outcome registers agree with each other (R27, R28, R230, R236). -/
structure OutcomeOk (P : Params) (s : State) : Prop where
  /-- After an error RESULT_LEN is 0 (R27). -/
  error_result : s.err ≠ .success → s.resultLen = 0
  /-- ERRINFO is 0 after every outcome but the two that carry a number (R28). -/
  plain_info : s.err ≠ .invalidKekSize → s.err ≠ .invalidOutputSize → s.errInfo = 0
  /-- A reported `size` is none of the accepted ones (R232). -/
  size_info : s.err = .invalidKekSize → kekSizeOk s.errInfo.toNat = false
  /-- A reported `expected` is a length some buffer could have (R236, R237). -/
  expected_info : s.err = .invalidOutputSize → 8 ≤ s.errInfo.toNat ∧ s.errInfo.toNat ≤ P.bufBytes
  /-- A result lies inside OUT. -/
  result_in : s.resultLen.toNat ≤ P.bufBytes
  /-- DONE = 0 means no command has run since reset (R23). -/
  not_done : s.done = false → s.err = .success ∧ s.resultLen = 0 ∧ s.errInfo = 0 ∧ s.kek = none

/-- What holds between any two host accesses. -/
structure Inv (P : Params) (s : State) : Prop where
  memories : MemoriesOk P s
  transients : TransientsClear s
  outcome : OutcomeOk P s
  slot : ∀ k, s.kek = some k → FromInit P k

/-! ### The order of the steps (R143, R145), written without the sequencer -/

/-- The order of the forward transform (R143): rounds 0 to 5, and in each the semiblocks 0 to n−1. -/
def forwardOrder (n : Nat) : List (Nat × Nat) :=
  (List.range 6).flatMap fun j => (List.range n).map fun i => (j, i)

/-- The order of the inverse transform (R145): rounds 5 down to 0, and in each the semiblocks n−1 down to 0. -/
def inverseOrder (n : Nat) : List (Nat × Nat) :=
  (List.range 6).reverse.flatMap fun j => (List.range n).reverse.map fun i => (j, i)

/-! ### The flat form of the transform (R147) -/

/-- The n semiblocks a space holds from offset `base`. -/
def semiblocksAt (s : State) (S : Space) (base n : Nat) : List Semiblock :=
  (List.range n).map fun i => semiblockOf (memRead s S (base + 8 * i) 8)

/-- The bytes of a list of semiblocks, in order (R62). -/
def semiblocksBytes (R : List Semiblock) : List Byte := R.flatMap semiblockBytes

/-- Forward step number t works on semiblock (t − 1) mod n with counter t (R142, R147). -/
def flatStep (P : Params) (k : CipherState) (n : Nat) (x : Semiblock × List Semiblock) (t : Nat) :
    Semiblock × List Semiblock :=
  let b := P.cipher.enc k (joinBlock x.1 (x.2.getD ((t - 1) % n) 0))
  (high b ^^^ be64 t, x.2.set ((t - 1) % n) (low b))

/-- Inverse step number t (R144, R147). -/
def flatInvStep (P : Params) (k : CipherState) (n : Nat) (x : Semiblock × List Semiblock) (t : Nat) :
    Semiblock × List Semiblock :=
  let b := P.cipher.dec k (joinBlock (x.1 ^^^ be64 t) (x.2.getD ((t - 1) % n) 0))
  (high b, x.2.set ((t - 1) % n) (low b))

/-- The step numbers 1, 2, ..., 6·n (R147). -/
def stepNumbers (n : Nat) : List Nat := (List.range (6 * n)).map (· + 1)

/-- The forward transform in the flat form: step 1 first, step 6·n last (R147). -/
def flatW (P : Params) (k : CipherState) (x : Semiblock × List Semiblock) : Semiblock × List Semiblock :=
  (stepNumbers x.2.length).foldl (flatStep P k x.2.length) x

/-- The inverse transform in the flat form: step 6·n first, step 1 last (R147). -/
def flatWinv (P : Params) (k : CipherState) (x : Semiblock × List Semiblock) : Semiblock × List Semiblock :=
  (stepNumbers x.2.length).reverse.foldl (flatInvStep P k x.2.length) x

/-! ### What the codecs should produce -/

/-- The plaintext semiblocks of a KWP plaintext: the bytes, then zero bytes up to n semiblocks (R182). -/
def paddedSemiblocks (bytes : List Byte) (n : Nat) : List Semiblock :=
  (List.range n).map fun i => semiblockOf (((bytes ++ zeros (8 * n - bytes.length)).drop (8 * i)).take 8)

/-- The KW wrapped value of n plaintext semiblocks: the final accumulator, then the ciphertext (R160). -/
def kwWrapped (P : Params) (k : CipherState) (plain : List Semiblock) : List Byte :=
  semiblockBytes (flatW P k (ivKw, plain)).1 ++ semiblocksBytes (flatW P k (ivKw, plain)).2

/-- The KWP wrapped value of a plaintext (R180): one cipher block when it has one semiblock (R184), else the
final accumulator and the ciphertext semiblocks. -/
def kwpWrapped (P : Params) (k : CipherState) (bytes : List Byte) : List Byte :=
  let plain := paddedSemiblocks bytes (ceil8 bytes.length)
  if ceil8 bytes.length = 1 then blockBytes (P.cipher.enc k (joinBlock (aiv bytes.length) (plain.getD 0 0)))
  else semiblockBytes (flatW P k (aiv bytes.length, plain)).1 ++ semiblocksBytes (flatW P k (aiv bytes.length, plain)).2

/-- The header and the n semiblocks KW_UNWRAP recovers from IN (R162). -/
def kwRecovered (P : Params) (k : CipherState) (s : State) (n : Nat) : Semiblock × List Semiblock :=
  flatWinv P k (semiblockOf (memRead s .inp 0 8), semiblocksAt s .inp 8 n)

/-- The header and the n semiblocks KWP_UNWRAP recovers from IN: by one `Dec` when n = 1 (R186). -/
def kwpRecovered (P : Params) (k : CipherState) (s : State) (n : Nat) : Semiblock × List Semiblock :=
  if n = 1 then
    let b := P.cipher.dec k (joinBlock (semiblockOf (memRead s .inp 0 8)) (semiblockOf (memRead s .inp 8 8)))
    (high b, [low b])
  else kwRecovered P k s n

/-- The three KWP checks on a recovered header and body (R187): the prefix, the MLI against the semiblock
count, and the bytes from the MLI on. -/
def KwpVerified (x : Semiblock × List Semiblock) : Prop :=
  headerPrefix x.1 = aivPrefix ∧ ceil8 (headerMli x.1) = x.2.length ∧
    (semiblocksBytes x.2).drop (headerMli x.1) = zeros (8 * x.2.length - headerMli x.1)

/-! ### What commands leave alone and how they end -/

/-- What no command ever writes: the three length registers, IN (R29), and the model's own fields. -/
structure CommandKeeps (s t : State) : Prop where
  inLen : t.inLen = s.inLen
  outLen : t.outLen = s.outLen
  kekLen : t.kekLen = s.kekLen
  inp : ∀ a, readByte t .inp a = readByte s .inp a
  pending : t.pending = s.pending
  returned : t.returned = s.returned
  resets : t.resets = s.resets

/-- What no codec command writes either: KEY and the KEK slot (R128). -/
structure CodecKeeps (s t : State) : Prop extends CommandKeeps s t where
  key : ∀ a, readByte t .key a = readByte s .key a
  kek : t.kek = s.kek

/-- A command has ended with this outcome, its transients cleared (R240, R241). -/
structure Ends (t : State) (e : ErrCode) (result info : Word) : Prop where
  err : t.err = e
  done : t.done = true
  resultLen : t.resultLen = result
  errInfo : t.errInfo = info
  acc : t.acc = 0
  blk : t.blk = 0
  seq : t.seq = none
  ctr : t.ctr = none
  count : t.count = none

/-- The bytes of OUT at and above an offset are as before. -/
def OutKeptFrom (n : Nat) (s t : State) : Prop := ∀ a, n ≤ a → readByte t .out a = readByte s .out a

/-- The output length a codec command requires for an input of L bytes, `none` where the source's length
rules reject L: the tables of R164, R190 and R231. -/
def requiredLength : Instr → Nat → Option Nat
  | .kwWrap, L => if L % 8 = 0 ∧ 8 ≤ L then some (L + 8) else none
  | .kwUnwrap, L => if L % 8 = 0 ∧ 16 ≤ L then some (L - 8) else none
  | .kwpWrap, L => if 1 ≤ L ∧ L ≤ 4294967295 then some (8 * ((L + 7) / 8) + 8) else none
  | .kwpUnwrap, L => if L % 8 = 0 ∧ 16 ≤ L ∧ L ≤ 4294967295 then some (L - 8) else none
  | .kekLoad, _ => none
  | .kekClr, _ => none

/-- Input and required output of E bytes fit the buffers, and OUT_LEN is E: the command gets to its own work. -/
def SizesPass (P : Params) (i : Instr) (s : State) (E : Nat) : Prop :=
  requiredLength i s.inLen.toNat = some E ∧ s.inLen.toNat ≤ P.bufBytes ∧ E ≤ P.bufBytes ∧ s.outLen.toNat = E

/-- The check of an unwrap passes on what is recovered from IN under kek_state k (R163, R187). -/
def Verified (P : Params) (k : CipherState) (i : Instr) (s : State) : Prop :=
  match i with
  | .kwUnwrap => (kwRecovered P k s (s.inLen.toNat / 8 - 1)).1 = ivKw
  | .kwpUnwrap => KwpVerified (kwpRecovered P k s (s.inLen.toNat / 8 - 1))
  | .kekLoad | .kekClr | .kwWrap | .kwpWrap => False

/-- Two states the host cannot tell apart without a command: they may differ in KEY, in kek_state, in the
transients, and in nothing else (R31, R32, R34, R35, R247). -/
structure AgreeButSecrets (s u : State) : Prop where
  err : u.err = s.err
  done : u.done = s.done
  inLen : u.inLen = s.inLen
  outLen : u.outLen = s.outLen
  kekLen : u.kekLen = s.kekLen
  resultLen : u.resultLen = s.resultLen
  errInfo : u.errInfo = s.errInfo
  inp : u.inp = s.inp
  out : u.out = s.out
  kekValid : u.kekValid = s.kekValid
  pending : u.pending = s.pending
  returned : u.returned = s.returned
  resets : u.resets = s.resets

/-- What an outcome is to the host: ERR, RESULT_LEN, ERRINFO and the result bytes (R213). -/
def outcomeOf (t : State) : ErrCode × Word × Word × List Byte :=
  (t.err, t.resultLen, t.errInfo, memRead t .out 0 t.resultLen.toNat)

end Sys2Proof.Machine
end

