-- ==== Sys2Proof/WellFormed.lean ====
section
/-! DEFINITION. What is well-formed: every command (it has no operand to check, R91 and R94), and a host
access whose offset exists (R41, R60, R67). -/

namespace Sys2Proof

/-- Every command is well-formed: a command word has no operand fields (R91). -/
def Instr.wellFormed : Instr → Bool
  | .kekLoad | .kekClr | .kwWrap | .kwUnwrap | .kwpWrap | .kwpUnwrap => true

/-- A host access whose offset exists in its space, for buffers of `bufBytes` bytes (R41, R60). -/
def Machine.HostAccess.wellFormed (bufBytes : Nat) : Machine.HostAccess → Bool
  | .readReg off | .writeReg off _ => decide (off % 8 = 0 ∧ off < 0x38)
  | .readByte .key k | .writeByte .key k _ => decide (k < 32)
  | .readByte _ k | .writeByte _ k _ => decide (k < bufBytes)
  | .reset => true

end Sys2Proof
end

