-- ==== Sys2Proof/Certificates/Slice0/Obligations.lean ====
section
/-! DEFINITION. The statements about KWE, each with the rule of spec/ it formalises. `Config.params` is an
arbitrary cipher port and capacity that meet R6 and R120 to R122, so a statement about `exec` or `step` holds
for all of them. -/

open Sys2Proof Sys2Proof.Machine

/-! ## Command words -/

/-- R93: the decoder, value by value; every other value is Illegal. -/
def Obligations.DecodingIsTheTable : Prop :=
  ∀ v : Word,
    (decode v = .ok .kekLoad ↔ v = 0x0000000000000001#64) ∧
    (decode v = .ok .kekClr ↔ v = 0x0000000000000002#64) ∧
    (decode v = .ok .kwWrap ↔ v = 0x0000000000000010#64) ∧
    (decode v = .ok .kwUnwrap ↔ v = 0x0000000000000011#64) ∧
    (decode v = .ok .kwpWrap ↔ v = 0x0000000000000012#64) ∧
    (decode v = .ok .kwpUnwrap ↔ v = 0x0000000000000013#64) ∧
    ((∃ e, decode v = .error e) ↔
      v ≠ 0x01#64 ∧ v ≠ 0x02#64 ∧ v ≠ 0x10#64 ∧ v ≠ 0x11#64 ∧ v ≠ 0x12#64 ∧ v ≠ 0x13#64)

/-- R91, R95: a word is a command exactly when its fields say so: ZERO is 0; CLASS 0 with FUNC 1 or 2; CLASS 1
with FUNC[3:2] = 0, where FUNC[1] says padding and FUNC[0] says unwrap. -/
def Obligations.FieldsDecideTheCommand : Prop :=
  ∀ v : Word,
    (∀ i, decode v = .ok i → isCodec i = true →
      (funcField v).getLsbD 1 = decide (i = .kwpWrap ∨ i = .kwpUnwrap) ∧ (funcField v).getLsbD 0 = isUnwrap i) ∧
    ((∃ i, decode v = .ok i) ↔
      zeroField v = 0 ∧
        ((classField v = 0 ∧ (funcField v = 1 ∨ funcField v = 2)) ∨
          (classField v = 1 ∧ (funcField v).getLsbD 3 = false ∧ (funcField v).getLsbD 2 = false)))

/-- Every command is read back from its word, and no other word is read as it (R92). -/
def Obligations.EncodeAndDecodeAgree : Prop :=
  ∀ (i : Instr) (v : Word), decode v = .ok i ↔ v = encode i

/-! ## Steps and host accesses -/

/-- R90, R75, R79: a CMD write whose value decodes to a command runs that command on the state as it stands,
and the access is used up. -/
def Obligations.StepRunsTheIssuedCommand : Prop :=
  ∀ (s : State) (v : Word) (rest : List HostAccess) (i : Instr),
    s.pending = .writeReg 0x00 v :: rest → decode v = .ok i → i.wellFormed = true →
      step s = exec i (s.takeAccess rest)

/-- R95, R235: a CMD write of any other value reports IllegalCommand and changes nothing else. That the access is
off the list and hands nothing back is about the model's own fields (log entry 3, DESIGN CHOICE). -/
def Obligations.IllegalWordOnlyReports : Prop :=
  ∀ (s : State) (v : Word) (rest : List HostAccess) (e : IllegalWord),
    s.pending = .writeReg 0x00 v :: rest → decode v = .error e →
      step s = .next { s with
        err := .illegalCommand, done := true, resultLen := 0, errInfo := 0,
        acc := 0, blk := 0, seq := none, ctr := none, count := none,
        pending := rest, returned := .nothing }

/-- R38: with no access to perform the engine waits. That waiting is a step that changes nothing is the model's
choice (log entry 3). -/
def Obligations.EngineWaitsForTheHost : Prop :=
  ∀ s : State, s.pending = [] → step s = .next s

/-- R40, with the offsets of R21: a write to a read-only register changes nothing, a read of CMD returns 0, a
read of a register changes nothing (the value handed back apart), and a write to a length register stores the
value and has no other effect (R61 for the accesses). That the access is off the list, and that the field `returned`
holds the value read, or nothing after a write, is about the model's own fields (log entry 3, DESIGN CHOICE). -/
def Obligations.RegisterAccessRules : Prop :=
  ∀ (s : State) (rest : List HostAccess),
    (∀ v, (s.pending = .writeReg 0x08 v :: rest ∨ s.pending = .writeReg 0x28 v :: rest ∨
        s.pending = .writeReg 0x30 v :: rest) → step s = .next (s.takeAccess rest)) ∧
    (∀ off w, s.pending = .readReg off :: rest →
        ((off = 0x00 ∧ w = 0) ∨ (off = 0x08 ∧ w = s.status) ∨ (off = 0x10 ∧ w = s.inLen) ∨
          (off = 0x18 ∧ w = s.outLen) ∨ (off = 0x20 ∧ w = s.kekLen) ∨ (off = 0x28 ∧ w = s.resultLen) ∨
          (off = 0x30 ∧ w = s.errInfo)) →
        step s = .next { s with pending := rest, returned := .word w }) ∧
    (∀ v, s.pending = .writeReg 0x10 v :: rest → step s = .next { s.takeAccess rest with inLen := v }) ∧
    (∀ v, s.pending = .writeReg 0x18 v :: rest → step s = .next { s.takeAccess rest with outLen := v }) ∧
    (∀ v, s.pending = .writeReg 0x20 v :: rest → step s = .next { s.takeAccess rest with kekLen := v })

/-- R41, R67, with the ranges of R61: an access is refused exactly when its offset does not exist. That the refusal
is called `noRegister` or `noBufferByte` and carries the offset is the model's own naming (log entry 6, DEDUCED). -/
def Obligations.UndefinedOffsetsAreRefused : Prop :=
  ∀ (s : State) (a : HostAccess) (rest : List HostAccess), s.pending = a :: rest →
    ((∃ r, step s = .refused r) ↔ a.wellFormed Config.params.bufBytes = false) ∧
    (∀ off, a = .readReg off ∨ (∃ v, a = .writeReg off v) → (off % 8 ≠ 0 ∨ 0x38 ≤ off) →
      step s = .refused (.noRegister off)) ∧
    (∀ S k, a = .readByte S k ∨ (∃ b, a = .writeByte S k b) →
      (if S = .key then 32 ≤ k else Config.params.bufBytes ≤ k) → step s = .refused (.noBufferByte S k))

/-- R61, R31: a byte read hands back the byte IN or OUT holds, and 0x00 for every offset of KEY; it changes
nothing else (R70). Where the value handed back stands is the model's own (log entry 3). -/
def Obligations.ByteReadsReturnTheByte : Prop :=
  ∀ (s : State) (rest : List HostAccess) (k : Nat),
    (∀ S, S ≠ .key → s.pending = .readByte S k :: rest → k < Config.params.bufBytes →
      step s = .next { s with pending := rest, returned := .byte (readByte s S k) }) ∧
    (s.pending = .readByte .key k :: rest → k < 32 →
      step s = .next { s with pending := rest, returned := .byte 0 })

/-- R61, R70: a byte write stores the byte and changes no other byte of any space and no register. That the access
is off the list and hands nothing back, and that the count of resets stays, is about the model's own fields (log
entries 3 and 4), of which the rules say nothing. -/
def Obligations.ByteWritesStoreTheByte : Prop :=
  ∀ (s : State) (S : Space) (k : Nat) (b : Byte) (rest : List HostAccess),
    Memory.wf (unlistedKnown .key) s.key →
    s.pending = .writeByte S k b :: rest → k < spaceSize Config.params S →
      ∃ t, step s = .next t ∧
        (∀ T a, readByte t T a = if T = S ∧ a = k then b else readByte s T a) ∧
        t.err = s.err ∧ t.done = s.done ∧ t.inLen = s.inLen ∧ t.outLen = s.outLen ∧ t.kekLen = s.kekLen ∧
        t.resultLen = s.resultLen ∧ t.errInfo = s.errInfo ∧ t.kek = s.kek ∧ t.acc = s.acc ∧ t.blk = s.blk ∧
        t.seq = s.seq ∧ t.ctr = s.ctr ∧ t.count = s.count ∧
        t.pending = rest ∧ t.returned = .nothing ∧ t.resets = s.resets

/-- R38, R270, R271: `Reset` puts every register to 0, empties the KEK slot, zeroises KEY and clears the
transients, whatever the state was. That the bytes of IN and OUT are then the free value of the new count of
resets, and that the host's later accesses stay, is the model's own (log entries 3 and 4). -/
def Obligations.ResetPutsEveryPieceToItsValue : Prop :=
  ∀ (s : State) (rest : List HostAccess), s.pending = .reset :: rest →
    ∃ t, step s = .next t ∧
      t.status = 0 ∧ t.inLen = 0 ∧ t.outLen = 0 ∧ t.kekLen = 0 ∧ t.resultLen = 0 ∧ t.errInfo = 0 ∧
      t.kek = none ∧ t.acc = 0 ∧ t.blk = 0 ∧ t.seq = none ∧ t.ctr = none ∧ t.count = none ∧
      (∀ a, readByte t .key a = 0) ∧
      (∀ a, readByte t .inp a = Config.freeByte (s.resets + 1) .inp a ∧
        readByte t .out a = Config.freeByte (s.resets + 1) .out a) ∧
      t.pending = rest

/-- R38: the state after reset, from which a run begins. -/
def Obligations.ResetStateIsTheTable : Prop :=
  State.reset.status = 0 ∧ State.reset.inLen = 0 ∧ State.reset.outLen = 0 ∧ State.reset.kekLen = 0 ∧
  State.reset.resultLen = 0 ∧ State.reset.errInfo = 0 ∧ State.reset.kek = none ∧ State.reset.acc = 0 ∧
  State.reset.blk = 0 ∧ State.reset.seq = none ∧ State.reset.ctr = none ∧ State.reset.count = none ∧
  (∀ a, readByte State.reset .key a = 0)

/-- R23: ERR in 3:0 with the codes of R230, DONE in bit 4, KEK_VALID in bit 8, every reserved bit 0, and no
code above 6. -/
def Obligations.StatusLayout : Prop :=
  ∀ s : State,
    s.status.extractLsb' 0 4 = errCode s.err ∧ s.status.getLsbD 4 = s.done ∧ s.status.extractLsb' 5 3 = 0 ∧
    s.status.getLsbD 8 = s.kek.isSome ∧ s.status.extractLsb' 9 55 = 0 ∧ (s.status.extractLsb' 0 4).toNat ≤ 6

/-! ## How a command ends -/

/-- R240 with the codes and carried values of R230: `raise` writes ERR, DONE, RESULT_LEN and ERRINFO, clears
the transients, and writes nothing else. -/
def Obligations.RaiseWritesTheseAndNoOthers : Prop :=
  ∀ s : State, ∀ w : Word,
    let ended (e : ErrCode) (info : Word) : State :=
      { s with
        err := e, done := true, resultLen := 0, errInfo := info,
        acc := 0, blk := 0, seq := none, ctr := none, count := none }
    raise .invalidDataSize s = ended .invalidDataSize 0 ∧ errCode .invalidDataSize = 1 ∧
    raise (.invalidKekSize w) s = ended .invalidKekSize w ∧ errCode .invalidKekSize = 2 ∧
    raise (.invalidOutputSize w) s = ended .invalidOutputSize w ∧ errCode .invalidOutputSize = 3 ∧
    raise .integrityCheckFailed s = ended .integrityCheckFailed 0 ∧ errCode .integrityCheckFailed = 4 ∧
    raise .kekNotLoaded s = ended .kekNotLoaded 0 ∧ errCode .kekNotLoaded = 5 ∧
    raise .illegalCommand s = ended .illegalCommand 0 ∧ errCode .illegalCommand = 6

/-- R241: `complete(len)`. -/
def Obligations.CompleteReportsSuccess : Prop :=
  ∀ (s : State) (len : Nat),
    complete len s = { s with
      err := .success, done := true, resultLen := BitVec.ofNat 64 len, errInfo := 0,
      acc := 0, blk := 0, seq := none, ctr := none, count := none } ∧
    errCode .success = 0

/-- R218: in every state every command has an outcome, and so has every value written to CMD. -/
def Obligations.EveryCommandEnds : Prop :=
  (∀ (i : Instr) (s : State), ∃ t, exec i s = .next t ∧ t.done = true) ∧
  ∀ (s : State) (v : Word) (rest : List HostAccess), s.pending = .writeReg 0x00 v :: rest →
    ∃ t, step s = .next t ∧ t.done = true

/-- R235: a codec command with no KEK reports KekNotLoaded, whatever its lengths, and changes nothing else. -/
def Obligations.CodecWithoutKekOnlyReports : Prop :=
  ∀ (i : Instr) (s : State), isCodec i = true → s.kek = none →
    exec i s = .next { s with
      err := .kekNotLoaded, done := true, resultLen := 0, errInfo := 0,
      acc := 0, blk := 0, seq := none, ctr := none, count := none }

/-- R231: with a KEK, a codec command reports InvalidDataSize exactly when IN_LEN breaks the command's own
length rule or the capacity (R236), on the value of IN_LEN alone; nothing but the outcome changes. -/
def Obligations.DataSizeRulesReported : Prop :=
  ∀ (s : State) (k : CipherState), s.kek = some k →
    let L := s.inLen.toNat
    let B := Config.params.bufBytes
    let reported := State.clearTransients
      { s with err := .invalidDataSize, done := true, resultLen := 0, errInfo := 0 }
    (exec .kwWrap s = .next reported ↔ L % 8 ≠ 0 ∨ L < 8 ∨ B < L ∨ B < L + 8) ∧
    (exec .kwUnwrap s = .next reported ↔ L % 8 ≠ 0 ∨ L < 16 ∨ B < L) ∧
    (exec .kwpWrap s = .next reported ↔ L < 1 ∨ 4294967295 < L ∨ B < L ∨ B < 8 * ((L + 7) / 8) + 8) ∧
    (exec .kwpUnwrap s = .next reported ↔ L % 8 ≠ 0 ∨ L < 16 ∨ 4294967295 < L ∨ B < L)

/-- R217: when the KEK is valid and the data-size and capacity tests pass, a wrong OUT_LEN gives
InvalidOutputSize with ERRINFO = E and RESULT_LEN = 0, and changes no byte of IN, OUT or KEY, no length
register and not the KEK slot. -/
def Obligations.WrongOutputLengthOnlyReports : Prop :=
  ∀ (i : Instr) (s : State) (E : Nat), isCodec i = true → s.kek ≠ none →
    requiredLength i s.inLen.toNat = some E → s.inLen.toNat ≤ Config.params.bufBytes → E ≤ Config.params.bufBytes →
    s.outLen.toNat ≠ E →
      exec i s = .next { s with
        err := .invalidOutputSize, done := true, resultLen := 0, errInfo := BitVec.ofNat 64 E,
        acc := 0, blk := 0, seq := none, ctr := none, count := none }

/-- R219: with a valid KEK and IN_LEN = 8, both unwraps end with InvalidDataSize, for every OUT_LEN and every
content of IN. -/
def Obligations.OneSemiblockIsTooShortToUnwrap : Prop :=
  ∀ (i : Instr) (s : State), isUnwrap i = true → s.kek ≠ none → s.inLen = 8 →
    ∃ t, exec i s = .next t ∧ Ends t .invalidDataSize 0 0

/-- R237: the first error that applies, in the rule's order, for each command: IllegalCommand; for KEKLOAD the key
size; for a codec command the KEK, the length rule, the capacity, OUT_LEN, and last, for an unwrap, the check on
what is recovered (`Verified`, R163 and R187). No error applies: success. -/
def Obligations.FirstErrorInOrderIsReported : Prop :=
  (∀ (s : State) (v : Word) (e : IllegalWord) (rest : List HostAccess), s.pending = .writeReg 0x00 v :: rest →
    decode v = .error e → ∃ t, step s = .next t ∧ t.err = .illegalCommand) ∧
  (∀ (s : State), ∃ t, exec .kekLoad s = .next t ∧
    t.err = if s.kekLen = 16 ∨ s.kekLen = 24 ∨ s.kekLen = 32 then .success else .invalidKekSize) ∧
  (∀ (i : Instr) (s : State), isCodec i = true → ∃ t, exec i s = .next t ∧
    (s.kek = none → t.err = .kekNotLoaded) ∧
    (s.kek ≠ none → requiredLength i s.inLen.toNat = none → t.err = .invalidDataSize) ∧
    (∀ E, s.kek ≠ none → requiredLength i s.inLen.toNat = some E →
      (Config.params.bufBytes < s.inLen.toNat ∨ Config.params.bufBytes < E → t.err = .invalidDataSize) ∧
      (s.inLen.toNat ≤ Config.params.bufBytes → E ≤ Config.params.bufBytes → s.outLen.toNat ≠ E →
        t.err = .invalidOutputSize) ∧
      (s.inLen.toNat ≤ Config.params.bufBytes → E ≤ Config.params.bufBytes → s.outLen.toNat = E →
        (isUnwrap i = false → t.err = .success) ∧
        (isUnwrap i = true → ∀ k, s.kek = some k →
          (Verified Config.params k i s → t.err = .success) ∧
          (¬ Verified Config.params k i s → t.err = .integrityCheckFailed)))))

/-- R243, with the regions of R72: a command that ends in an error other than IntegrityCheckFailed has changed
the outcome registers alone; one that ends in IntegrityCheckFailed has besides set OUT[0 : OUT_LEN) to zero;
one that ends in success has written no byte of OUT at or above OUT_LEN (a codec command) or none of OUT (a
KEK command). The length registers, IN and, KEKCLR apart, KEY stay. -/
def Obligations.ErrorsArePrecise : Prop :=
  (∀ s, illegalCommand s = { s with
      err := .illegalCommand, done := true, resultLen := 0, errInfo := 0,
      acc := 0, blk := 0, seq := none, ctr := none, count := none }) ∧
  ∀ (i : Instr) (s t : State), exec i s = .next t →
    (t.err ≠ .success → t.err ≠ .integrityCheckFailed →
      t = State.clearTransients
        { s with err := t.err, done := true, resultLen := t.resultLen, errInfo := t.errInfo }) ∧
    (t.err = .integrityCheckFailed →
      (∀ a, readByte t .out a = if a < s.outLen.toNat then 0 else readByte s .out a) ∧ CodecKeeps s t) ∧
    (t.err = .success →
      CommandKeeps s t ∧ (isCodec i = true → OutKeptFrom s.outLen.toNat s t ∧ CodecKeeps s t) ∧
        (isCodec i = false → OutKeptFrom 0 s t))

/-! ## The KEK commands -/

/-- R126: KEKLOAD with a KEK_LEN of 16, 24 or 32 binds KEY[0 : KEK_LEN) to the port, whatever the slot held,
and changes nothing else but the outcome. -/
def Obligations.KekLoadBindsTheKey : Prop :=
  ∀ s : State, (s.kekLen = 16 ∨ s.kekLen = 24 ∨ s.kekLen = 32) →
    exec .kekLoad s = .next { s with
      kek := some (Config.params.cipher.init (memRead s .key 0 s.kekLen.toNat)),
      err := .success, done := true, resultLen := 0, errInfo := 0,
      acc := 0, blk := 0, seq := none, ctr := none, count := none }

/-- R232, R126 corners (b) and (c): InvalidKekSize is raised by KEKLOAD alone, exactly when KEK_LEN is none of
16, 24 and 32; ERRINFO is KEK_LEN, and the slot, KEY and everything else stay. -/
def Obligations.OtherKekSizesRejected : Prop :=
  (∀ s : State, s.kekLen ≠ 16 → s.kekLen ≠ 24 → s.kekLen ≠ 32 →
    exec .kekLoad s = .next { s with
      err := .invalidKekSize, done := true, resultLen := 0, errInfo := s.kekLen,
      acc := 0, blk := 0, seq := none, ctr := none, count := none }) ∧
  (∀ (i : Instr) (s t : State), exec i s = .next t → t.err = .invalidKekSize →
    i = .kekLoad ∧ s.kekLen ≠ 16 ∧ s.kekLen ≠ 24 ∧ s.kekLen ≠ 32)

/-- R127: KEKCLR empties the slot, zeroises KEY[0 : 32), reports success, and changes no byte of IN or OUT, no
length register and nothing else. -/
def Obligations.KekClrDropsTheKek : Prop :=
  ∀ s : State, Memory.wf (unlistedKnown .key) s.key →
    ∃ t, exec .kekClr s = .next t ∧ t.kek = none ∧
      (∀ a, readByte t .key a = if a < 32 then 0 else readByte s .key a) ∧
      Ends t .success 0 0 ∧ CommandKeeps s t ∧ OutKeptFrom 0 s t

/-- R127 corner (c): KEKCLR twice in a row is the same as once. -/
def Obligations.KekClrTwiceIsOnce : Prop :=
  ∀ s t : State, Memory.wf (unlistedKnown .key) s.key → exec .kekClr s = .next t → exec .kekClr t = .next t

/-- R127 corners (a) and (d), R278: after KEKCLR every codec command reports KekNotLoaded, and a KEKLOAD issued
next, KEK_LEN being 16, 24 or 32 still, binds the all-zero key of that length. -/
def Obligations.AfterKekClrNoKeyOrTheZeroKey : Prop :=
  ∀ s t : State, Memory.wf (unlistedKnown .key) s.key → exec .kekClr s = .next t →
    (∀ i, isCodec i = true → ∃ u, exec i t = .next u ∧ u.err = .kekNotLoaded) ∧
    ((s.kekLen = 16 ∨ s.kekLen = 24 ∨ s.kekLen = 32) →
      ∃ u, exec .kekLoad t = .next u ∧ u.err = .success ∧
        u.kek = some (Config.params.cipher.init (zeros s.kekLen.toNat)))

/-- R128: over every step, the slot changes only by a KEKLOAD that succeeds, by KEKCLR or by a reset. -/
def Obligations.OnlyKekCommandsWriteTheSlot : Prop :=
  ∀ s t : State, step s = .next t → t.kek ≠ s.kek →
    ∃ rest,
      (s.pending = .writeReg 0x00 0x01 :: rest ∧ t.err = .success ∧
        (s.kekLen = 16 ∨ s.kekLen = 24 ∨ s.kekLen = 32) ∧
        t.kek = some (Config.params.cipher.init (memRead s .key 0 s.kekLen.toNat))) ∨
      (s.pending = .writeReg 0x00 0x02 :: rest ∧ t.kek = none) ∨
      (s.pending = .reset :: rest ∧ t.kek = none)

/-! ## The transform -/

/-- R33, R143, R145, R147: from its start the sequencer names, after m steps, the step that comes m-th in the
order, each step performed is the one it named, and after the last it names none: the transform has ended. With
it, the order starts at (0, 0) and each position is followed by the sequencer's next, ending where there is none; the
inverse likewise from (5, n−1). -/
def Obligations.SequencerWalksTheOrder : Prop :=
  ∀ n, 1 ≤ n →
    ((forwardOrder n)[0]? = some (0, 0) ∧
      (∀ m p, (forwardOrder n)[m]? = some p → (forwardOrder n)[m + 1]? = forwardNext n p) ∧
      (inverseOrder n)[0]? = some (5, n - 1) ∧
      (∀ m p, (inverseOrder n)[m]? = some p → (inverseOrder n)[m + 1]? = inverseNext n p)) ∧
    ∀ (P : Params) (k : CipherState) (base : Nat) (s : State),
      (∀ m, (forwardRun P k base m (forwardStart n s)).seq = (forwardOrder n)[m]?) ∧
      (∀ m p, (forwardOrder n)[m]? = some p →
        forwardRun P k base (m + 1) (forwardStart n s) =
          wStep P k base n p (forwardRun P k base m (forwardStart n s))) ∧
      (∀ m, (inverseRun P k base m (inverseStart n s)).seq = (inverseOrder n)[m]?) ∧
      (∀ m p, (inverseOrder n)[m]? = some p →
        inverseRun P k base (m + 1) (inverseStart n s) =
          winvStep P k base n p (inverseRun P k base m (inverseStart n s))) ∧
      (transformW P k base n s).seq = none ∧ (transformWinv P k base n s).seq = none

/-- R141, R147: step number t stands at round (t − 1) div n, semiblock (t − 1) mod n, and its counter is t; the
inverse order is the forward order reversed; there are 6·n steps (R150). -/
def Obligations.StepNumberIsTheCounter : Prop :=
  ∀ n, 1 ≤ n →
    (forwardOrder n).length = 6 * n ∧
    (∀ t, 1 ≤ t → t ≤ 6 * n →
      (forwardOrder n)[t - 1]? = some ((t - 1) / n, (t - 1) % n) ∧ roundCounter n ((t - 1) / n) ((t - 1) % n) = t) ∧
    inverseOrder n = (forwardOrder n).reverse

/-- R142: one forward step, read off the state it leaves: B, A and R[i]; the other semiblocks and every byte
outside R[i] stay, and so does everything but A, B, t and the sequencer, which goes on to the step after this one
(R33). -/
def Obligations.ForwardStepRule : Prop :=
  ∀ (P : Params) (k : CipherState) (base n j i : Nat) (s : State),
    let t := wStep P k base n (j, i) s
    let b := P.cipher.enc k (joinBlock s.acc (readSemiblock s base i))
    t.blk = b ∧ t.acc = high b ^^^ BitVec.ofNat 64 (n * j + (i + 1)) ∧ readSemiblock t base i = low b ∧
    (∀ a, a < base + 8 * i ∨ base + 8 * i + 8 ≤ a → readByte t .out a = readByte s .out a) ∧
    t = { s with
      out := t.out, acc := t.acc, blk := t.blk, ctr := some (n * j + (i + 1)),
      seq := if i + 1 < n then some (j, i + 1) else if j < 5 then some (j + 1, 0) else none }

/-- R144: one inverse step, likewise; the counter is XORed in before the decryption. -/
def Obligations.InverseStepRule : Prop :=
  ∀ (P : Params) (k : CipherState) (base n j i : Nat) (s : State),
    let t := winvStep P k base n (j, i) s
    let b := P.cipher.dec k (joinBlock (s.acc ^^^ BitVec.ofNat 64 (n * j + (i + 1))) (readSemiblock s base i))
    t.blk = b ∧ t.acc = high b ∧ readSemiblock t base i = low b ∧
    (∀ a, a < base + 8 * i ∨ base + 8 * i + 8 ≤ a → readByte t .out a = readByte s .out a) ∧
    t = { s with
      out := t.out, acc := t.acc, blk := t.blk, ctr := some (n * j + (i + 1)),
      seq := if 0 < i then some (j, i - 1) else if 0 < j then some (j - 1, n - 1) else none }

/-- R147: the transforms in OUT compute the flat form on A and the list of semiblocks. -/
def Obligations.TransformsAreTheirFlatForms : Prop :=
  ∀ (P : Params) (k : CipherState) (base n : Nat) (s : State), 1 ≤ n →
    ((transformW P k base n s).acc, semiblocksAt (transformW P k base n s) .out base n) =
      flatW P k (s.acc, semiblocksAt s .out base n) ∧
    ((transformWinv P k base n s).acc, semiblocksAt (transformWinv P k base n s) .out base n) =
      flatWinv P k (s.acc, semiblocksAt s .out base n)

/-- R149: for every n ≥ 1, base and state that `init` made, Winv started where W ended recovers the accumulator
and every semiblock, and W undoes Winv. -/
def Obligations.InverseTransformUndoesForward : Prop :=
  ∀ (P : Params) (k : CipherState) (base n : Nat) (s : State), FromInit P k → 1 ≤ n →
    ∀ t, t = transformWinv P k base n (transformW P k base n s) ∨ t = transformW P k base n (transformWinv P k base n s) →
      t.acc = s.acc ∧ ∀ i < n, readSemiblock t base i = readSemiblock s base i

/-- R148, for n ≥ 1: the transforms write no byte of OUT outside OUT[base : base + 8·n) and nothing but OUT, A, B, t,
n and the sequencer; they do not read IN; and they do not read OUT outside the region: with any other content there,
they leave the same A, B, t, n and sequencer and the same bytes in the region. -/
def Obligations.TransformsStayInTheirRegion : Prop :=
  ∀ (P : Params) (k : CipherState) (base n : Nat) (s : State) (m : Memory), 1 ≤ n →
    (∀ t, t = transformW P k base n s ∨ t = transformWinv P k base n s →
      (∀ a, a < base ∨ base + 8 * n ≤ a → readByte t .out a = readByte s .out a) ∧
      t = { s with
        out := t.out, acc := t.acc, blk := t.blk, seq := t.seq, ctr := t.ctr, count := t.count }) ∧
    transformW P k base n { s with inp := m } = { transformW P k base n s with inp := m } ∧
    transformWinv P k base n { s with inp := m } = { transformWinv P k base n s with inp := m } ∧
    ((∀ a, base ≤ a → a < base + 8 * n → readByte { s with out := m } .out a = readByte s .out a) →
      ∀ f, f = transformW P k base n ∨ f = transformWinv P k base n →
        let t := f s
        let u := f { s with out := m }
        u.acc = t.acc ∧ u.blk = t.blk ∧ u.seq = t.seq ∧ u.ctr = t.ctr ∧ u.count = t.count ∧
          ∀ a, base ≤ a → a < base + 8 * n → readByte u .out a = readByte t .out a)

/-- R152, for every n: with a cipher that returns its block unchanged, W leaves the semiblocks and XORs every
counter 1, 2, ..., 6·n into A. -/
def Obligations.IdentityCipherLeavesTheSemiblocks : Prop :=
  ∀ (P : Params) (k : CipherState) (base n : Nat) (s : State), (∀ b, P.cipher.enc k b = b) → 1 ≤ n →
    (transformW P k base n s).acc = (stepNumbers n).foldl (fun a t => a ^^^ be64 t) s.acc ∧
    ∀ i < n, readSemiblock (transformW P k base n s) base i = readSemiblock s base i

/-! ## KW -/

/-- R161, R160: KW_WRAP completes on every input its sizes allow; OUT[0 : L+8) is the final accumulator and then
the ciphertext semiblocks, RESULT_LEN = L + 8, and nothing else changes. -/
def Obligations.KwWrapProducesTheWrappedValue : Prop :=
  ∀ (s : State) (k : CipherState),
    let L := s.inLen.toNat
    s.kek = some k → L % 8 = 0 → 8 ≤ L → L + 8 ≤ Config.params.bufBytes → s.outLen.toNat = L + 8 →
      ∃ t, exec .kwWrap s = .next t ∧ Ends t .success (BitVec.ofNat 64 (L + 8)) 0 ∧
        memRead t .out 0 (L + 8) = kwWrapped Config.params k (semiblocksAt s .inp 0 (L / 8)) ∧
        OutKeptFrom (L + 8) s t ∧ CodecKeeps s t

/-- R162, R163: KW_UNWRAP completes when the recovered header is IV_KW: OUT[0 : L−8) is the recovered plaintext,
RESULT_LEN = L − 8, and nothing else changes. -/
def Obligations.KwUnwrapReleasesVerifiedPlaintext : Prop :=
  ∀ (s : State) (k : CipherState),
    let L := s.inLen.toNat
    s.kek = some k → L % 8 = 0 → 16 ≤ L → L ≤ Config.params.bufBytes → s.outLen.toNat = L - 8 →
    (kwRecovered Config.params k s (L / 8 - 1)).1 = 0xA6A6A6A6A6A6A6A6#64 →
      ∃ t, exec .kwUnwrap s = .next t ∧ Ends t .success (BitVec.ofNat 64 (L - 8)) 0 ∧
        memRead t .out 0 (L - 8) = semiblocksBytes (kwRecovered Config.params k s (L / 8 - 1)).2 ∧
        OutKeptFrom (L - 8) s t ∧ CodecKeeps s t

/-- R162, R163: when any bit of the recovered header differs from IV_KW, KW_UNWRAP zeroises OUT[0 : L−8) and
reports IntegrityCheckFailed, and nothing else changes. -/
def Obligations.KwUnwrapZeroisesOnWrongHeader : Prop :=
  ∀ (s : State) (k : CipherState),
    let L := s.inLen.toNat
    s.kek = some k → L % 8 = 0 → 16 ≤ L → L ≤ Config.params.bufBytes → s.outLen.toNat = L - 8 →
    (kwRecovered Config.params k s (L / 8 - 1)).1 ≠ 0xA6A6A6A6A6A6A6A6#64 →
      ∃ t, exec .kwUnwrap s = .next t ∧ Ends t .integrityCheckFailed 0 0 ∧
        memRead t .out 0 (L - 8) = zeros (L - 8) ∧ OutKeptFrom (L - 8) s t ∧ CodecKeeps s t

/-- R214, for every cipher port and capacity: KW_WRAP of a plaintext succeeds, and KW_UNWRAP of what it left in
OUT, under the same KEK and in whatever other state, succeeds with the plaintext. -/
def Obligations.KwRoundTrip : Prop :=
  ∀ (P : Params) (s u : State) (k : CipherState),
    let L := s.inLen.toNat
    let t := kwWrap P s
    FromInit P k → s.kek = some k → L % 8 = 0 → 8 ≤ L → L + 8 ≤ P.bufBytes → s.outLen.toNat = L + 8 →
    u.kek = some k → memRead u .inp 0 (L + 8) = memRead t .out 0 (L + 8) →
    u.inLen.toNat = L + 8 → u.outLen.toNat = L →
      t.err = .success ∧ (kwUnwrap P u).err = .success ∧ (kwUnwrap P u).resultLen.toNat = L ∧
        memRead (kwUnwrap P u) .out 0 L = memRead s .inp 0 L

/-! ## KWP -/

/-- R187: `KwpCheck` passes with an MLI exactly when the prefix is right, the header's MLI fits the semiblock
count, and every byte of OUT from the MLI to 8·n is zero; a passing MLI lies between 8·n − 7 and 8·n. -/
def Obligations.KwpCheckRule : Prop :=
  ∀ (s : State) (a : Semiblock) (n m : Nat),
    (kwpCheck s a n = some m ↔
      (semiblockBytes a).take 4 = [0xA6#8, 0x59#8, 0x59#8, 0xA6#8] ∧ m = intBe ((semiblockBytes a).drop 4) ∧
        (m + 7) / 8 = n ∧ ∀ p, m ≤ p → p < 8 * n → readByte s .out p = 0) ∧
    (kwpCheck s a n = some m → 8 * n - 7 ≤ m ∧ m ≤ 8 * n)

/-- R183, R184, R180: KWP_WRAP completes on every input its sizes allow, the one-block case and the general case;
RESULT_LEN = 8·ceil8(L) + 8, and nothing else changes. -/
def Obligations.KwpWrapProducesTheWrappedValue : Prop :=
  ∀ (s : State) (k : CipherState),
    let L := s.inLen.toNat
    let E := 8 * ((L + 7) / 8) + 8
    s.kek = some k → 1 ≤ L → L ≤ 4294967295 → E ≤ Config.params.bufBytes → s.outLen.toNat = E →
      ∃ t, exec .kwpWrap s = .next t ∧ Ends t .success (BitVec.ofNat 64 E) 0 ∧
        memRead t .out 0 E = kwpWrapped Config.params k (memRead s .inp 0 L) ∧
        OutKeptFrom E s t ∧ CodecKeeps s t

/-- R185, R186, R189: KWP_UNWRAP completes when the recovered header, MLI and padding verify; OUT[0 : L−8) is
the recovered padded plaintext, RESULT_LEN is the MLI, and nothing else changes. -/
def Obligations.KwpUnwrapReleasesVerifiedPlaintext : Prop :=
  ∀ (s : State) (k : CipherState),
    let L := s.inLen.toNat
    let x := kwpRecovered Config.params k s (L / 8 - 1)
    s.kek = some k → L % 8 = 0 → 16 ≤ L → L ≤ 4294967295 → L ≤ Config.params.bufBytes → s.outLen.toNat = L - 8 →
    KwpVerified x →
      ∃ t, exec .kwpUnwrap s = .next t ∧ Ends t .success (BitVec.ofNat 64 (headerMli x.1)) 0 ∧
        memRead t .out 0 (L - 8) = semiblocksBytes x.2 ∧ OutKeptFrom (L - 8) s t ∧ CodecKeeps s t

/-- R185, R188: when any of the three checks fails, KWP_UNWRAP zeroises OUT[0 : L−8) and reports
IntegrityCheckFailed with ERRINFO = 0, and nothing else changes: which check failed leaves no trace. -/
def Obligations.KwpUnwrapZeroisesOnFailedCheck : Prop :=
  ∀ (s : State) (k : CipherState),
    let L := s.inLen.toNat
    s.kek = some k → L % 8 = 0 → 16 ≤ L → L ≤ 4294967295 → L ≤ Config.params.bufBytes → s.outLen.toNat = L - 8 →
    ¬ KwpVerified (kwpRecovered Config.params k s (L / 8 - 1)) →
      ∃ t, exec .kwpUnwrap s = .next t ∧ Ends t .integrityCheckFailed 0 0 ∧
        memRead t .out 0 (L - 8) = zeros (L - 8) ∧ OutKeptFrom (L - 8) s t ∧ CodecKeeps s t

/-- R215, for every cipher port and capacity: KWP_WRAP of a plaintext whose wrapped value KWP_UNWRAP accepts
succeeds, and KWP_UNWRAP of what it left in OUT, under the same KEK and in whatever other state, succeeds with
the plaintext and RESULT_LEN = len(P). -/
def Obligations.KwpRoundTrip : Prop :=
  ∀ (P : Params) (s u : State) (k : CipherState),
    let L := s.inLen.toNat
    let E := 8 * ((L + 7) / 8) + 8
    let t := kwpWrap P s
    FromInit P k → s.kek = some k → 1 ≤ L → E ≤ P.bufBytes → E ≤ kwpUnwrapMaxBytes → s.outLen.toNat = E →
    u.kek = some k → memRead u .inp 0 E = memRead t .out 0 E →
    u.inLen.toNat = E → u.outLen.toNat = E - 8 →
      t.err = .success ∧ (kwpUnwrap P u).err = .success ∧ (kwpUnwrap P u).resultLen.toNat = L ∧
        memRead (kwpUnwrap P u) .out 0 L = memRead s .inp 0 L

/-- R162 corner (c), R185 corner (e), for every cipher port and capacity: under the same KEK a KWP value of two
or more data semiblocks always fails KW_UNWRAP, and a KW value of two or more always fails KWP_UNWRAP. Here `t` is
where a wrap of `s` succeeded, and `u` holds what `t` has in OUT as the input of an unwrap. -/
def Obligations.CodecsRejectEachOthersValues : Prop :=
  ∀ (P : Params) (s t u : State) (k : CipherState), FromInit P k → s.kek = some k → u.kek = some k →
    t.err = .success → 24 ≤ t.resultLen.toNat →
    u.inLen = t.resultLen → u.outLen.toNat = t.resultLen.toNat - 8 →
    memRead u .inp 0 t.resultLen.toNat = memRead t .out 0 t.resultLen.toNat →
    (kwpWrap P s = t → (kwUnwrap P u).err = .integrityCheckFailed) ∧
    (kwWrap P s = t → t.resultLen.toNat ≤ kwpUnwrapMaxBytes → (kwpUnwrap P u).err = .integrityCheckFailed)

/-! ## The laws of the whole machine -/

/-- R210: the length of a result against the length of its input, for each codec command that succeeds. -/
def Obligations.LengthInvariant : Prop :=
  ∀ (i : Instr) (s t : State), exec i s = .next t → t.err = .success →
    (i = .kwWrap → t.resultLen.toNat = s.inLen.toNat + 8) ∧
    (i = .kwpWrap → t.resultLen.toNat = 8 * ((s.inLen.toNat + 7) / 8) + 8) ∧
    (i = .kwUnwrap → t.resultLen.toNat = s.inLen.toNat - 8) ∧
    (i = .kwpUnwrap → 8 * ((t.resultLen.toNat + 7) / 8) = s.inLen.toNat - 8)

/-- R211: after an unwrap, either it succeeded and the check passed on what was recovered from IN, or OUT is
untouched, or OUT[0 : OUT_LEN) is zeroised and the rest of OUT is untouched. -/
def Obligations.NoUnverifiedPlaintext : Prop :=
  ∀ (i : Instr) (s t : State), isUnwrap i = true → exec i s = .next t →
    (t.err = .success ∧ ∃ k, s.kek = some k ∧ Verified Config.params k i s) ∨
    ((t.err = .kekNotLoaded ∨ t.err = .invalidDataSize ∨ t.err = .invalidOutputSize) ∧ OutKeptFrom 0 s t) ∨
    (t.err = .integrityCheckFailed ∧
      ∀ a, readByte t .out a = if a < s.outLen.toNat then 0 else readByte s .out a)

/-- R212: after IntegrityCheckFailed every byte of OUT[0 : OUT_LEN) is zero, OUT_LEN being IN_LEN − 8, and the
bytes at and above OUT_LEN keep their values. -/
def Obligations.FailedIntegrityLeavesOnlyZeroBytes : Prop :=
  ∀ (i : Instr) (s t : State), exec i s = .next t → t.err = .integrityCheckFailed →
    t.outLen.toNat = t.inLen.toNat - 8 ∧ memRead t .out 0 t.outLen.toNat = zeros t.outLen.toNat ∧
      OutKeptFrom t.outLen.toNat s t

/-- R216, the engine's part: with valid sizes an unwrap succeeds if and only if the check passes on what is
recovered, with exactly the recovered bytes in OUT, and otherwise reports IntegrityCheckFailed. -/
def Obligations.UnwrapSucceedsExactlyWhenVerified : Prop :=
  ∀ (i : Instr) (s t : State) (k : CipherState) (E : Nat), isUnwrap i = true → s.kek = some k →
    SizesPass Config.params i s E → exec i s = .next t →
    (t.err = .success ↔ Verified Config.params k i s) ∧
    (t.err = .integrityCheckFailed ↔ ¬ Verified Config.params k i s) ∧
    (t.err = .success → memRead t .out 0 E = semiblocksBytes
      (match i with
        | .kwpUnwrap => kwpRecovered Config.params k s (s.inLen.toNat / 8 - 1)
        | _ => kwRecovered Config.params k s (s.inLen.toNat / 8 - 1)).2)

/-- R213: the outcome of a codec command (ERR, RESULT_LEN, ERRINFO and the result bytes) is a function of the
KEK slot, IN_LEN, OUT_LEN and IN[0 : IN_LEN) alone. -/
def Obligations.CodecOutcomeDependsOnItsOperandsAlone : Prop :=
  ∀ (i : Instr) (s u t v : State), isCodec i = true → u.kek = s.kek → u.inLen = s.inLen → u.outLen = s.outLen →
    memRead u .inp 0 u.inLen.toNat = memRead s .inp 0 s.inLen.toNat →
    exec i s = .next t → exec i u = .next v → outcomeOf v = outcomeOf t

/-- R220: the outcome of a codec command is the same whatever codec command ran before it. -/
def Obligations.CodecCallsAreIndependent : Prop :=
  ∀ (i j : Instr) (s t u v : State), isCodec i = true → isCodec j = true →
    exec i s = .next t → exec j s = .next u → exec j t = .next v → outcomeOf v = outcomeOf u

/-- The frame of the four codec commands (R72, R243): whatever their outcome, no register but STATUS,
RESULT_LEN and ERRINFO, no byte of IN or KEY, not the slot, and no byte of OUT at or above OUT_LEN. -/
def Obligations.CodecFrame : Prop :=
  ∀ (i : Instr) (s t : State), isCodec i = true → exec i s = .next t →
    CodecKeeps s t ∧ OutKeptFrom s.outLen.toNat s t ∧ t.done = true ∧ t.acc = 0 ∧ t.blk = 0 ∧ t.seq = none ∧
      t.ctr = none ∧ t.count = none

/-- R29, R30, R31, R70, R90, over every step: a byte of IN changes only by a host write to it or a reset; a byte
of OUT only by a host write, a reset or a CMD write; a byte of KEY only by a host write, a reset or KEKCLR. -/
def Obligations.WhoWritesTheBuffers : Prop :=
  ∀ (s t : State) (a : Nat), Memory.wf (unlistedKnown .key) s.key → step s = .next t →
    (readByte t .inp a ≠ readByte s .inp a →
      ∃ rest, (∃ b, s.pending = .writeByte .inp a b :: rest) ∨ s.pending = .reset :: rest) ∧
    (readByte t .out a ≠ readByte s .out a →
      ∃ rest, (∃ b, s.pending = .writeByte .out a b :: rest) ∨ s.pending = .reset :: rest ∨
        ∃ v i, s.pending = .writeReg 0x00 v :: rest ∧ decode v = .ok i ∧ isCodec i = true ∧ a < s.outLen.toNat) ∧
    (readByte t .key a ≠ readByte s .key a →
      ∃ rest, (∃ b, s.pending = .writeByte .key a b :: rest) ∨ s.pending = .reset :: rest ∨
        s.pending = .writeReg 0x00 0x02 :: rest)

/-- R70, R90: no access but a CMD write and a reset changes the outcome registers, the KEK slot or the
transients. -/
def Obligations.NothingElseIssuesACommand : Prop :=
  ∀ (s t : State) (a : HostAccess) (rest : List HostAccess), s.pending = a :: rest →
    (∀ v, a ≠ .writeReg 0x00 v) → a ≠ .reset → step s = .next t →
    t.status = s.status ∧ t.resultLen = s.resultLen ∧ t.errInfo = s.errInfo ∧ t.kek = s.kek ∧
      t.acc = s.acc ∧ t.blk = s.blk ∧ t.seq = s.seq ∧ t.ctr = s.ctr ∧ t.count = s.count

/-- R31, R32, R34, R247: no access other than a command lets the host learn KEY, kek_state or the transients.
Two states that differ in nothing else give it the same values back and stay alike. That the accesses and the value
handed back stand in the state is the model's own (log entry 3, DESIGN CHOICE). For a reset, that the two states hold
the same bytes in IN and OUT after it rests on the model's choice that these depend on the count of resets, the space
and the offset alone (log entry 4, DESIGN CHOICE; the two held the same bytes before it). -/
def Obligations.SecretsAreNotReadable : Prop :=
  ∀ (s u : State) (a : HostAccess) (rest : List HostAccess), AgreeButSecrets s u → s.pending = a :: rest →
    (∀ v, a ≠ .writeReg 0x00 v) →
    (∀ t, step s = .next t → ∃ v, step u = .next v ∧ AgreeButSecrets t v) ∧
    (∀ r, step s = .refused r → step u = .refused r)

/-- The machine after reset is in the invariant. -/
def Obligations.ResetHasTheInvariant : Prop := Inv Config.params State.reset

/-- Every step keeps the invariant: canonical memories inside their spaces (R60), transients clear (R34, R35),
outcome registers that agree (R23, R27, R28, R230), and a slot that `Cipher.init` filled (R128). -/
def Obligations.StepKeepsTheInvariant : Prop :=
  ∀ s t : State, Inv Config.params s → step s = .next t → Inv Config.params t

/-- R100, R101, with a script as data (log entry 16): the accesses each line stands for, at the offsets of R21 and
with the words of R92, and the values it requires back. `wrb` writes byte j of its string at offset off + j and
`rdb` reads at off + j for j below the count, in that order; `loadkek` writes the key, then its length to KEK_LEN,
then KEKLOAD to CMD; `input` writes the bytes from offset 0 of IN, then their number to IN_LEN; `expect` and
`expectb` are `rd` and `rdb` that require a value, byte for byte. -/
def Obligations.ScriptLinesExpand : Prop :=
  (∀ S off bytes j, (expandLine (.wrb S off bytes))[j]? = bytes[j]?.map fun b => HostAccess.writeByte S (off + j) b) ∧
  (∀ S off count j, (expandLine (.rdb S off count))[j]? = if j < count then some (.readByte S (off + j)) else none) ∧
  (∀ key : List Byte, expandLine (.loadkek key) = expandLine (.wrb .key 0 key) ++
    [.writeReg 0x20 (BitVec.ofNat 64 key.length), .writeReg 0x00 0x01]) ∧
  (∀ bytes : List Byte, expandLine (.input bytes) = expandLine (.wrb .inp 0 bytes) ++
    [.writeReg 0x10 (BitVec.ofNat 64 bytes.length)]) ∧
  (∀ S off bytes, expandLine (.expectb S off bytes) = expandLine (.rdb S off bytes.length) ∧
    requiredReturns (.expectb S off bytes) = bytes.map .byte) ∧
  (∀ r v, expandLine (.expect r v) = expandLine (.rd r) ∧ requiredReturns (.expect r v) = [.word v]) ∧
  (∀ r off, (r, off) ∈ [(Reg.cmd, 0x00), (.status, 0x08), (.inLen, 0x10), (.outLen, 0x18), (.kekLen, 0x20),
      (.resultLen, 0x28), (.errInfo, 0x30)] →
    expandLine (.rd r) = [.readReg off] ∧ ∀ v, expandLine (.wr r v) = [.writeReg off v]) ∧
  (∀ i v, (i, v) ∈ [(Instr.kekLoad, 0x01#64), (.kekClr, 0x02), (.kwWrap, 0x10), (.kwUnwrap, 0x11), (.kwpWrap, 0x12),
      (.kwpUnwrap, 0x13)] → expandLine (.cmd i) = [.writeReg 0x00 v]) ∧
  expandLine .reset = [.reset] ∧
  (∀ l, requiredReturns l ≠ [] → (∃ r v, l = .expect r v) ∨ ∃ S off bytes, l = .expectb S off bytes)
end

