-- ==== Sys2Proof/Laws/Bytes.lean ====
section
/-! SUPPORT. Byte strings and the numbers they stand for (R8): the two conversions undo each other, for
semiblocks and for blocks, and joining two semiblocks is undone by `high` and `low` (R9). -/

namespace Sys2Proof.Machine

open Sys2Proof

@[simp] theorem beBytes_length (k v : Nat) : (beBytes k v).length = k := by
  induction k with
  | zero => rfl
  | succ k ih => simp [beBytes, ih]

@[simp] theorem semiblockBytes_length (x : Semiblock) : (semiblockBytes x).length = 8 := beBytes_length 8 _

@[simp] theorem blockBytes_length (b : Block) : (blockBytes b).length = 16 := beBytes_length 16 _

@[simp] theorem zeros_length (k : Nat) : (zeros k).length = k := List.length_replicate

theorem intBe_foldl (bs : List Byte) (v : Nat) :
    bs.foldl (fun v b => 256 * v + b.toNat) v = v * 256 ^ bs.length + intBe bs := by
  induction bs generalizing v with
  | nil => simp [intBe]
  | cons b bs ih =>
    simp only [List.foldl_cons, List.length_cons, intBe]
    rw [ih, ih (256 * 0 + b.toNat)]
    ring

theorem intBe_cons (b : Byte) (bs : List Byte) : intBe (b :: bs) = b.toNat * 256 ^ bs.length + intBe bs := by
  rw [intBe, List.foldl_cons, intBe_foldl]; simp

theorem intBe_append (as bs : List Byte) : intBe (as ++ bs) = intBe as * 256 ^ bs.length + intBe bs := by
  rw [intBe, List.foldl_append, intBe_foldl]; rfl

theorem intBe_lt (bs : List Byte) : intBe bs < 256 ^ bs.length := by
  induction bs with
  | nil => simp [intBe]
  | cons b bs ih =>
    rw [intBe_cons, List.length_cons, pow_succ]
    have hb : b.toNat ≤ 255 := by have := b.isLt; omega
    calc b.toNat * 256 ^ bs.length + intBe bs
        < b.toNat * 256 ^ bs.length + 256 ^ bs.length := by omega
      _ = (b.toNat + 1) * 256 ^ bs.length := by ring
      _ ≤ 256 * 256 ^ bs.length := Nat.mul_le_mul_right _ (by omega)
      _ = 256 ^ bs.length * 256 := by ring

/-- `int_be` undoes the big-endian representation (R8). -/
theorem intBe_beBytes (k v : Nat) : intBe (beBytes k v) = v % 256 ^ k := by
  induction k with
  | zero => simp [beBytes, intBe, Nat.mod_one]
  | succ k ih =>
    have hmod : v % 256 ^ (k + 1) = v % 256 ^ k + 256 ^ k * (v / 256 ^ k % 256) := by rw [Nat.pow_succ, Nat.mod_mul]
    rw [beBytes, intBe_cons, beBytes_length, ih, BitVec.toNat_ofNat, hmod, Nat.add_comm, Nat.mul_comm]

theorem beBytes_add (k v w : Nat) : beBytes k (w * 256 ^ k + v) = beBytes k v := by
  induction k generalizing v w with
  | zero => rfl
  | succ k ih =>
    have h1 : w * 256 ^ (k + 1) + v = (w * 256) * 256 ^ k + v := by ring
    rw [beBytes, beBytes, h1, ih]
    congr 1
    apply BitVec.eq_of_toNat_eq
    rw [BitVec.toNat_ofNat, BitVec.toNat_ofNat, Nat.add_comm, Nat.add_mul_div_right _ _ (by positivity)]
    omega

/-- The big-endian representation undoes `int_be` (R8). -/
theorem beBytes_intBe (bs : List Byte) : beBytes bs.length (intBe bs) = bs := by
  induction bs with
  | nil => rfl
  | cons b bs ih =>
    rw [List.length_cons, intBe_cons, beBytes, beBytes_add, ih, Nat.add_comm,
      Nat.add_mul_div_right _ _ (by positivity), Nat.div_eq_of_lt (intBe_lt bs), Nat.zero_add]
    simp

/-- The bytes of a number that two halves make are the bytes of the halves. -/
theorem beBytes_split (j k v w : Nat) (hv : v < 256 ^ k) : beBytes (j + k) (w * 256 ^ k + v) = beBytes j w ++ beBytes k v := by
  induction j with
  | zero => rw [Nat.zero_add, beBytes_add]; rfl
  | succ j ih =>
    rw [Nat.add_right_comm, beBytes, ih, beBytes, List.cons_append, pow_add, Nat.mul_comm (256 ^ j),
      ← Nat.div_div_eq_div_mul, Nat.add_comm (w * 256 ^ k), Nat.add_mul_div_right _ _ (by positivity),
      Nat.div_eq_of_lt hv, Nat.zero_add]

@[simp] theorem semiblockOf_semiblockBytes (x : Semiblock) : semiblockOf (semiblockBytes x) = x := by
  rw [semiblockOf, semiblockBytes, intBe_beBytes]
  apply BitVec.eq_of_toNat_eq
  have := x.isLt
  rw [BitVec.toNat_ofNat]
  omega

theorem semiblockBytes_semiblockOf (bs : List Byte) (h : bs.length = 8) : semiblockBytes (semiblockOf bs) = bs := by
  have hlt := intBe_lt bs
  rw [h] at hlt
  rw [semiblockBytes, semiblockOf, BitVec.toNat_ofNat, Nat.mod_eq_of_lt (by omega), ← h, beBytes_intBe]

@[simp] theorem blockOf_blockBytes (b : Block) : blockOf (blockBytes b) = b := by
  rw [blockOf, blockBytes, intBe_beBytes]
  apply BitVec.eq_of_toNat_eq
  have := b.isLt
  rw [BitVec.toNat_ofNat]
  omega

@[simp] theorem high_joinBlock (a r : Semiblock) : high (joinBlock a r) = a := by
  apply BitVec.eq_of_toNat_eq
  have := a.isLt
  have := r.isLt
  simp only [high, joinBlock, BitVec.extractLsb'_toNat, BitVec.toNat_append, Nat.shiftRight_eq_div_pow]
  rw [Nat.shiftLeft_eq, Nat.mul_comm, ← Nat.two_pow_add_eq_or_of_lt (by omega)]
  omega

@[simp] theorem low_joinBlock (a r : Semiblock) : low (joinBlock a r) = r := by
  apply BitVec.eq_of_toNat_eq
  have := a.isLt
  have := r.isLt
  simp only [low, joinBlock, BitVec.extractLsb'_toNat, BitVec.toNat_append, Nat.shiftRight_eq_div_pow]
  rw [Nat.shiftLeft_eq, Nat.mul_comm, ← Nat.two_pow_add_eq_or_of_lt (by omega)]
  omega

theorem joinBlock_toNat (a r : Semiblock) : (joinBlock a r).toNat = a.toNat * 2 ^ 64 + r.toNat := by
  have := r.isLt
  rw [joinBlock, BitVec.toNat_append, Nat.shiftLeft_eq, Nat.mul_comm, ← Nat.two_pow_add_eq_or_of_lt (by omega)]

/-- A block is its two halves (R9). -/
@[simp] theorem joinBlock_high_low (b : Block) : joinBlock (high b) (low b) = b := by
  apply BitVec.eq_of_toNat_eq
  have := b.isLt
  rw [joinBlock_toNat]
  simp only [high, low, BitVec.extractLsb'_toNat, Nat.shiftRight_eq_div_pow]
  omega

/-- The bytes of a block are the bytes of its first and of its second half (R9). -/
theorem blockBytes_eq (b : Block) : blockBytes b = semiblockBytes (high b) ++ semiblockBytes (low b) := by
  have h := joinBlock_toNat (high b) (low b)
  rw [joinBlock_high_low] at h
  have hl : (low b).toNat < 256 ^ 8 := by have := (low b).isLt; omega
  rw [blockBytes, h, show (2 : Nat) ^ 64 = 256 ^ 8 by norm_num, show (16 : Nat) = 8 + 8 by rfl, beBytes_split _ _ _ _ hl]
  rfl

theorem blockOf_append (as bs : List Byte) (hb : bs.length = 8) :
    blockOf (as ++ bs) = joinBlock (semiblockOf as) (semiblockOf bs) := by
  have h2 := intBe_lt bs
  rw [hb] at h2
  apply BitVec.eq_of_toNat_eq
  rw [joinBlock_toNat, blockOf, semiblockOf, semiblockOf, BitVec.toNat_ofNat, BitVec.toNat_ofNat, BitVec.toNat_ofNat,
    intBe_append, hb]
  omega

end Sys2Proof.Machine
end

