-- ==== Sys2Proof/Laws/State.lean ====
section
/-! SUPPORT. What each update of the state does to each field, one lemma each, so that no proof unfolds a
record update. -/

namespace Sys2Proof.Machine

open Sys2Proof

/-! `State.setOutcome` -/

@[simp] theorem State.setOutcome_err (s : State) (e : ErrCode) (r i : Word) : (s.setOutcome e r i).err = e := rfl
@[simp] theorem State.setOutcome_done (s : State) (e : ErrCode) (r i : Word) : (s.setOutcome e r i).done = true := rfl
@[simp] theorem State.setOutcome_inLen (s : State) (e : ErrCode) (r i : Word) : (s.setOutcome e r i).inLen = s.inLen := rfl
@[simp] theorem State.setOutcome_outLen (s : State) (e : ErrCode) (r i : Word) : (s.setOutcome e r i).outLen = s.outLen := rfl
@[simp] theorem State.setOutcome_kekLen (s : State) (e : ErrCode) (r i : Word) : (s.setOutcome e r i).kekLen = s.kekLen := rfl
@[simp] theorem State.setOutcome_resultLen (s : State) (e : ErrCode) (r i : Word) : (s.setOutcome e r i).resultLen = r := rfl
@[simp] theorem State.setOutcome_errInfo (s : State) (e : ErrCode) (r i : Word) : (s.setOutcome e r i).errInfo = i := rfl
@[simp] theorem State.setOutcome_inp (s : State) (e : ErrCode) (r i : Word) : (s.setOutcome e r i).inp = s.inp := rfl
@[simp] theorem State.setOutcome_out (s : State) (e : ErrCode) (r i : Word) : (s.setOutcome e r i).out = s.out := rfl
@[simp] theorem State.setOutcome_key (s : State) (e : ErrCode) (r i : Word) : (s.setOutcome e r i).key = s.key := rfl
@[simp] theorem State.setOutcome_kek (s : State) (e : ErrCode) (r i : Word) : (s.setOutcome e r i).kek = s.kek := rfl
@[simp] theorem State.setOutcome_acc (s : State) (e : ErrCode) (r i : Word) : (s.setOutcome e r i).acc = s.acc := rfl
@[simp] theorem State.setOutcome_blk (s : State) (e : ErrCode) (r i : Word) : (s.setOutcome e r i).blk = s.blk := rfl
@[simp] theorem State.setOutcome_seq (s : State) (e : ErrCode) (r i : Word) : (s.setOutcome e r i).seq = s.seq := rfl
@[simp] theorem State.setOutcome_ctr (s : State) (e : ErrCode) (r i : Word) : (s.setOutcome e r i).ctr = s.ctr := rfl
@[simp] theorem State.setOutcome_count (s : State) (e : ErrCode) (r i : Word) : (s.setOutcome e r i).count = s.count := rfl
@[simp] theorem State.setOutcome_pending (s : State) (e : ErrCode) (r i : Word) : (s.setOutcome e r i).pending = s.pending := rfl
@[simp] theorem State.setOutcome_returned (s : State) (e : ErrCode) (r i : Word) : (s.setOutcome e r i).returned = s.returned := rfl
@[simp] theorem State.setOutcome_resets (s : State) (e : ErrCode) (r i : Word) : (s.setOutcome e r i).resets = s.resets := rfl

/-! `State.setKek` -/

@[simp] theorem State.setKek_err (s : State) (k : Option CipherState) : (s.setKek k).err = s.err := rfl
@[simp] theorem State.setKek_done (s : State) (k : Option CipherState) : (s.setKek k).done = s.done := rfl
@[simp] theorem State.setKek_inLen (s : State) (k : Option CipherState) : (s.setKek k).inLen = s.inLen := rfl
@[simp] theorem State.setKek_outLen (s : State) (k : Option CipherState) : (s.setKek k).outLen = s.outLen := rfl
@[simp] theorem State.setKek_kekLen (s : State) (k : Option CipherState) : (s.setKek k).kekLen = s.kekLen := rfl
@[simp] theorem State.setKek_resultLen (s : State) (k : Option CipherState) : (s.setKek k).resultLen = s.resultLen := rfl
@[simp] theorem State.setKek_errInfo (s : State) (k : Option CipherState) : (s.setKek k).errInfo = s.errInfo := rfl
@[simp] theorem State.setKek_inp (s : State) (k : Option CipherState) : (s.setKek k).inp = s.inp := rfl
@[simp] theorem State.setKek_out (s : State) (k : Option CipherState) : (s.setKek k).out = s.out := rfl
@[simp] theorem State.setKek_key (s : State) (k : Option CipherState) : (s.setKek k).key = s.key := rfl
@[simp] theorem State.setKek_kek (s : State) (k : Option CipherState) : (s.setKek k).kek = k := rfl
@[simp] theorem State.setKek_acc (s : State) (k : Option CipherState) : (s.setKek k).acc = s.acc := rfl
@[simp] theorem State.setKek_blk (s : State) (k : Option CipherState) : (s.setKek k).blk = s.blk := rfl
@[simp] theorem State.setKek_seq (s : State) (k : Option CipherState) : (s.setKek k).seq = s.seq := rfl
@[simp] theorem State.setKek_ctr (s : State) (k : Option CipherState) : (s.setKek k).ctr = s.ctr := rfl
@[simp] theorem State.setKek_count (s : State) (k : Option CipherState) : (s.setKek k).count = s.count := rfl
@[simp] theorem State.setKek_pending (s : State) (k : Option CipherState) : (s.setKek k).pending = s.pending := rfl
@[simp] theorem State.setKek_returned (s : State) (k : Option CipherState) : (s.setKek k).returned = s.returned := rfl
@[simp] theorem State.setKek_resets (s : State) (k : Option CipherState) : (s.setKek k).resets = s.resets := rfl

/-! `State.setAcc` -/

@[simp] theorem State.setAcc_err (s : State) (a : Semiblock) : (s.setAcc a).err = s.err := rfl
@[simp] theorem State.setAcc_done (s : State) (a : Semiblock) : (s.setAcc a).done = s.done := rfl
@[simp] theorem State.setAcc_inLen (s : State) (a : Semiblock) : (s.setAcc a).inLen = s.inLen := rfl
@[simp] theorem State.setAcc_outLen (s : State) (a : Semiblock) : (s.setAcc a).outLen = s.outLen := rfl
@[simp] theorem State.setAcc_kekLen (s : State) (a : Semiblock) : (s.setAcc a).kekLen = s.kekLen := rfl
@[simp] theorem State.setAcc_resultLen (s : State) (a : Semiblock) : (s.setAcc a).resultLen = s.resultLen := rfl
@[simp] theorem State.setAcc_errInfo (s : State) (a : Semiblock) : (s.setAcc a).errInfo = s.errInfo := rfl
@[simp] theorem State.setAcc_inp (s : State) (a : Semiblock) : (s.setAcc a).inp = s.inp := rfl
@[simp] theorem State.setAcc_out (s : State) (a : Semiblock) : (s.setAcc a).out = s.out := rfl
@[simp] theorem State.setAcc_key (s : State) (a : Semiblock) : (s.setAcc a).key = s.key := rfl
@[simp] theorem State.setAcc_kek (s : State) (a : Semiblock) : (s.setAcc a).kek = s.kek := rfl
@[simp] theorem State.setAcc_acc (s : State) (a : Semiblock) : (s.setAcc a).acc = a := rfl
@[simp] theorem State.setAcc_blk (s : State) (a : Semiblock) : (s.setAcc a).blk = s.blk := rfl
@[simp] theorem State.setAcc_seq (s : State) (a : Semiblock) : (s.setAcc a).seq = s.seq := rfl
@[simp] theorem State.setAcc_ctr (s : State) (a : Semiblock) : (s.setAcc a).ctr = s.ctr := rfl
@[simp] theorem State.setAcc_count (s : State) (a : Semiblock) : (s.setAcc a).count = s.count := rfl
@[simp] theorem State.setAcc_pending (s : State) (a : Semiblock) : (s.setAcc a).pending = s.pending := rfl
@[simp] theorem State.setAcc_returned (s : State) (a : Semiblock) : (s.setAcc a).returned = s.returned := rfl
@[simp] theorem State.setAcc_resets (s : State) (a : Semiblock) : (s.setAcc a).resets = s.resets := rfl

/-! `State.setBlk` -/

@[simp] theorem State.setBlk_err (s : State) (b : Block) : (s.setBlk b).err = s.err := rfl
@[simp] theorem State.setBlk_done (s : State) (b : Block) : (s.setBlk b).done = s.done := rfl
@[simp] theorem State.setBlk_inLen (s : State) (b : Block) : (s.setBlk b).inLen = s.inLen := rfl
@[simp] theorem State.setBlk_outLen (s : State) (b : Block) : (s.setBlk b).outLen = s.outLen := rfl
@[simp] theorem State.setBlk_kekLen (s : State) (b : Block) : (s.setBlk b).kekLen = s.kekLen := rfl
@[simp] theorem State.setBlk_resultLen (s : State) (b : Block) : (s.setBlk b).resultLen = s.resultLen := rfl
@[simp] theorem State.setBlk_errInfo (s : State) (b : Block) : (s.setBlk b).errInfo = s.errInfo := rfl
@[simp] theorem State.setBlk_inp (s : State) (b : Block) : (s.setBlk b).inp = s.inp := rfl
@[simp] theorem State.setBlk_out (s : State) (b : Block) : (s.setBlk b).out = s.out := rfl
@[simp] theorem State.setBlk_key (s : State) (b : Block) : (s.setBlk b).key = s.key := rfl
@[simp] theorem State.setBlk_kek (s : State) (b : Block) : (s.setBlk b).kek = s.kek := rfl
@[simp] theorem State.setBlk_acc (s : State) (b : Block) : (s.setBlk b).acc = s.acc := rfl
@[simp] theorem State.setBlk_blk (s : State) (b : Block) : (s.setBlk b).blk = b := rfl
@[simp] theorem State.setBlk_seq (s : State) (b : Block) : (s.setBlk b).seq = s.seq := rfl
@[simp] theorem State.setBlk_ctr (s : State) (b : Block) : (s.setBlk b).ctr = s.ctr := rfl
@[simp] theorem State.setBlk_count (s : State) (b : Block) : (s.setBlk b).count = s.count := rfl
@[simp] theorem State.setBlk_pending (s : State) (b : Block) : (s.setBlk b).pending = s.pending := rfl
@[simp] theorem State.setBlk_returned (s : State) (b : Block) : (s.setBlk b).returned = s.returned := rfl
@[simp] theorem State.setBlk_resets (s : State) (b : Block) : (s.setBlk b).resets = s.resets := rfl

/-! `State.setSeq` -/

@[simp] theorem State.setSeq_err (s : State) (p : Option (Nat × Nat)) : (s.setSeq p).err = s.err := rfl
@[simp] theorem State.setSeq_done (s : State) (p : Option (Nat × Nat)) : (s.setSeq p).done = s.done := rfl
@[simp] theorem State.setSeq_inLen (s : State) (p : Option (Nat × Nat)) : (s.setSeq p).inLen = s.inLen := rfl
@[simp] theorem State.setSeq_outLen (s : State) (p : Option (Nat × Nat)) : (s.setSeq p).outLen = s.outLen := rfl
@[simp] theorem State.setSeq_kekLen (s : State) (p : Option (Nat × Nat)) : (s.setSeq p).kekLen = s.kekLen := rfl
@[simp] theorem State.setSeq_resultLen (s : State) (p : Option (Nat × Nat)) : (s.setSeq p).resultLen = s.resultLen := rfl
@[simp] theorem State.setSeq_errInfo (s : State) (p : Option (Nat × Nat)) : (s.setSeq p).errInfo = s.errInfo := rfl
@[simp] theorem State.setSeq_inp (s : State) (p : Option (Nat × Nat)) : (s.setSeq p).inp = s.inp := rfl
@[simp] theorem State.setSeq_out (s : State) (p : Option (Nat × Nat)) : (s.setSeq p).out = s.out := rfl
@[simp] theorem State.setSeq_key (s : State) (p : Option (Nat × Nat)) : (s.setSeq p).key = s.key := rfl
@[simp] theorem State.setSeq_kek (s : State) (p : Option (Nat × Nat)) : (s.setSeq p).kek = s.kek := rfl
@[simp] theorem State.setSeq_acc (s : State) (p : Option (Nat × Nat)) : (s.setSeq p).acc = s.acc := rfl
@[simp] theorem State.setSeq_blk (s : State) (p : Option (Nat × Nat)) : (s.setSeq p).blk = s.blk := rfl
@[simp] theorem State.setSeq_seq (s : State) (p : Option (Nat × Nat)) : (s.setSeq p).seq = p := rfl
@[simp] theorem State.setSeq_ctr (s : State) (p : Option (Nat × Nat)) : (s.setSeq p).ctr = s.ctr := rfl
@[simp] theorem State.setSeq_count (s : State) (p : Option (Nat × Nat)) : (s.setSeq p).count = s.count := rfl
@[simp] theorem State.setSeq_pending (s : State) (p : Option (Nat × Nat)) : (s.setSeq p).pending = s.pending := rfl
@[simp] theorem State.setSeq_returned (s : State) (p : Option (Nat × Nat)) : (s.setSeq p).returned = s.returned := rfl
@[simp] theorem State.setSeq_resets (s : State) (p : Option (Nat × Nat)) : (s.setSeq p).resets = s.resets := rfl

/-! `State.setCtr` -/

@[simp] theorem State.setCtr_err (s : State) (t : Option Nat) : (s.setCtr t).err = s.err := rfl
@[simp] theorem State.setCtr_done (s : State) (t : Option Nat) : (s.setCtr t).done = s.done := rfl
@[simp] theorem State.setCtr_inLen (s : State) (t : Option Nat) : (s.setCtr t).inLen = s.inLen := rfl
@[simp] theorem State.setCtr_outLen (s : State) (t : Option Nat) : (s.setCtr t).outLen = s.outLen := rfl
@[simp] theorem State.setCtr_kekLen (s : State) (t : Option Nat) : (s.setCtr t).kekLen = s.kekLen := rfl
@[simp] theorem State.setCtr_resultLen (s : State) (t : Option Nat) : (s.setCtr t).resultLen = s.resultLen := rfl
@[simp] theorem State.setCtr_errInfo (s : State) (t : Option Nat) : (s.setCtr t).errInfo = s.errInfo := rfl
@[simp] theorem State.setCtr_inp (s : State) (t : Option Nat) : (s.setCtr t).inp = s.inp := rfl
@[simp] theorem State.setCtr_out (s : State) (t : Option Nat) : (s.setCtr t).out = s.out := rfl
@[simp] theorem State.setCtr_key (s : State) (t : Option Nat) : (s.setCtr t).key = s.key := rfl
@[simp] theorem State.setCtr_kek (s : State) (t : Option Nat) : (s.setCtr t).kek = s.kek := rfl
@[simp] theorem State.setCtr_acc (s : State) (t : Option Nat) : (s.setCtr t).acc = s.acc := rfl
@[simp] theorem State.setCtr_blk (s : State) (t : Option Nat) : (s.setCtr t).blk = s.blk := rfl
@[simp] theorem State.setCtr_seq (s : State) (t : Option Nat) : (s.setCtr t).seq = s.seq := rfl
@[simp] theorem State.setCtr_ctr (s : State) (t : Option Nat) : (s.setCtr t).ctr = t := rfl
@[simp] theorem State.setCtr_count (s : State) (t : Option Nat) : (s.setCtr t).count = s.count := rfl
@[simp] theorem State.setCtr_pending (s : State) (t : Option Nat) : (s.setCtr t).pending = s.pending := rfl
@[simp] theorem State.setCtr_returned (s : State) (t : Option Nat) : (s.setCtr t).returned = s.returned := rfl
@[simp] theorem State.setCtr_resets (s : State) (t : Option Nat) : (s.setCtr t).resets = s.resets := rfl

/-! `State.setCount` -/

@[simp] theorem State.setCount_err (s : State) (n : Option Nat) : (s.setCount n).err = s.err := rfl
@[simp] theorem State.setCount_done (s : State) (n : Option Nat) : (s.setCount n).done = s.done := rfl
@[simp] theorem State.setCount_inLen (s : State) (n : Option Nat) : (s.setCount n).inLen = s.inLen := rfl
@[simp] theorem State.setCount_outLen (s : State) (n : Option Nat) : (s.setCount n).outLen = s.outLen := rfl
@[simp] theorem State.setCount_kekLen (s : State) (n : Option Nat) : (s.setCount n).kekLen = s.kekLen := rfl
@[simp] theorem State.setCount_resultLen (s : State) (n : Option Nat) : (s.setCount n).resultLen = s.resultLen := rfl
@[simp] theorem State.setCount_errInfo (s : State) (n : Option Nat) : (s.setCount n).errInfo = s.errInfo := rfl
@[simp] theorem State.setCount_inp (s : State) (n : Option Nat) : (s.setCount n).inp = s.inp := rfl
@[simp] theorem State.setCount_out (s : State) (n : Option Nat) : (s.setCount n).out = s.out := rfl
@[simp] theorem State.setCount_key (s : State) (n : Option Nat) : (s.setCount n).key = s.key := rfl
@[simp] theorem State.setCount_kek (s : State) (n : Option Nat) : (s.setCount n).kek = s.kek := rfl
@[simp] theorem State.setCount_acc (s : State) (n : Option Nat) : (s.setCount n).acc = s.acc := rfl
@[simp] theorem State.setCount_blk (s : State) (n : Option Nat) : (s.setCount n).blk = s.blk := rfl
@[simp] theorem State.setCount_seq (s : State) (n : Option Nat) : (s.setCount n).seq = s.seq := rfl
@[simp] theorem State.setCount_ctr (s : State) (n : Option Nat) : (s.setCount n).ctr = s.ctr := rfl
@[simp] theorem State.setCount_count (s : State) (n : Option Nat) : (s.setCount n).count = n := rfl
@[simp] theorem State.setCount_pending (s : State) (n : Option Nat) : (s.setCount n).pending = s.pending := rfl
@[simp] theorem State.setCount_returned (s : State) (n : Option Nat) : (s.setCount n).returned = s.returned := rfl
@[simp] theorem State.setCount_resets (s : State) (n : Option Nat) : (s.setCount n).resets = s.resets := rfl

/-! `State.clearTransients` -/

@[simp] theorem State.clearTransients_err (s : State) : (s.clearTransients).err = s.err := rfl
@[simp] theorem State.clearTransients_done (s : State) : (s.clearTransients).done = s.done := rfl
@[simp] theorem State.clearTransients_inLen (s : State) : (s.clearTransients).inLen = s.inLen := rfl
@[simp] theorem State.clearTransients_outLen (s : State) : (s.clearTransients).outLen = s.outLen := rfl
@[simp] theorem State.clearTransients_kekLen (s : State) : (s.clearTransients).kekLen = s.kekLen := rfl
@[simp] theorem State.clearTransients_resultLen (s : State) : (s.clearTransients).resultLen = s.resultLen := rfl
@[simp] theorem State.clearTransients_errInfo (s : State) : (s.clearTransients).errInfo = s.errInfo := rfl
@[simp] theorem State.clearTransients_inp (s : State) : (s.clearTransients).inp = s.inp := rfl
@[simp] theorem State.clearTransients_out (s : State) : (s.clearTransients).out = s.out := rfl
@[simp] theorem State.clearTransients_key (s : State) : (s.clearTransients).key = s.key := rfl
@[simp] theorem State.clearTransients_kek (s : State) : (s.clearTransients).kek = s.kek := rfl
@[simp] theorem State.clearTransients_acc (s : State) : (s.clearTransients).acc = 0 := rfl
@[simp] theorem State.clearTransients_blk (s : State) : (s.clearTransients).blk = 0 := rfl
@[simp] theorem State.clearTransients_seq (s : State) : (s.clearTransients).seq = none := rfl
@[simp] theorem State.clearTransients_ctr (s : State) : (s.clearTransients).ctr = none := rfl
@[simp] theorem State.clearTransients_count (s : State) : (s.clearTransients).count = none := rfl
@[simp] theorem State.clearTransients_pending (s : State) : (s.clearTransients).pending = s.pending := rfl
@[simp] theorem State.clearTransients_returned (s : State) : (s.clearTransients).returned = s.returned := rfl
@[simp] theorem State.clearTransients_resets (s : State) : (s.clearTransients).resets = s.resets := rfl

/-! `State.setReturned` -/

@[simp] theorem State.setReturned_err (s : State) (r : HostReturn) : (s.setReturned r).err = s.err := rfl
@[simp] theorem State.setReturned_done (s : State) (r : HostReturn) : (s.setReturned r).done = s.done := rfl
@[simp] theorem State.setReturned_inLen (s : State) (r : HostReturn) : (s.setReturned r).inLen = s.inLen := rfl
@[simp] theorem State.setReturned_outLen (s : State) (r : HostReturn) : (s.setReturned r).outLen = s.outLen := rfl
@[simp] theorem State.setReturned_kekLen (s : State) (r : HostReturn) : (s.setReturned r).kekLen = s.kekLen := rfl
@[simp] theorem State.setReturned_resultLen (s : State) (r : HostReturn) : (s.setReturned r).resultLen = s.resultLen := rfl
@[simp] theorem State.setReturned_errInfo (s : State) (r : HostReturn) : (s.setReturned r).errInfo = s.errInfo := rfl
@[simp] theorem State.setReturned_inp (s : State) (r : HostReturn) : (s.setReturned r).inp = s.inp := rfl
@[simp] theorem State.setReturned_out (s : State) (r : HostReturn) : (s.setReturned r).out = s.out := rfl
@[simp] theorem State.setReturned_key (s : State) (r : HostReturn) : (s.setReturned r).key = s.key := rfl
@[simp] theorem State.setReturned_kek (s : State) (r : HostReturn) : (s.setReturned r).kek = s.kek := rfl
@[simp] theorem State.setReturned_acc (s : State) (r : HostReturn) : (s.setReturned r).acc = s.acc := rfl
@[simp] theorem State.setReturned_blk (s : State) (r : HostReturn) : (s.setReturned r).blk = s.blk := rfl
@[simp] theorem State.setReturned_seq (s : State) (r : HostReturn) : (s.setReturned r).seq = s.seq := rfl
@[simp] theorem State.setReturned_ctr (s : State) (r : HostReturn) : (s.setReturned r).ctr = s.ctr := rfl
@[simp] theorem State.setReturned_count (s : State) (r : HostReturn) : (s.setReturned r).count = s.count := rfl
@[simp] theorem State.setReturned_pending (s : State) (r : HostReturn) : (s.setReturned r).pending = s.pending := rfl
@[simp] theorem State.setReturned_returned (s : State) (r : HostReturn) : (s.setReturned r).returned = r := rfl
@[simp] theorem State.setReturned_resets (s : State) (r : HostReturn) : (s.setReturned r).resets = s.resets := rfl

/-! `State.takeAccess` -/

@[simp] theorem State.takeAccess_err (s : State) (rest : List HostAccess) : (s.takeAccess rest).err = s.err := rfl
@[simp] theorem State.takeAccess_done (s : State) (rest : List HostAccess) : (s.takeAccess rest).done = s.done := rfl
@[simp] theorem State.takeAccess_inLen (s : State) (rest : List HostAccess) : (s.takeAccess rest).inLen = s.inLen := rfl
@[simp] theorem State.takeAccess_outLen (s : State) (rest : List HostAccess) : (s.takeAccess rest).outLen = s.outLen := rfl
@[simp] theorem State.takeAccess_kekLen (s : State) (rest : List HostAccess) : (s.takeAccess rest).kekLen = s.kekLen := rfl
@[simp] theorem State.takeAccess_resultLen (s : State) (rest : List HostAccess) : (s.takeAccess rest).resultLen = s.resultLen := rfl
@[simp] theorem State.takeAccess_errInfo (s : State) (rest : List HostAccess) : (s.takeAccess rest).errInfo = s.errInfo := rfl
@[simp] theorem State.takeAccess_inp (s : State) (rest : List HostAccess) : (s.takeAccess rest).inp = s.inp := rfl
@[simp] theorem State.takeAccess_out (s : State) (rest : List HostAccess) : (s.takeAccess rest).out = s.out := rfl
@[simp] theorem State.takeAccess_key (s : State) (rest : List HostAccess) : (s.takeAccess rest).key = s.key := rfl
@[simp] theorem State.takeAccess_kek (s : State) (rest : List HostAccess) : (s.takeAccess rest).kek = s.kek := rfl
@[simp] theorem State.takeAccess_acc (s : State) (rest : List HostAccess) : (s.takeAccess rest).acc = s.acc := rfl
@[simp] theorem State.takeAccess_blk (s : State) (rest : List HostAccess) : (s.takeAccess rest).blk = s.blk := rfl
@[simp] theorem State.takeAccess_seq (s : State) (rest : List HostAccess) : (s.takeAccess rest).seq = s.seq := rfl
@[simp] theorem State.takeAccess_ctr (s : State) (rest : List HostAccess) : (s.takeAccess rest).ctr = s.ctr := rfl
@[simp] theorem State.takeAccess_count (s : State) (rest : List HostAccess) : (s.takeAccess rest).count = s.count := rfl
@[simp] theorem State.takeAccess_pending (s : State) (rest : List HostAccess) : (s.takeAccess rest).pending = rest := rfl
@[simp] theorem State.takeAccess_returned (s : State) (rest : List HostAccess) : (s.takeAccess rest).returned = .nothing := rfl
@[simp] theorem State.takeAccess_resets (s : State) (rest : List HostAccess) : (s.takeAccess rest).resets = s.resets := rfl

/-! `raise` -/

@[simp] theorem raise_err (s : State) (e : EngineError) : (raise e s).err = e.toCode := rfl
@[simp] theorem raise_done (s : State) (e : EngineError) : (raise e s).done = true := rfl
@[simp] theorem raise_inLen (s : State) (e : EngineError) : (raise e s).inLen = s.inLen := rfl
@[simp] theorem raise_outLen (s : State) (e : EngineError) : (raise e s).outLen = s.outLen := rfl
@[simp] theorem raise_kekLen (s : State) (e : EngineError) : (raise e s).kekLen = s.kekLen := rfl
@[simp] theorem raise_resultLen (s : State) (e : EngineError) : (raise e s).resultLen = 0 := rfl
@[simp] theorem raise_errInfo (s : State) (e : EngineError) : (raise e s).errInfo = e.info := rfl
@[simp] theorem raise_inp (s : State) (e : EngineError) : (raise e s).inp = s.inp := rfl
@[simp] theorem raise_out (s : State) (e : EngineError) : (raise e s).out = s.out := rfl
@[simp] theorem raise_key (s : State) (e : EngineError) : (raise e s).key = s.key := rfl
@[simp] theorem raise_kek (s : State) (e : EngineError) : (raise e s).kek = s.kek := rfl
@[simp] theorem raise_acc (s : State) (e : EngineError) : (raise e s).acc = 0 := rfl
@[simp] theorem raise_blk (s : State) (e : EngineError) : (raise e s).blk = 0 := rfl
@[simp] theorem raise_seq (s : State) (e : EngineError) : (raise e s).seq = none := rfl
@[simp] theorem raise_ctr (s : State) (e : EngineError) : (raise e s).ctr = none := rfl
@[simp] theorem raise_count (s : State) (e : EngineError) : (raise e s).count = none := rfl
@[simp] theorem raise_pending (s : State) (e : EngineError) : (raise e s).pending = s.pending := rfl
@[simp] theorem raise_returned (s : State) (e : EngineError) : (raise e s).returned = s.returned := rfl
@[simp] theorem raise_resets (s : State) (e : EngineError) : (raise e s).resets = s.resets := rfl

/-! `complete` -/

@[simp] theorem complete_err (s : State) (len : Nat) : (complete len s).err = .success := rfl
@[simp] theorem complete_done (s : State) (len : Nat) : (complete len s).done = true := rfl
@[simp] theorem complete_inLen (s : State) (len : Nat) : (complete len s).inLen = s.inLen := rfl
@[simp] theorem complete_outLen (s : State) (len : Nat) : (complete len s).outLen = s.outLen := rfl
@[simp] theorem complete_kekLen (s : State) (len : Nat) : (complete len s).kekLen = s.kekLen := rfl
@[simp] theorem complete_resultLen (s : State) (len : Nat) : (complete len s).resultLen = BitVec.ofNat 64 len := rfl
@[simp] theorem complete_errInfo (s : State) (len : Nat) : (complete len s).errInfo = 0 := rfl
@[simp] theorem complete_inp (s : State) (len : Nat) : (complete len s).inp = s.inp := rfl
@[simp] theorem complete_out (s : State) (len : Nat) : (complete len s).out = s.out := rfl
@[simp] theorem complete_key (s : State) (len : Nat) : (complete len s).key = s.key := rfl
@[simp] theorem complete_kek (s : State) (len : Nat) : (complete len s).kek = s.kek := rfl
@[simp] theorem complete_acc (s : State) (len : Nat) : (complete len s).acc = 0 := rfl
@[simp] theorem complete_blk (s : State) (len : Nat) : (complete len s).blk = 0 := rfl
@[simp] theorem complete_seq (s : State) (len : Nat) : (complete len s).seq = none := rfl
@[simp] theorem complete_ctr (s : State) (len : Nat) : (complete len s).ctr = none := rfl
@[simp] theorem complete_count (s : State) (len : Nat) : (complete len s).count = none := rfl
@[simp] theorem complete_pending (s : State) (len : Nat) : (complete len s).pending = s.pending := rfl
@[simp] theorem complete_returned (s : State) (len : Nat) : (complete len s).returned = s.returned := rfl
@[simp] theorem complete_resets (s : State) (len : Nat) : (complete len s).resets = s.resets := rfl

/-! `resetAccess` -/

@[simp] theorem resetAccess_err (s : State) : (resetAccess s).err = .success := rfl
@[simp] theorem resetAccess_done (s : State) : (resetAccess s).done = false := rfl
@[simp] theorem resetAccess_inLen (s : State) : (resetAccess s).inLen = 0 := rfl
@[simp] theorem resetAccess_outLen (s : State) : (resetAccess s).outLen = 0 := rfl
@[simp] theorem resetAccess_kekLen (s : State) : (resetAccess s).kekLen = 0 := rfl
@[simp] theorem resetAccess_resultLen (s : State) : (resetAccess s).resultLen = 0 := rfl
@[simp] theorem resetAccess_errInfo (s : State) : (resetAccess s).errInfo = 0 := rfl
@[simp] theorem resetAccess_inp (s : State) : (resetAccess s).inp = [] := rfl
@[simp] theorem resetAccess_out (s : State) : (resetAccess s).out = [] := rfl
@[simp] theorem resetAccess_key (s : State) : (resetAccess s).key = [] := rfl
@[simp] theorem resetAccess_kek (s : State) : (resetAccess s).kek = none := rfl
@[simp] theorem resetAccess_acc (s : State) : (resetAccess s).acc = 0 := rfl
@[simp] theorem resetAccess_blk (s : State) : (resetAccess s).blk = 0 := rfl
@[simp] theorem resetAccess_seq (s : State) : (resetAccess s).seq = none := rfl
@[simp] theorem resetAccess_ctr (s : State) : (resetAccess s).ctr = none := rfl
@[simp] theorem resetAccess_count (s : State) : (resetAccess s).count = none := rfl
@[simp] theorem resetAccess_pending (s : State) : (resetAccess s).pending = s.pending := rfl
@[simp] theorem resetAccess_returned (s : State) : (resetAccess s).returned = .nothing := rfl
@[simp] theorem resetAccess_resets (s : State) : (resetAccess s).resets = s.resets + 1 := rfl

/-! `State.setMem`, `writeByte` and `memWrite` -/

@[simp] theorem State.setMem_err (s : State) (S : Space) (m : Memory) : (s.setMem S m).err = s.err := by cases S <;> rfl
@[simp] theorem State.setMem_done (s : State) (S : Space) (m : Memory) : (s.setMem S m).done = s.done := by cases S <;> rfl
@[simp] theorem State.setMem_inLen (s : State) (S : Space) (m : Memory) : (s.setMem S m).inLen = s.inLen := by cases S <;> rfl
@[simp] theorem State.setMem_outLen (s : State) (S : Space) (m : Memory) : (s.setMem S m).outLen = s.outLen := by cases S <;> rfl
@[simp] theorem State.setMem_kekLen (s : State) (S : Space) (m : Memory) : (s.setMem S m).kekLen = s.kekLen := by cases S <;> rfl
@[simp] theorem State.setMem_resultLen (s : State) (S : Space) (m : Memory) : (s.setMem S m).resultLen = s.resultLen := by cases S <;> rfl
@[simp] theorem State.setMem_errInfo (s : State) (S : Space) (m : Memory) : (s.setMem S m).errInfo = s.errInfo := by cases S <;> rfl
@[simp] theorem State.setMem_kek (s : State) (S : Space) (m : Memory) : (s.setMem S m).kek = s.kek := by cases S <;> rfl
@[simp] theorem State.setMem_acc (s : State) (S : Space) (m : Memory) : (s.setMem S m).acc = s.acc := by cases S <;> rfl
@[simp] theorem State.setMem_blk (s : State) (S : Space) (m : Memory) : (s.setMem S m).blk = s.blk := by cases S <;> rfl
@[simp] theorem State.setMem_seq (s : State) (S : Space) (m : Memory) : (s.setMem S m).seq = s.seq := by cases S <;> rfl
@[simp] theorem State.setMem_ctr (s : State) (S : Space) (m : Memory) : (s.setMem S m).ctr = s.ctr := by cases S <;> rfl
@[simp] theorem State.setMem_count (s : State) (S : Space) (m : Memory) : (s.setMem S m).count = s.count := by cases S <;> rfl
@[simp] theorem State.setMem_pending (s : State) (S : Space) (m : Memory) : (s.setMem S m).pending = s.pending := by cases S <;> rfl
@[simp] theorem State.setMem_returned (s : State) (S : Space) (m : Memory) : (s.setMem S m).returned = s.returned := by cases S <;> rfl
@[simp] theorem State.setMem_resets (s : State) (S : Space) (m : Memory) : (s.setMem S m).resets = s.resets := by cases S <;> rfl
@[simp] theorem State.setMem_inp_inp (s : State) (m : Memory) : (s.setMem .inp m).inp = m := rfl
@[simp] theorem State.setMem_out_inp (s : State) (m : Memory) : (s.setMem .out m).inp = s.inp := rfl
@[simp] theorem State.setMem_key_inp (s : State) (m : Memory) : (s.setMem .key m).inp = s.inp := rfl
@[simp] theorem State.setMem_inp_out (s : State) (m : Memory) : (s.setMem .inp m).out = s.out := rfl
@[simp] theorem State.setMem_out_out (s : State) (m : Memory) : (s.setMem .out m).out = m := rfl
@[simp] theorem State.setMem_key_out (s : State) (m : Memory) : (s.setMem .key m).out = s.out := rfl
@[simp] theorem State.setMem_inp_key (s : State) (m : Memory) : (s.setMem .inp m).key = s.key := rfl
@[simp] theorem State.setMem_out_key (s : State) (m : Memory) : (s.setMem .out m).key = s.key := rfl
@[simp] theorem State.setMem_key_key (s : State) (m : Memory) : (s.setMem .key m).key = m := rfl
@[simp] theorem State.mem_inp (s : State) : s.mem .inp = s.inp := rfl
@[simp] theorem State.mem_out (s : State) : s.mem .out = s.out := rfl
@[simp] theorem State.mem_key (s : State) : s.mem .key = s.key := rfl
@[simp] theorem writeByte_err (s : State) (S : Space) (a : Nat) (b : Byte) : (writeByte s S a b).err = s.err := by cases S <;> rfl
@[simp] theorem writeByte_done (s : State) (S : Space) (a : Nat) (b : Byte) : (writeByte s S a b).done = s.done := by cases S <;> rfl
@[simp] theorem writeByte_inLen (s : State) (S : Space) (a : Nat) (b : Byte) : (writeByte s S a b).inLen = s.inLen := by cases S <;> rfl
@[simp] theorem writeByte_outLen (s : State) (S : Space) (a : Nat) (b : Byte) : (writeByte s S a b).outLen = s.outLen := by cases S <;> rfl
@[simp] theorem writeByte_kekLen (s : State) (S : Space) (a : Nat) (b : Byte) : (writeByte s S a b).kekLen = s.kekLen := by cases S <;> rfl
@[simp] theorem writeByte_resultLen (s : State) (S : Space) (a : Nat) (b : Byte) : (writeByte s S a b).resultLen = s.resultLen := by cases S <;> rfl
@[simp] theorem writeByte_errInfo (s : State) (S : Space) (a : Nat) (b : Byte) : (writeByte s S a b).errInfo = s.errInfo := by cases S <;> rfl
@[simp] theorem writeByte_kek (s : State) (S : Space) (a : Nat) (b : Byte) : (writeByte s S a b).kek = s.kek := by cases S <;> rfl
@[simp] theorem writeByte_acc (s : State) (S : Space) (a : Nat) (b : Byte) : (writeByte s S a b).acc = s.acc := by cases S <;> rfl
@[simp] theorem writeByte_blk (s : State) (S : Space) (a : Nat) (b : Byte) : (writeByte s S a b).blk = s.blk := by cases S <;> rfl
@[simp] theorem writeByte_seq (s : State) (S : Space) (a : Nat) (b : Byte) : (writeByte s S a b).seq = s.seq := by cases S <;> rfl
@[simp] theorem writeByte_ctr (s : State) (S : Space) (a : Nat) (b : Byte) : (writeByte s S a b).ctr = s.ctr := by cases S <;> rfl
@[simp] theorem writeByte_count (s : State) (S : Space) (a : Nat) (b : Byte) : (writeByte s S a b).count = s.count := by cases S <;> rfl
@[simp] theorem writeByte_pending (s : State) (S : Space) (a : Nat) (b : Byte) : (writeByte s S a b).pending = s.pending := by cases S <;> rfl
@[simp] theorem writeByte_returned (s : State) (S : Space) (a : Nat) (b : Byte) : (writeByte s S a b).returned = s.returned := by cases S <;> rfl
@[simp] theorem writeByte_resets (s : State) (S : Space) (a : Nat) (b : Byte) : (writeByte s S a b).resets = s.resets := by cases S <;> rfl
@[simp] theorem writeByte_out_inp (s : State) (a : Nat) (b : Byte) : (writeByte s .out a b).inp = s.inp := rfl
@[simp] theorem writeByte_key_inp (s : State) (a : Nat) (b : Byte) : (writeByte s .key a b).inp = s.inp := rfl
@[simp] theorem writeByte_inp_out (s : State) (a : Nat) (b : Byte) : (writeByte s .inp a b).out = s.out := rfl
@[simp] theorem writeByte_key_out (s : State) (a : Nat) (b : Byte) : (writeByte s .key a b).out = s.out := rfl
@[simp] theorem writeByte_inp_key (s : State) (a : Nat) (b : Byte) : (writeByte s .inp a b).key = s.key := rfl
@[simp] theorem writeByte_out_key (s : State) (a : Nat) (b : Byte) : (writeByte s .out a b).key = s.key := rfl
@[simp] theorem memWrite_err (s : State) (S : Space) (a : Nat) (bs : List Byte) : (memWrite s S a bs).err = s.err := by
  induction bs generalizing s a <;> simp [memWrite, *]
@[simp] theorem memWrite_done (s : State) (S : Space) (a : Nat) (bs : List Byte) : (memWrite s S a bs).done = s.done := by
  induction bs generalizing s a <;> simp [memWrite, *]
@[simp] theorem memWrite_inLen (s : State) (S : Space) (a : Nat) (bs : List Byte) : (memWrite s S a bs).inLen = s.inLen := by
  induction bs generalizing s a <;> simp [memWrite, *]
@[simp] theorem memWrite_outLen (s : State) (S : Space) (a : Nat) (bs : List Byte) : (memWrite s S a bs).outLen = s.outLen := by
  induction bs generalizing s a <;> simp [memWrite, *]
@[simp] theorem memWrite_kekLen (s : State) (S : Space) (a : Nat) (bs : List Byte) : (memWrite s S a bs).kekLen = s.kekLen := by
  induction bs generalizing s a <;> simp [memWrite, *]
@[simp] theorem memWrite_resultLen (s : State) (S : Space) (a : Nat) (bs : List Byte) : (memWrite s S a bs).resultLen = s.resultLen := by
  induction bs generalizing s a <;> simp [memWrite, *]
@[simp] theorem memWrite_errInfo (s : State) (S : Space) (a : Nat) (bs : List Byte) : (memWrite s S a bs).errInfo = s.errInfo := by
  induction bs generalizing s a <;> simp [memWrite, *]
@[simp] theorem memWrite_kek (s : State) (S : Space) (a : Nat) (bs : List Byte) : (memWrite s S a bs).kek = s.kek := by
  induction bs generalizing s a <;> simp [memWrite, *]
@[simp] theorem memWrite_acc (s : State) (S : Space) (a : Nat) (bs : List Byte) : (memWrite s S a bs).acc = s.acc := by
  induction bs generalizing s a <;> simp [memWrite, *]
@[simp] theorem memWrite_blk (s : State) (S : Space) (a : Nat) (bs : List Byte) : (memWrite s S a bs).blk = s.blk := by
  induction bs generalizing s a <;> simp [memWrite, *]
@[simp] theorem memWrite_seq (s : State) (S : Space) (a : Nat) (bs : List Byte) : (memWrite s S a bs).seq = s.seq := by
  induction bs generalizing s a <;> simp [memWrite, *]
@[simp] theorem memWrite_ctr (s : State) (S : Space) (a : Nat) (bs : List Byte) : (memWrite s S a bs).ctr = s.ctr := by
  induction bs generalizing s a <;> simp [memWrite, *]
@[simp] theorem memWrite_count (s : State) (S : Space) (a : Nat) (bs : List Byte) : (memWrite s S a bs).count = s.count := by
  induction bs generalizing s a <;> simp [memWrite, *]
@[simp] theorem memWrite_pending (s : State) (S : Space) (a : Nat) (bs : List Byte) : (memWrite s S a bs).pending = s.pending := by
  induction bs generalizing s a <;> simp [memWrite, *]
@[simp] theorem memWrite_returned (s : State) (S : Space) (a : Nat) (bs : List Byte) : (memWrite s S a bs).returned = s.returned := by
  induction bs generalizing s a <;> simp [memWrite, *]
@[simp] theorem memWrite_resets (s : State) (S : Space) (a : Nat) (bs : List Byte) : (memWrite s S a bs).resets = s.resets := by
  induction bs generalizing s a <;> simp [memWrite, *]
@[simp] theorem memWrite_out_inp (s : State) (a : Nat) (bs : List Byte) : (memWrite s .out a bs).inp = s.inp := by
  induction bs generalizing s a <;> simp [memWrite, *]
@[simp] theorem memWrite_key_inp (s : State) (a : Nat) (bs : List Byte) : (memWrite s .key a bs).inp = s.inp := by
  induction bs generalizing s a <;> simp [memWrite, *]
@[simp] theorem memWrite_inp_out (s : State) (a : Nat) (bs : List Byte) : (memWrite s .inp a bs).out = s.out := by
  induction bs generalizing s a <;> simp [memWrite, *]
@[simp] theorem memWrite_key_out (s : State) (a : Nat) (bs : List Byte) : (memWrite s .key a bs).out = s.out := by
  induction bs generalizing s a <;> simp [memWrite, *]
@[simp] theorem memWrite_inp_key (s : State) (a : Nat) (bs : List Byte) : (memWrite s .inp a bs).key = s.key := by
  induction bs generalizing s a <;> simp [memWrite, *]
@[simp] theorem memWrite_out_key (s : State) (a : Nat) (bs : List Byte) : (memWrite s .out a bs).key = s.key := by
  induction bs generalizing s a <;> simp [memWrite, *]

/-! Reading a space depends on its listed bytes and on the count of resets alone. -/

theorem readByte_congr {s t : State} {S : Space} (hm : t.mem S = s.mem S) (hr : t.resets = s.resets) (a : Nat) :
    readByte t S a = readByte s S a := by simp [readByte, hm, hr]

theorem memRead_congr {s t : State} {S : Space} (hm : t.mem S = s.mem S) (hr : t.resets = s.resets) (a n : Nat) :
    memRead t S a n = memRead s S a n := by simp [memRead, readByte_congr hm hr]

/-! Reads after an update that touches no space. -/

@[simp] theorem readByte_setOutcome (s : State) (e : ErrCode) (r i : Word) (S : Space) (a : Nat) : readByte (s.setOutcome e r i) S a = readByte s S a := by
  cases S <;> rfl
@[simp] theorem memRead_setOutcome (s : State) (e : ErrCode) (r i : Word) (S : Space) (a n : Nat) : memRead (s.setOutcome e r i) S a n = memRead s S a n := by
  cases S <;> rfl
@[simp] theorem readByte_setKek (s : State) (k : Option CipherState) (S : Space) (a : Nat) : readByte (s.setKek k) S a = readByte s S a := by
  cases S <;> rfl
@[simp] theorem memRead_setKek (s : State) (k : Option CipherState) (S : Space) (a n : Nat) : memRead (s.setKek k) S a n = memRead s S a n := by
  cases S <;> rfl
@[simp] theorem readByte_setAcc (s : State) (x : Semiblock) (S : Space) (a : Nat) : readByte (s.setAcc x) S a = readByte s S a := by
  cases S <;> rfl
@[simp] theorem memRead_setAcc (s : State) (x : Semiblock) (S : Space) (a n : Nat) : memRead (s.setAcc x) S a n = memRead s S a n := by
  cases S <;> rfl
@[simp] theorem readByte_setBlk (s : State) (b : Block) (S : Space) (a : Nat) : readByte (s.setBlk b) S a = readByte s S a := by
  cases S <;> rfl
@[simp] theorem memRead_setBlk (s : State) (b : Block) (S : Space) (a n : Nat) : memRead (s.setBlk b) S a n = memRead s S a n := by
  cases S <;> rfl
@[simp] theorem readByte_setSeq (s : State) (p : Option (Nat × Nat)) (S : Space) (a : Nat) : readByte (s.setSeq p) S a = readByte s S a := by
  cases S <;> rfl
@[simp] theorem memRead_setSeq (s : State) (p : Option (Nat × Nat)) (S : Space) (a n : Nat) : memRead (s.setSeq p) S a n = memRead s S a n := by
  cases S <;> rfl
@[simp] theorem readByte_setCtr (s : State) (t : Option Nat) (S : Space) (a : Nat) : readByte (s.setCtr t) S a = readByte s S a := by
  cases S <;> rfl
@[simp] theorem memRead_setCtr (s : State) (t : Option Nat) (S : Space) (a n : Nat) : memRead (s.setCtr t) S a n = memRead s S a n := by
  cases S <;> rfl
@[simp] theorem readByte_setCount (s : State) (c : Option Nat) (S : Space) (a : Nat) : readByte (s.setCount c) S a = readByte s S a := by
  cases S <;> rfl
@[simp] theorem memRead_setCount (s : State) (c : Option Nat) (S : Space) (a n : Nat) : memRead (s.setCount c) S a n = memRead s S a n := by
  cases S <;> rfl
@[simp] theorem readByte_clearTransients (s : State) (S : Space) (a : Nat) : readByte (s.clearTransients) S a = readByte s S a := by
  cases S <;> rfl
@[simp] theorem memRead_clearTransients (s : State) (S : Space) (a n : Nat) : memRead (s.clearTransients) S a n = memRead s S a n := by
  cases S <;> rfl
@[simp] theorem readByte_setReturned (s : State) (r : HostReturn) (S : Space) (a : Nat) : readByte (s.setReturned r) S a = readByte s S a := by
  cases S <;> rfl
@[simp] theorem memRead_setReturned (s : State) (r : HostReturn) (S : Space) (a n : Nat) : memRead (s.setReturned r) S a n = memRead s S a n := by
  cases S <;> rfl
@[simp] theorem readByte_takeAccess (s : State) (rest : List HostAccess) (S : Space) (a : Nat) : readByte (s.takeAccess rest) S a = readByte s S a := by
  cases S <;> rfl
@[simp] theorem memRead_takeAccess (s : State) (rest : List HostAccess) (S : Space) (a n : Nat) : memRead (s.takeAccess rest) S a n = memRead s S a n := by
  cases S <;> rfl
@[simp] theorem readByte_raise (s : State) (e : EngineError) (S : Space) (a : Nat) : readByte (raise e s) S a = readByte s S a := by
  cases S <;> rfl
@[simp] theorem memRead_raise (s : State) (e : EngineError) (S : Space) (a n : Nat) : memRead (raise e s) S a n = memRead s S a n := by
  cases S <;> rfl
@[simp] theorem readByte_complete (s : State) (len : Nat) (S : Space) (a : Nat) : readByte (complete len s) S a = readByte s S a := by
  cases S <;> rfl
@[simp] theorem memRead_complete (s : State) (len : Nat) (S : Space) (a n : Nat) : memRead (complete len s) S a n = memRead s S a n := by
  cases S <;> rfl

end Sys2Proof.Machine
end

