-- ==== Sys2Proof/Laws/Memory.lean ====
section
/-! SUPPORT. The laws of the byte spaces: a read after a write, a write leaves every other byte alone, and
every memory operation keeps the canonical form and the space's bound. -/

namespace Sys2Proof.Machine

open Sys2Proof

/-! ### One memory -/

@[simp] theorem Memory.lookup_nil (a : Nat) : Memory.lookup [] a = none := rfl

theorem Memory.lookup_insert (m : Memory) (a x : Nat) (b : Byte) :
    Memory.lookup (Memory.insert m a b) x = if x = a then some b else Memory.lookup m x := by
  induction m with
  | nil => simp [Memory.insert, Memory.lookup, eq_comm]
  | cons c m ih =>
    obtain ⟨k, c⟩ := c
    simp only [Memory.insert]
    split
    · simp [Memory.lookup, eq_comm]
    · split
      · subst a; simp only [Memory.lookup]; split <;> simp_all [eq_comm]
      · simp only [Memory.lookup, ih]
        by_cases hk : k = x
        · rw [if_pos hk, if_pos hk, if_neg (by omega)]
        · rw [if_neg hk, if_neg hk]

theorem Memory.lookup_none_of_lt {m : Memory} {a : Nat} (h : ∀ c ∈ m, a < c.1) : Memory.lookup m a = none := by
  induction m with
  | nil => rfl
  | cons c m ih =>
    obtain ⟨k, c⟩ := c
    have hk : a < k := h (k, c) (by simp)
    rw [Memory.lookup, if_neg (by omega), ih fun c hc => h c (by simp [hc])]

/-- In a rising list the entries after the first lie above it. -/
theorem Memory.head_lt {k : Nat} {c : Byte} {m : Memory} (h : ((k, c) :: m).map Prod.fst |>.Pairwise (· < ·)) :
    ∀ d ∈ m, k < d.1 := by
  intro d hd
  simp only [List.map_cons, List.pairwise_cons, List.mem_map, forall_exists_index, and_imp] at h
  exact h.1 d.1 d hd rfl

theorem Memory.lookup_remove {m : Memory} (h : (m.map Prod.fst).Pairwise (· < ·)) (a x : Nat) :
    Memory.lookup (Memory.remove m a) x = if x = a then none else Memory.lookup m x := by
  induction m with
  | nil => simp [Memory.remove]
  | cons c m ih =>
    obtain ⟨k, c⟩ := c
    have hlt := Memory.head_lt h
    have ht : (m.map Prod.fst).Pairwise (· < ·) := (List.pairwise_cons.mp h).2
    simp only [Memory.remove]
    split
    · subst a
      split
      · subst x; exact Memory.lookup_none_of_lt hlt
      · rw [Memory.lookup, if_neg (Ne.symm ‹_›)]
    · simp only [Memory.lookup, ih ht]; split <;> simp_all

theorem Memory.mem_insert {m : Memory} {a : Nat} {b : Byte} {d : Host.Cell} (h : d ∈ Memory.insert m a b) :
    d = (a, b) ∨ d ∈ m := by
  induction m with
  | nil => simpa [Memory.insert] using h
  | cons c m ih =>
    obtain ⟨k, c⟩ := c
    simp only [Memory.insert] at h
    split at h
    · simpa using h
    · split at h
      · simp only [List.mem_cons] at h ⊢; tauto
      · rw [List.mem_cons] at h
        rcases h with rfl | h
        · simp
        · rcases ih h with rfl | h <;> simp [*]

theorem Memory.mem_remove {m : Memory} {a : Nat} {d : Host.Cell} (h : d ∈ Memory.remove m a) : d ∈ m := by
  induction m with
  | nil => simp [Memory.remove] at h
  | cons c m ih =>
    obtain ⟨k, c⟩ := c
    simp only [Memory.remove] at h
    split at h
    · exact List.mem_cons_of_mem _ h
    · rw [List.mem_cons] at h
      rcases h with rfl | h
      · simp
      · exact List.mem_cons_of_mem _ (ih h)

theorem Memory.insert_rising {m : Memory} (h : (m.map Prod.fst).Pairwise (· < ·)) (a : Nat) (b : Byte) :
    ((Memory.insert m a b).map Prod.fst).Pairwise (· < ·) := by
  induction m with
  | nil => simp [Memory.insert]
  | cons c m ih =>
    obtain ⟨k, c⟩ := c
    have hlt := Memory.head_lt h
    have ht : (m.map Prod.fst).Pairwise (· < ·) := (List.pairwise_cons.mp h).2
    simp only [Memory.insert]
    split
    · rename_i hak
      simp only [List.map_cons]
      refine List.pairwise_cons.mpr ⟨?_, h⟩
      intro x hx
      rcases List.mem_cons.mp hx with rfl | hx
      · exact hak
      · obtain ⟨d, hd, rfl⟩ := List.mem_map.mp hx
        exact lt_trans hak (hlt d hd)
    · split
      · subst a; exact h
      · refine List.pairwise_cons.mpr ⟨?_, ih ht⟩
        intro x hx
        obtain ⟨d, hd, rfl⟩ := List.mem_map.mp hx
        rcases Memory.mem_insert hd with rfl | hd
        · show k < a; omega
        · exact hlt d hd

theorem Memory.remove_rising {m : Memory} (h : (m.map Prod.fst).Pairwise (· < ·)) (a : Nat) :
    ((Memory.remove m a).map Prod.fst).Pairwise (· < ·) := by
  induction m with
  | nil => simp [Memory.remove]
  | cons c m ih =>
    obtain ⟨k, c⟩ := c
    have hlt := Memory.head_lt h
    have ht : (m.map Prod.fst).Pairwise (· < ·) := (List.pairwise_cons.mp h).2
    simp only [Memory.remove]
    split
    · exact ht
    · refine List.pairwise_cons.mpr ⟨?_, ih ht⟩
      intro x hx
      obtain ⟨d, hd, rfl⟩ := List.mem_map.mp hx
      exact hlt d (Memory.mem_remove hd)

/-- A store keeps the canonical form. -/
theorem Memory.store_wf {known : Option Byte} {m : Memory} (h : Memory.wf known m) (a : Nat) (b : Byte) :
    Memory.wf known (Memory.store known m a b) := by
  rw [Memory.store]
  split
  · exact ⟨Memory.remove_rising h.1 a, fun d hd => h.2 d (Memory.mem_remove hd)⟩
  · refine ⟨Memory.insert_rising h.1 a b, fun d hd => ?_⟩
    rcases Memory.mem_insert hd with rfl | hd
    · assumption
    · exact h.2 d hd

/-- A store below the bound keeps the bound. -/
theorem Memory.store_within {known : Option Byte} {m : Memory} {size : Nat} (h : Memory.within size m) {a : Nat}
    (ha : a < size) (b : Byte) : Memory.within size (Memory.store known m a b) := by
  intro d hd
  rw [Memory.store] at hd
  split at hd
  · exact h d (Memory.mem_remove hd)
  · rcases Memory.mem_insert hd with rfl | hd
    · exact ha
    · exact h d hd

/-! ### The spaces of a state -/

/-- A read of OUT after a write to OUT. -/
theorem readByte_writeByte_out (s : State) (a x : Nat) (b : Byte) :
    readByte (writeByte s .out a b) .out x = if x = a then b else readByte s .out x := by
  simp only [readByte, writeByte, State.mem_out, State.setMem_out_out, State.setMem_resets, Memory.store, unlistedKnown,
    reduceCtorEq, if_false, Memory.lookup_insert]
  split <;> rfl

/-- A read of IN after a write to IN. -/
theorem readByte_writeByte_inp (s : State) (a x : Nat) (b : Byte) :
    readByte (writeByte s .inp a b) .inp x = if x = a then b else readByte s .inp x := by
  simp only [readByte, writeByte, State.mem_inp, State.setMem_inp_inp, State.setMem_resets, Memory.store, unlistedKnown,
    reduceCtorEq, if_false, Memory.lookup_insert]
  split <;> rfl

/-- A read of KEY after a write to KEY, where KEY is in canonical form. -/
theorem readByte_writeByte_key {s : State} (h : Memory.wf (unlistedKnown .key) s.key) (a x : Nat) (b : Byte) :
    readByte (writeByte s .key a b) .key x = if x = a then b else readByte s .key x := by
  simp only [readByte, writeByte, State.mem_key, State.setMem_key_key, Memory.store, unlistedByte]
  by_cases hb : unlistedKnown .key = some b
  · have hb' : b = 0 := (Option.some.inj hb).symm
    rw [if_pos hb, Memory.lookup_remove h.1]
    split <;> simp [hb']
  · rw [if_neg hb, Memory.lookup_insert]
    split <;> rfl

/-- A write to one space leaves every byte of the others alone. -/
theorem readByte_writeByte_ne {S T : Space} (h : T ≠ S) (s : State) (a x : Nat) (b : Byte) :
    readByte (writeByte s S a b) T x = readByte s T x := by
  cases S <;> cases T <;> first | exact absurd rfl h | rfl

@[simp] theorem memRead_length (s : State) (S : Space) (a n : Nat) : (memRead s S a n).length = n := by
  simp [memRead]

theorem memRead_getElem? (s : State) (S : Space) (a n i : Nat) :
    (memRead s S a n)[i]? = if i < n then some (readByte s S (a + i)) else none := by
  simp only [memRead, List.getElem?_map]
  by_cases h : i < n
  · simp [h]
  · simp [h]

@[simp] theorem memRead_getElem (s : State) (S : Space) (a n i : Nat) (h : i < (memRead s S a n).length) :
    (memRead s S a n)[i] = readByte s S (a + i) := by
  simp [memRead]

/-- Equal reads read equal bytes. -/
theorem readByte_of_memRead_eq {s t : State} {S T : Space} {a b n : Nat} (h : memRead s S a n = memRead t T b n)
    {i : Nat} (hi : i < n) : readByte s S (a + i) = readByte t T (b + i) := by
  have := congrArg (fun l : List Byte => l[i]?) h
  simpa [memRead_getElem?, hi] using this

/-- Two reads are equal when every byte they read is. -/
theorem memRead_ext {s t : State} {S T : Space} {a b n : Nat}
    (h : ∀ i < n, readByte s S (a + i) = readByte t T (b + i)) : memRead s S a n = memRead t T b n := by
  refine List.map_congr_left fun i hi => h i (List.mem_range.mp hi)

theorem memRead_add (s : State) (S : Space) (a m n : Nat) :
    memRead s S a (m + n) = memRead s S a m ++ memRead s S (a + m) n := by
  simp only [memRead, List.range_add, List.map_append, List.map_map]
  congr 1
  refine List.map_congr_left fun i _ => ?_
  simp [Nat.add_assoc]

theorem memRead_drop_take (s : State) (S : Space) (a n i k : Nat) (h : i + k ≤ n) :
    ((memRead s S a n).drop i).take k = memRead s S (a + i) k := by
  obtain ⟨r, rfl⟩ := Nat.exists_eq_add_of_le h
  rw [Nat.add_assoc, memRead_add, List.drop_left' (by simp), memRead_add, List.take_left' (by simp)]

/-- A byte of a space after a whole string was written to it: the string's byte inside, the old byte outside. -/
theorem readByte_memWrite_out (s : State) (a x : Nat) (bs : List Byte) :
    readByte (memWrite s .out a bs) .out x =
      if a ≤ x ∧ x < a + bs.length then bs.getD (x - a) 0 else readByte s .out x := by
  induction bs generalizing s a with
  | nil => simp [memWrite]
  | cons b bs ih =>
    rw [memWrite, ih, readByte_writeByte_out]
    by_cases h1 : a + 1 ≤ x ∧ x < a + 1 + bs.length
    · rw [if_pos h1, if_pos (by simp; omega), show x - a = (x - (a + 1)) + 1 by omega, List.getD_cons_succ]
    · rw [if_neg h1]
      by_cases h2 : x = a
      · subst x; rw [if_pos rfl, if_pos (by simp)]; simp
      · rw [if_neg h2, if_neg (by simp; omega)]

/-- `MemRead` after `MemWrite` of the same bytes of OUT (R11). -/
theorem memRead_memWrite_out (s : State) (a : Nat) (bs : List Byte) :
    memRead (memWrite s .out a bs) .out a bs.length = bs := by
  apply List.ext_getElem?
  intro i
  rw [memRead_getElem?]
  split
  · rename_i h
    rw [readByte_memWrite_out, if_pos (by omega), Nat.add_sub_cancel_left]
    simp [List.getD, h]
  · rename_i h
    simp only [not_lt] at h
    exact (List.getElem?_eq_none h).symm

/-- `MemRead` of OUT is the same before and after a `MemWrite` elsewhere in OUT (R11). -/
theorem memRead_memWrite_out_of_disjoint (s : State) (a x n : Nat) (bs : List Byte)
    (h : x + n ≤ a ∨ a + bs.length ≤ x) : memRead (memWrite s .out a bs) .out x n = memRead s .out x n := by
  refine memRead_ext fun i hi => ?_
  rw [readByte_memWrite_out, if_neg (by omega)]

/-- A write to one space leaves every byte of the others alone. -/
theorem readByte_memWrite_ne {S T : Space} (h : T ≠ S) (s : State) (a x : Nat) (bs : List Byte) :
    readByte (memWrite s S a bs) T x = readByte s T x := by
  induction bs generalizing s a with
  | nil => rfl
  | cons b bs ih => rw [memWrite, ih, readByte_writeByte_ne h]

theorem memRead_memWrite_ne {S T : Space} (h : T ≠ S) (s : State) (a x n : Nat) (bs : List Byte) :
    memRead (memWrite s S a bs) T x n = memRead s T x n :=
  memRead_ext fun _ _ => readByte_memWrite_ne h ..

/-- `MemWrite` keeps the canonical form of the space it writes. -/
theorem memWrite_wf {s : State} {S : Space} (h : Memory.wf (unlistedKnown S) (s.mem S)) (a : Nat) (bs : List Byte) :
    Memory.wf (unlistedKnown S) ((memWrite s S a bs).mem S) := by
  induction bs generalizing s a with
  | nil => exact h
  | cons b bs ih =>
    refine ih ?_ (a + 1)
    have := Memory.store_wf h a b
    cases S <;> exact this

/-- A byte of KEY after a whole string was written to it, where KEY is in canonical form. -/
theorem readByte_memWrite_key {s : State} (h : Memory.wf (unlistedKnown .key) s.key) (a x : Nat) (bs : List Byte) :
    readByte (memWrite s .key a bs) .key x =
      if a ≤ x ∧ x < a + bs.length then bs.getD (x - a) 0 else readByte s .key x := by
  induction bs generalizing s a with
  | nil => simp [memWrite]
  | cons b bs ih =>
    have hw : Memory.wf (unlistedKnown .key) (writeByte s .key a b).key := Memory.store_wf h a b
    rw [memWrite, ih hw, readByte_writeByte_key h]
    by_cases h1 : a + 1 ≤ x ∧ x < a + 1 + bs.length
    · rw [if_pos h1, if_pos (by simp; omega), show x - a = (x - (a + 1)) + 1 by omega, List.getD_cons_succ]
    · rw [if_neg h1]
      by_cases h2 : x = a
      · subst x; rw [if_pos rfl, if_pos (by simp)]; simp
      · rw [if_neg h2, if_neg (by simp; omega)]

/-- `MemWrite` inside a space keeps the space's bound. -/
theorem memWrite_within {s : State} {S : Space} {size : Nat} (h : Memory.within size (s.mem S)) (a : Nat)
    (bs : List Byte) (hb : a + bs.length ≤ size) : Memory.within size ((memWrite s S a bs).mem S) := by
  induction bs generalizing s a with
  | nil => exact h
  | cons b bs ih =>
    simp only [List.length_cons] at hb
    refine ih ?_ (a + 1) (by omega)
    have := Memory.store_within (known := unlistedKnown S) h (show a < size by omega) b
    cases S <;> exact this

/-- The three memories after reset are canonical (R38). -/
theorem reset_memories_wf (S : Space) : Memory.wf (unlistedKnown S) (State.reset.mem S) := by
  cases S <;> simp [State.mem, State.reset, Memory.wf]

end Sys2Proof.Machine
end

