-- ==== Sys2Proof/Laws/Transform.lean ====
section
/-! SUPPORT. What the transform leaves alone (R148), what one step does to the semiblocks (R142, R144), and the
flat form's inverse (R149). -/

namespace Sys2Proof.Machine

open Sys2Proof

/-! ### One semiblock in OUT -/

@[simp] theorem readSemiblock_setAcc (s : State) (x : Semiblock) (base i : Nat) :
    readSemiblock (s.setAcc x) base i = readSemiblock s base i := by simp [readSemiblock]

@[simp] theorem readSemiblock_setBlk (s : State) (b : Block) (base i : Nat) :
    readSemiblock (s.setBlk b) base i = readSemiblock s base i := by simp [readSemiblock]

@[simp] theorem readSemiblock_setSeq (s : State) (p : Option (Nat × Nat)) (base i : Nat) :
    readSemiblock (s.setSeq p) base i = readSemiblock s base i := by simp [readSemiblock]

@[simp] theorem readSemiblock_setCtr (s : State) (t : Option Nat) (base i : Nat) :
    readSemiblock (s.setCtr t) base i = readSemiblock s base i := by simp [readSemiblock]

@[simp] theorem readSemiblock_setCount (s : State) (c : Option Nat) (base i : Nat) :
    readSemiblock (s.setCount c) base i = readSemiblock s base i := by simp [readSemiblock]

theorem readSemiblock_writeSemiblock (s : State) (base i m : Nat) (x : Semiblock) :
    readSemiblock (writeSemiblock s base i x) base m = if m = i then x else readSemiblock s base m := by
  by_cases h : m = i
  · subst m
    rw [if_pos rfl, readSemiblock, writeSemiblock]
    have := memRead_memWrite_out s (base + 8 * i) (semiblockBytes x)
    rw [semiblockBytes_length] at this
    rw [this, semiblockOf_semiblockBytes]
  · rw [if_neg h, readSemiblock, writeSemiblock, memRead_memWrite_out_of_disjoint, readSemiblock]
    rw [semiblockBytes_length]
    omega

/-- A write of R[i] leaves every byte of OUT outside R[i] alone. -/
theorem readByte_writeSemiblock (s : State) (base i a : Nat) (x : Semiblock)
    (h : a < base + 8 * i ∨ base + 8 * i + 8 ≤ a) :
    readByte (writeSemiblock s base i x) .out a = readByte s .out a := by
  rw [writeSemiblock, readByte_memWrite_out, semiblockBytes_length, if_neg (by omega)]

/-- Two states hold the same semiblocks where they hold the same bytes. -/
theorem semiblocksAt_congr {s t : State} {S T : Space} {a b n : Nat}
    (h : ∀ i < 8 * n, readByte s S (a + i) = readByte t T (b + i)) : semiblocksAt s S a n = semiblocksAt t T b n := by
  refine List.map_congr_left fun i hi => ?_
  have hi := List.mem_range.mp hi
  rw [memRead_ext (s := s) (t := t) (S := S) (T := T) (a := a + 8 * i) (b := b + 8 * i)]
  intro j hj
  rw [Nat.add_assoc, Nat.add_assoc, h _ (by omega)]

@[simp] theorem semiblocksAt_setAcc (s : State) (x : Semiblock) (S : Space) (base n : Nat) :
    semiblocksAt (s.setAcc x) S base n = semiblocksAt s S base n := by simp [semiblocksAt]

@[simp] theorem semiblocksAt_setBlk (s : State) (b : Block) (S : Space) (base n : Nat) :
    semiblocksAt (s.setBlk b) S base n = semiblocksAt s S base n := by simp [semiblocksAt]

@[simp] theorem semiblocksAt_setSeq (s : State) (p : Option (Nat × Nat)) (S : Space) (base n : Nat) :
    semiblocksAt (s.setSeq p) S base n = semiblocksAt s S base n := by simp [semiblocksAt]

@[simp] theorem semiblocksAt_setCtr (s : State) (t : Option Nat) (S : Space) (base n : Nat) :
    semiblocksAt (s.setCtr t) S base n = semiblocksAt s S base n := by simp [semiblocksAt]

@[simp] theorem semiblocksAt_setCount (s : State) (c : Option Nat) (S : Space) (base n : Nat) :
    semiblocksAt (s.setCount c) S base n = semiblocksAt s S base n := by simp [semiblocksAt]

@[simp] theorem semiblocksAt_length (s : State) (S : Space) (base n : Nat) : (semiblocksAt s S base n).length = n := by
  simp [semiblocksAt]

theorem semiblocksAt_getD (s : State) (base n i : Nat) (h : i < n) :
    (semiblocksAt s .out base n).getD i 0 = readSemiblock s base i := by
  simp [semiblocksAt, readSemiblock, List.getD, h]

/-- A write of R[i] is a `set` on the list of semiblocks. -/
theorem semiblocksAt_writeSemiblock (s : State) (base n i : Nat) (x : Semiblock) :
    semiblocksAt (writeSemiblock s base i x) .out base n = (semiblocksAt s .out base n).set i x := by
  apply List.ext_getElem?
  intro m
  simp only [semiblocksAt, List.getElem?_map, List.getElem?_set, List.length_map, List.length_range]
  by_cases hm : m < n
  · have h1 := readSemiblock_writeSemiblock s base i m x
    simp only [readSemiblock] at h1
    simp only [List.getElem?_range hm, Option.map_some, h1]
    by_cases him : m = i
    · subst m; simp [hm]
    · simp [him, Ne.symm him]
  · have hm' : n ≤ m := Nat.not_lt.mp hm
    rw [List.getElem?_eq_none (by simpa using hm')]
    by_cases him : i = m
    · simp [him, hm]
    · simp [him]

/-- Semiblocks are their bytes. -/
theorem semiblocksBytes_semiblocksAt (s : State) (S : Space) (base n : Nat) :
    semiblocksBytes (semiblocksAt s S base n) = memRead s S base (8 * n) := by
  induction n with
  | zero => rfl
  | succ n ih =>
    have hs : semiblocksAt s S base (n + 1) = semiblocksAt s S base n ++ [semiblockOf (memRead s S (base + 8 * n) 8)] := by
      simp [semiblocksAt, List.range_succ]
    rw [hs, semiblocksBytes, List.flatMap_append, ← semiblocksBytes, ih, Nat.mul_add, Nat.mul_one, memRead_add,
      List.flatMap_singleton, semiblockBytes_semiblockOf _ (memRead_length ..)]

theorem semiblocksBytes_length (R : List Semiblock) : (semiblocksBytes R).length = 8 * R.length := by
  induction R with
  | nil => rfl
  | cons x R ih => simp only [semiblocksBytes, List.flatMap_cons, List.length_append, List.length_cons,
      semiblockBytes_length] at ih ⊢; omega

/-! ### What a step and a whole transform leave alone -/

@[simp] theorem wStep_err (P : Params) (k : CipherState) (base n : Nat) (p : Nat × Nat) (s : State) :
    (wStep P k base n p s).err = s.err := by simp [wStep, writeSemiblock]
@[simp] theorem wStep_done (P : Params) (k : CipherState) (base n : Nat) (p : Nat × Nat) (s : State) :
    (wStep P k base n p s).done = s.done := by simp [wStep, writeSemiblock]
@[simp] theorem wStep_inLen (P : Params) (k : CipherState) (base n : Nat) (p : Nat × Nat) (s : State) :
    (wStep P k base n p s).inLen = s.inLen := by simp [wStep, writeSemiblock]
@[simp] theorem wStep_outLen (P : Params) (k : CipherState) (base n : Nat) (p : Nat × Nat) (s : State) :
    (wStep P k base n p s).outLen = s.outLen := by simp [wStep, writeSemiblock]
@[simp] theorem wStep_kekLen (P : Params) (k : CipherState) (base n : Nat) (p : Nat × Nat) (s : State) :
    (wStep P k base n p s).kekLen = s.kekLen := by simp [wStep, writeSemiblock]
@[simp] theorem wStep_resultLen (P : Params) (k : CipherState) (base n : Nat) (p : Nat × Nat) (s : State) :
    (wStep P k base n p s).resultLen = s.resultLen := by simp [wStep, writeSemiblock]
@[simp] theorem wStep_errInfo (P : Params) (k : CipherState) (base n : Nat) (p : Nat × Nat) (s : State) :
    (wStep P k base n p s).errInfo = s.errInfo := by simp [wStep, writeSemiblock]
@[simp] theorem wStep_inp (P : Params) (k : CipherState) (base n : Nat) (p : Nat × Nat) (s : State) :
    (wStep P k base n p s).inp = s.inp := by simp [wStep, writeSemiblock]
@[simp] theorem wStep_key (P : Params) (k : CipherState) (base n : Nat) (p : Nat × Nat) (s : State) :
    (wStep P k base n p s).key = s.key := by simp [wStep, writeSemiblock]
@[simp] theorem wStep_kek (P : Params) (k : CipherState) (base n : Nat) (p : Nat × Nat) (s : State) :
    (wStep P k base n p s).kek = s.kek := by simp [wStep, writeSemiblock]
@[simp] theorem wStep_seq (P : Params) (k : CipherState) (base n : Nat) (p : Nat × Nat) (s : State) :
    (wStep P k base n p s).seq = forwardNext n p := by simp [wStep, writeSemiblock]
@[simp] theorem wStep_ctr (P : Params) (k : CipherState) (base n : Nat) (p : Nat × Nat) (s : State) :
    (wStep P k base n p s).ctr = some (roundCounter n p.1 p.2) := by simp [wStep, writeSemiblock]
@[simp] theorem wStep_count (P : Params) (k : CipherState) (base n : Nat) (p : Nat × Nat) (s : State) :
    (wStep P k base n p s).count = s.count := by simp [wStep, writeSemiblock]
@[simp] theorem wStep_pending (P : Params) (k : CipherState) (base n : Nat) (p : Nat × Nat) (s : State) :
    (wStep P k base n p s).pending = s.pending := by simp [wStep, writeSemiblock]
@[simp] theorem wStep_returned (P : Params) (k : CipherState) (base n : Nat) (p : Nat × Nat) (s : State) :
    (wStep P k base n p s).returned = s.returned := by simp [wStep, writeSemiblock]
@[simp] theorem wStep_resets (P : Params) (k : CipherState) (base n : Nat) (p : Nat × Nat) (s : State) :
    (wStep P k base n p s).resets = s.resets := by simp [wStep, writeSemiblock]

@[simp] theorem winvStep_err (P : Params) (k : CipherState) (base n : Nat) (p : Nat × Nat) (s : State) :
    (winvStep P k base n p s).err = s.err := by simp [winvStep, writeSemiblock]
@[simp] theorem winvStep_done (P : Params) (k : CipherState) (base n : Nat) (p : Nat × Nat) (s : State) :
    (winvStep P k base n p s).done = s.done := by simp [winvStep, writeSemiblock]
@[simp] theorem winvStep_inLen (P : Params) (k : CipherState) (base n : Nat) (p : Nat × Nat) (s : State) :
    (winvStep P k base n p s).inLen = s.inLen := by simp [winvStep, writeSemiblock]
@[simp] theorem winvStep_outLen (P : Params) (k : CipherState) (base n : Nat) (p : Nat × Nat) (s : State) :
    (winvStep P k base n p s).outLen = s.outLen := by simp [winvStep, writeSemiblock]
@[simp] theorem winvStep_kekLen (P : Params) (k : CipherState) (base n : Nat) (p : Nat × Nat) (s : State) :
    (winvStep P k base n p s).kekLen = s.kekLen := by simp [winvStep, writeSemiblock]
@[simp] theorem winvStep_resultLen (P : Params) (k : CipherState) (base n : Nat) (p : Nat × Nat) (s : State) :
    (winvStep P k base n p s).resultLen = s.resultLen := by simp [winvStep, writeSemiblock]
@[simp] theorem winvStep_errInfo (P : Params) (k : CipherState) (base n : Nat) (p : Nat × Nat) (s : State) :
    (winvStep P k base n p s).errInfo = s.errInfo := by simp [winvStep, writeSemiblock]
@[simp] theorem winvStep_inp (P : Params) (k : CipherState) (base n : Nat) (p : Nat × Nat) (s : State) :
    (winvStep P k base n p s).inp = s.inp := by simp [winvStep, writeSemiblock]
@[simp] theorem winvStep_key (P : Params) (k : CipherState) (base n : Nat) (p : Nat × Nat) (s : State) :
    (winvStep P k base n p s).key = s.key := by simp [winvStep, writeSemiblock]
@[simp] theorem winvStep_kek (P : Params) (k : CipherState) (base n : Nat) (p : Nat × Nat) (s : State) :
    (winvStep P k base n p s).kek = s.kek := by simp [winvStep, writeSemiblock]
@[simp] theorem winvStep_seq (P : Params) (k : CipherState) (base n : Nat) (p : Nat × Nat) (s : State) :
    (winvStep P k base n p s).seq = inverseNext n p := by simp [winvStep, writeSemiblock]
@[simp] theorem winvStep_ctr (P : Params) (k : CipherState) (base n : Nat) (p : Nat × Nat) (s : State) :
    (winvStep P k base n p s).ctr = some (roundCounter n p.1 p.2) := by simp [winvStep, writeSemiblock]
@[simp] theorem winvStep_count (P : Params) (k : CipherState) (base n : Nat) (p : Nat × Nat) (s : State) :
    (winvStep P k base n p s).count = s.count := by simp [winvStep, writeSemiblock]
@[simp] theorem winvStep_pending (P : Params) (k : CipherState) (base n : Nat) (p : Nat × Nat) (s : State) :
    (winvStep P k base n p s).pending = s.pending := by simp [winvStep, writeSemiblock]
@[simp] theorem winvStep_returned (P : Params) (k : CipherState) (base n : Nat) (p : Nat × Nat) (s : State) :
    (winvStep P k base n p s).returned = s.returned := by simp [winvStep, writeSemiblock]
@[simp] theorem winvStep_resets (P : Params) (k : CipherState) (base n : Nat) (p : Nat × Nat) (s : State) :
    (winvStep P k base n p s).resets = s.resets := by simp [winvStep, writeSemiblock]

/-- A property every step keeps, a whole run of steps keeps. -/
theorem foldl_keeps {σ α : Type} (f : σ → α → σ) (Q : σ → Prop) (h : ∀ s a, Q s → Q (f s a)) (l : List α)
    (s : σ) (hs : Q s) : Q (l.foldl f s) := by
  induction l generalizing s with
  | nil => exact hs
  | cons a l ih => exact ih _ (h s a hs)

/-! ### A run of the sequencer -/

theorem forwardAdvance_of {P : Params} {k : CipherState} {base n : Nat} {p : Nat × Nat} {s : State} (hp : s.seq = some p)
    (hn : s.count = some n) : forwardAdvance P k base s = wStep P k base n p s := by
  simp [forwardAdvance, hp, hn]

/-- The last of m + 1 steps comes after the first m. -/
theorem forwardRun_succ (P : Params) (k : CipherState) (base m : Nat) (s : State) :
    forwardRun P k base (m + 1) s = forwardAdvance P k base (forwardRun P k base m s) := by
  induction m generalizing s with
  | zero => rfl
  | succ m ih => rw [forwardRun, ih, ← forwardRun]

/-- Where the sequencer's moves follow a list of positions, the run performs the steps of the list. -/
theorem forwardRun_eq_foldl {P : Params} {k : CipherState} {base n : Nat} {l : List (Nat × Nat)} {s : State}
    (hn : s.count = some n) (h0 : s.seq = l[0]?) (hs : ∀ m p, l[m]? = some p → l[m + 1]? = forwardNext n p) :
    forwardRun P k base l.length s = l.foldl (fun s p => wStep P k base n p s) s := by
  induction l generalizing s with
  | nil => rfl
  | cons p l ih =>
    rw [List.length_cons, forwardRun, forwardAdvance_of h0 hn, List.foldl_cons,
      ih (by simp [hn]) (by simpa using (hs 0 p rfl).symm) fun m q hq => by simpa using hs (m + 1) q (by simpa using hq)]

theorem inverseAdvance_of {P : Params} {k : CipherState} {base n : Nat} {p : Nat × Nat} {s : State} (hp : s.seq = some p)
    (hn : s.count = some n) : inverseAdvance P k base s = winvStep P k base n p s := by
  simp [inverseAdvance, hp, hn]

/-- The last of m + 1 steps comes after the first m. -/
theorem inverseRun_succ (P : Params) (k : CipherState) (base m : Nat) (s : State) :
    inverseRun P k base (m + 1) s = inverseAdvance P k base (inverseRun P k base m s) := by
  induction m generalizing s with
  | zero => rfl
  | succ m ih => rw [inverseRun, ih, ← inverseRun]

/-- Where the sequencer's moves follow a list of positions, the run performs the steps of the list. -/
theorem inverseRun_eq_foldl {P : Params} {k : CipherState} {base n : Nat} {l : List (Nat × Nat)} {s : State}
    (hn : s.count = some n) (h0 : s.seq = l[0]?) (hs : ∀ m p, l[m]? = some p → l[m + 1]? = inverseNext n p) :
    inverseRun P k base l.length s = l.foldl (fun s p => winvStep P k base n p s) s := by
  induction l generalizing s with
  | nil => rfl
  | cons p l ih =>
    rw [List.length_cons, inverseRun, inverseAdvance_of h0 hn, List.foldl_cons,
      ih (by simp [hn]) (by simpa using (hs 0 p rfl).symm) fun m q hq => by simpa using hs (m + 1) q (by simpa using hq)]

/-- What every forward step keeps, a run of the sequencer keeps. -/
theorem forwardRun_keeps {P : Params} {k : CipherState} {base : Nat} {Q : State → Prop}
    (h : ∀ n p s, Q s → Q (wStep P k base n p s)) (m : Nat) (s : State) (hs : Q s) : Q (forwardRun P k base m s) := by
  induction m generalizing s with
  | zero => exact hs
  | succ m ih =>
    refine ih _ ?_
    unfold forwardAdvance
    split
    · exact h _ _ _ hs
    · exact hs

/-- What every inverse step keeps, a run of the sequencer keeps. -/
theorem inverseRun_keeps {P : Params} {k : CipherState} {base : Nat} {Q : State → Prop}
    (h : ∀ n p s, Q s → Q (winvStep P k base n p s)) (m : Nat) (s : State) (hs : Q s) : Q (inverseRun P k base m s) := by
  induction m generalizing s with
  | zero => exact hs
  | succ m ih =>
    refine ih _ ?_
    unfold inverseAdvance
    split
    · exact h _ _ _ hs
    · exact hs

@[simp] theorem transformW_err (P : Params) (k : CipherState) (base n : Nat) (s : State) :
    (transformW P k base n s).err = s.err :=
  forwardRun_keeps (Q := fun t => t.err = s.err) (fun n p t h => by rw [wStep_err, h]) _ _ rfl
@[simp] theorem transformW_done (P : Params) (k : CipherState) (base n : Nat) (s : State) :
    (transformW P k base n s).done = s.done :=
  forwardRun_keeps (Q := fun t => t.done = s.done) (fun n p t h => by rw [wStep_done, h]) _ _ rfl
@[simp] theorem transformW_inLen (P : Params) (k : CipherState) (base n : Nat) (s : State) :
    (transformW P k base n s).inLen = s.inLen :=
  forwardRun_keeps (Q := fun t => t.inLen = s.inLen) (fun n p t h => by rw [wStep_inLen, h]) _ _ rfl
@[simp] theorem transformW_outLen (P : Params) (k : CipherState) (base n : Nat) (s : State) :
    (transformW P k base n s).outLen = s.outLen :=
  forwardRun_keeps (Q := fun t => t.outLen = s.outLen) (fun n p t h => by rw [wStep_outLen, h]) _ _ rfl
@[simp] theorem transformW_kekLen (P : Params) (k : CipherState) (base n : Nat) (s : State) :
    (transformW P k base n s).kekLen = s.kekLen :=
  forwardRun_keeps (Q := fun t => t.kekLen = s.kekLen) (fun n p t h => by rw [wStep_kekLen, h]) _ _ rfl
@[simp] theorem transformW_resultLen (P : Params) (k : CipherState) (base n : Nat) (s : State) :
    (transformW P k base n s).resultLen = s.resultLen :=
  forwardRun_keeps (Q := fun t => t.resultLen = s.resultLen) (fun n p t h => by rw [wStep_resultLen, h]) _ _ rfl
@[simp] theorem transformW_errInfo (P : Params) (k : CipherState) (base n : Nat) (s : State) :
    (transformW P k base n s).errInfo = s.errInfo :=
  forwardRun_keeps (Q := fun t => t.errInfo = s.errInfo) (fun n p t h => by rw [wStep_errInfo, h]) _ _ rfl
@[simp] theorem transformW_inp (P : Params) (k : CipherState) (base n : Nat) (s : State) :
    (transformW P k base n s).inp = s.inp :=
  forwardRun_keeps (Q := fun t => t.inp = s.inp) (fun n p t h => by rw [wStep_inp, h]) _ _ rfl
@[simp] theorem transformW_key (P : Params) (k : CipherState) (base n : Nat) (s : State) :
    (transformW P k base n s).key = s.key :=
  forwardRun_keeps (Q := fun t => t.key = s.key) (fun n p t h => by rw [wStep_key, h]) _ _ rfl
@[simp] theorem transformW_kek (P : Params) (k : CipherState) (base n : Nat) (s : State) :
    (transformW P k base n s).kek = s.kek :=
  forwardRun_keeps (Q := fun t => t.kek = s.kek) (fun n p t h => by rw [wStep_kek, h]) _ _ rfl
@[simp] theorem transformW_pending (P : Params) (k : CipherState) (base n : Nat) (s : State) :
    (transformW P k base n s).pending = s.pending :=
  forwardRun_keeps (Q := fun t => t.pending = s.pending) (fun n p t h => by rw [wStep_pending, h]) _ _ rfl
@[simp] theorem transformW_returned (P : Params) (k : CipherState) (base n : Nat) (s : State) :
    (transformW P k base n s).returned = s.returned :=
  forwardRun_keeps (Q := fun t => t.returned = s.returned) (fun n p t h => by rw [wStep_returned, h]) _ _ rfl
@[simp] theorem transformW_resets (P : Params) (k : CipherState) (base n : Nat) (s : State) :
    (transformW P k base n s).resets = s.resets :=
  forwardRun_keeps (Q := fun t => t.resets = s.resets) (fun n p t h => by rw [wStep_resets, h]) _ _ rfl

@[simp] theorem transformWinv_err (P : Params) (k : CipherState) (base n : Nat) (s : State) :
    (transformWinv P k base n s).err = s.err :=
  inverseRun_keeps (Q := fun t => t.err = s.err) (fun n p t h => by rw [winvStep_err, h]) _ _ rfl
@[simp] theorem transformWinv_done (P : Params) (k : CipherState) (base n : Nat) (s : State) :
    (transformWinv P k base n s).done = s.done :=
  inverseRun_keeps (Q := fun t => t.done = s.done) (fun n p t h => by rw [winvStep_done, h]) _ _ rfl
@[simp] theorem transformWinv_inLen (P : Params) (k : CipherState) (base n : Nat) (s : State) :
    (transformWinv P k base n s).inLen = s.inLen :=
  inverseRun_keeps (Q := fun t => t.inLen = s.inLen) (fun n p t h => by rw [winvStep_inLen, h]) _ _ rfl
@[simp] theorem transformWinv_outLen (P : Params) (k : CipherState) (base n : Nat) (s : State) :
    (transformWinv P k base n s).outLen = s.outLen :=
  inverseRun_keeps (Q := fun t => t.outLen = s.outLen) (fun n p t h => by rw [winvStep_outLen, h]) _ _ rfl
@[simp] theorem transformWinv_kekLen (P : Params) (k : CipherState) (base n : Nat) (s : State) :
    (transformWinv P k base n s).kekLen = s.kekLen :=
  inverseRun_keeps (Q := fun t => t.kekLen = s.kekLen) (fun n p t h => by rw [winvStep_kekLen, h]) _ _ rfl
@[simp] theorem transformWinv_resultLen (P : Params) (k : CipherState) (base n : Nat) (s : State) :
    (transformWinv P k base n s).resultLen = s.resultLen :=
  inverseRun_keeps (Q := fun t => t.resultLen = s.resultLen) (fun n p t h => by rw [winvStep_resultLen, h]) _ _ rfl
@[simp] theorem transformWinv_errInfo (P : Params) (k : CipherState) (base n : Nat) (s : State) :
    (transformWinv P k base n s).errInfo = s.errInfo :=
  inverseRun_keeps (Q := fun t => t.errInfo = s.errInfo) (fun n p t h => by rw [winvStep_errInfo, h]) _ _ rfl
@[simp] theorem transformWinv_inp (P : Params) (k : CipherState) (base n : Nat) (s : State) :
    (transformWinv P k base n s).inp = s.inp :=
  inverseRun_keeps (Q := fun t => t.inp = s.inp) (fun n p t h => by rw [winvStep_inp, h]) _ _ rfl
@[simp] theorem transformWinv_key (P : Params) (k : CipherState) (base n : Nat) (s : State) :
    (transformWinv P k base n s).key = s.key :=
  inverseRun_keeps (Q := fun t => t.key = s.key) (fun n p t h => by rw [winvStep_key, h]) _ _ rfl
@[simp] theorem transformWinv_kek (P : Params) (k : CipherState) (base n : Nat) (s : State) :
    (transformWinv P k base n s).kek = s.kek :=
  inverseRun_keeps (Q := fun t => t.kek = s.kek) (fun n p t h => by rw [winvStep_kek, h]) _ _ rfl
@[simp] theorem transformWinv_pending (P : Params) (k : CipherState) (base n : Nat) (s : State) :
    (transformWinv P k base n s).pending = s.pending :=
  inverseRun_keeps (Q := fun t => t.pending = s.pending) (fun n p t h => by rw [winvStep_pending, h]) _ _ rfl
@[simp] theorem transformWinv_returned (P : Params) (k : CipherState) (base n : Nat) (s : State) :
    (transformWinv P k base n s).returned = s.returned :=
  inverseRun_keeps (Q := fun t => t.returned = s.returned) (fun n p t h => by rw [winvStep_returned, h]) _ _ rfl
@[simp] theorem transformWinv_resets (P : Params) (k : CipherState) (base n : Nat) (s : State) :
    (transformWinv P k base n s).resets = s.resets :=
  inverseRun_keeps (Q := fun t => t.resets = s.resets) (fun n p t h => by rw [winvStep_resets, h]) _ _ rfl

/-- Every position of the forward order names one of the n semiblocks. -/
theorem forwardOrder_lt {n : Nat} {p : Nat × Nat} (h : p ∈ forwardOrder n) : p.1 < 6 ∧ p.2 < n := by
  simp only [forwardOrder, List.mem_flatMap, List.mem_range, List.mem_map] at h
  obtain ⟨j, hj, i, hi, rfl⟩ := h
  exact ⟨hj, hi⟩

/-- Every position of the inverse order names one of the n semiblocks. -/
theorem inverseOrder_lt {n : Nat} {p : Nat × Nat} (h : p ∈ inverseOrder n) : p.1 < 6 ∧ p.2 < n := by
  simp only [inverseOrder, List.mem_flatMap, List.mem_reverse, List.mem_range, List.mem_map] at h
  obtain ⟨j, hj, i, hi, rfl⟩ := h
  exact ⟨hj, hi⟩

/-- A forward step writes R[i] and no other byte of OUT (R142). -/
theorem readByte_wStep (P : Params) (k : CipherState) (base n : Nat) (p : Nat × Nat) (s : State) (a : Nat)
    (h : a < base + 8 * p.2 ∨ base + 8 * p.2 + 8 ≤ a) :
    readByte (wStep P k base n p s) .out a = readByte s .out a := by
  simp only [wStep]
  rw [readByte_setSeq, readByte_writeSemiblock _ _ _ _ _ h]
  simp

/-- An inverse step writes R[i] and no other byte of OUT (R144). -/
theorem readByte_winvStep (P : Params) (k : CipherState) (base n : Nat) (p : Nat × Nat) (s : State) (a : Nat)
    (h : a < base + 8 * p.2 ∨ base + 8 * p.2 + 8 ≤ a) :
    readByte (winvStep P k base n p s) .out a = readByte s .out a := by
  simp only [winvStep]
  rw [readByte_setSeq, readByte_writeSemiblock _ _ _ _ _ h]
  simp

/-- The sequencer stands at a semiblock of the n, whenever it stands anywhere. -/
def Positioned (n : Nat) (s : State) : Prop := s.count = some n ∧ ∀ p, s.seq = some p → p.2 < n

theorem Positioned.forwardAdvance {n : Nat} {s : State} (h : Positioned n s) (P : Params) (k : CipherState)
    (base : Nat) : Positioned n (forwardAdvance P k base s) := by
  unfold Machine.forwardAdvance
  split
  · rename_i p n' hp hn'
    obtain rfl : n' = n := Option.some.inj (hn'.symm.trans h.1)
    have hlt := h.2 p hp
    refine ⟨by simp [h.1], fun q hq => ?_⟩
    obtain ⟨j, i⟩ := p
    simp only [wStep_seq, forwardNext] at hq
    split at hq
    · obtain rfl := Option.some.inj hq; assumption
    · split at hq
      · obtain rfl := Option.some.inj hq; exact Nat.lt_of_le_of_lt (Nat.zero_le _) hlt
      · cases hq
  · exact h

theorem Positioned.inverseAdvance {n : Nat} {s : State} (h : Positioned n s) (P : Params) (k : CipherState)
    (base : Nat) : Positioned n (inverseAdvance P k base s) := by
  unfold Machine.inverseAdvance
  split
  · rename_i p n' hp hn'
    obtain rfl : n' = n := Option.some.inj (hn'.symm.trans h.1)
    have hlt := h.2 p hp
    refine ⟨by simp [h.1], fun q hq => ?_⟩
    obtain ⟨j, i⟩ := p
    simp only [winvStep_seq, inverseNext] at hq hlt
    split at hq
    · obtain rfl := Option.some.inj hq; show i - 1 < n'; omega
    · split at hq
      · obtain rfl := Option.some.inj hq; show n' - 1 < n'; omega
      · cases hq
  · exact h

/-- W writes no byte of OUT outside its region (R148). -/
theorem readByte_transformW (P : Params) (k : CipherState) (base n : Nat) (s : State) (a : Nat)
    (h : a < base ∨ base + 8 * n ≤ a) : readByte (transformW P k base n s) .out a = readByte s .out a := by
  have run : ∀ m u, Positioned n u → readByte (forwardRun P k base m u) .out a = readByte u .out a := by
    intro m
    induction m with
    | zero => exact fun _ _ => rfl
    | succ m ih =>
      intro u hu
      rw [forwardRun, ih _ (hu.forwardAdvance P k base), forwardAdvance]
      split
      · rename_i p n' hp hn'
        have := hu.2 p hp
        exact readByte_wStep _ _ _ _ _ _ _ (by omega)
      · rfl
  by_cases hn : n = 0
  · subst hn; simp [transformW, forwardRun, forwardStart]
  · rw [transformW, run _ _ ⟨rfl, fun p hp => by obtain rfl := Option.some.inj hp; exact Nat.pos_of_ne_zero hn⟩]
    simp [forwardStart]

/-- Winv writes no byte of OUT outside its region (R148). -/
theorem readByte_transformWinv (P : Params) (k : CipherState) (base n : Nat) (s : State) (a : Nat)
    (h : a < base ∨ base + 8 * n ≤ a) : readByte (transformWinv P k base n s) .out a = readByte s .out a := by
  have run : ∀ m u, Positioned n u → readByte (inverseRun P k base m u) .out a = readByte u .out a := by
    intro m
    induction m with
    | zero => exact fun _ _ => rfl
    | succ m ih =>
      intro u hu
      rw [inverseRun, ih _ (hu.inverseAdvance P k base), inverseAdvance]
      split
      · rename_i p n' hp hn'
        have := hu.2 p hp
        exact readByte_winvStep _ _ _ _ _ _ _ (by omega)
      · rfl
  by_cases hn : n = 0
  · subst hn; simp [transformWinv, inverseRun, inverseStart]
  · rw [transformWinv, run _ _ ⟨rfl, fun p hp => by obtain rfl := Option.some.inj hp; exact Nat.sub_lt (by omega) Nat.one_pos⟩]
    simp [inverseStart]

/-- One forward step on A and the list of semiblocks (R142). -/
theorem wStep_flat (P : Params) (k : CipherState) (base n : Nat) (p : Nat × Nat) (s : State) (h : p.2 < n) :
    ((wStep P k base n p s).acc, semiblocksAt (wStep P k base n p s) .out base n) =
      let b := P.cipher.enc k (joinBlock s.acc ((semiblocksAt s .out base n).getD p.2 0))
      (high b ^^^ be64 (roundCounter n p.1 p.2), (semiblocksAt s .out base n).set p.2 (low b)) := by
  simp only [wStep, semiblocksAt_setSeq, semiblocksAt_writeSemiblock, semiblocksAt_getD _ _ _ _ h]
  simp [writeSemiblock]

/-- One inverse step on A and the list of semiblocks (R144). -/
theorem winvStep_flat (P : Params) (k : CipherState) (base n : Nat) (p : Nat × Nat) (s : State) (h : p.2 < n) :
    ((winvStep P k base n p s).acc, semiblocksAt (winvStep P k base n p s) .out base n) =
      let b := P.cipher.dec k (joinBlock (s.acc ^^^ be64 (roundCounter n p.1 p.2)) ((semiblocksAt s .out base n).getD p.2 0))
      (high b, (semiblocksAt s .out base n).set p.2 (low b)) := by
  simp only [winvStep, semiblocksAt_setSeq, semiblocksAt_writeSemiblock, semiblocksAt_getD _ _ _ _ h]
  simp [writeSemiblock]

/-! ### The flat form -/

theorem flatStep_length (P : Params) (k : CipherState) (n : Nat) (x : Semiblock × List Semiblock) (t : Nat) :
    (flatStep P k n x t).2.length = x.2.length := by simp [flatStep]

theorem flatInvStep_length (P : Params) (k : CipherState) (n : Nat) (x : Semiblock × List Semiblock) (t : Nat) :
    (flatInvStep P k n x t).2.length = x.2.length := by simp [flatInvStep]

theorem flatW_length (P : Params) (k : CipherState) (x : Semiblock × List Semiblock) :
    (flatW P k x).2.length = x.2.length := by
  rw [flatW]
  exact foldl_keeps _ (fun y => y.2.length = x.2.length) (fun y t h => by rw [flatStep_length, h]) _ x rfl

theorem flatWinv_length (P : Params) (k : CipherState) (x : Semiblock × List Semiblock) :
    (flatWinv P k x).2.length = x.2.length := by
  rw [flatWinv]
  exact foldl_keeps _ (fun y => y.2.length = x.2.length) (fun y t h => by rw [flatInvStep_length, h]) _ x rfl

/-- `Dec` undoes `Enc` for a state that `init` made (R122). -/
theorem dec_enc_of_fromInit {P : Params} {k : CipherState} (hk : FromInit P k) (b : Block) :
    P.cipher.dec k (P.cipher.enc k b) = b := by
  obtain ⟨key, hkey, rfl⟩ := hk
  exact P.cipher.dec_enc key hkey b

/-- `Enc` undoes `Dec` as well, because there are finitely many blocks (R122). -/
theorem enc_dec_of_fromInit {P : Params} {k : CipherState} (hk : FromInit P k) (b : Block) :
    P.cipher.enc k (P.cipher.dec k b) = b := by
  have hinj : Function.Injective (P.cipher.enc k) := Function.LeftInverse.injective (dec_enc_of_fromInit hk)
  let e : Block ≃ Fin (2 ^ 128) :=
    ⟨BitVec.toFin, BitVec.ofFin, fun _ => rfl, fun _ => rfl⟩
  have hsurj : Function.Surjective (P.cipher.enc k) := by
    have : Finite Block := Finite.of_equiv _ e.symm
    exact Finite.surjective_of_injective hinj
  obtain ⟨c, rfl⟩ := hsurj b
  rw [dec_enc_of_fromInit hk]

/-- An inverse step undoes the forward step of the same number (R149). -/
theorem flatInvStep_flatStep {P : Params} {k : CipherState} (hk : FromInit P k) {n : Nat}
    {x : Semiblock × List Semiblock} (hn : 1 ≤ n) (hx : x.2.length = n) (t : Nat) :
    flatInvStep P k n (flatStep P k n x t) t = x := by
  obtain ⟨a, R⟩ := x
  have hi : (t - 1) % n < R.length := by rw [show R.length = n from hx]; exact Nat.mod_lt _ hn
  simp only [flatStep, flatInvStep]
  generalize (t - 1) % n = i at hi
  have hg : (R.set i (low (P.cipher.enc k (joinBlock a (R.getD i 0))))).getD i 0 =
      low (P.cipher.enc k (joinBlock a (R.getD i 0))) := by simp [List.getD, hi]
  rw [hg, BitVec.xor_assoc, BitVec.xor_self, BitVec.xor_zero, joinBlock_high_low, dec_enc_of_fromInit hk,
    high_joinBlock, low_joinBlock, List.set_set]
  simp [List.getD, hi]

/-- A forward step undoes the inverse step of the same number (R149). -/
theorem flatStep_flatInvStep {P : Params} {k : CipherState} (hk : FromInit P k) {n : Nat}
    {x : Semiblock × List Semiblock} (hn : 1 ≤ n) (hx : x.2.length = n) (t : Nat) :
    flatStep P k n (flatInvStep P k n x t) t = x := by
  obtain ⟨a, R⟩ := x
  have hi : (t - 1) % n < R.length := by rw [show R.length = n from hx]; exact Nat.mod_lt _ hn
  simp only [flatStep, flatInvStep]
  generalize (t - 1) % n = i at hi
  have hg : (R.set i (low (P.cipher.dec k (joinBlock (a ^^^ be64 t) (R.getD i 0))))).getD i 0 =
      low (P.cipher.dec k (joinBlock (a ^^^ be64 t) (R.getD i 0))) := by simp [List.getD, hi]
  rw [hg, joinBlock_high_low, enc_dec_of_fromInit hk, high_joinBlock, low_joinBlock, List.set_set, BitVec.xor_assoc,
    BitVec.xor_self, BitVec.xor_zero]
  simp [List.getD, hi]

/-- A run of steps, then the inverse steps in reverse order, changes nothing. -/
theorem foldl_reverse_undo {σ α : Type} (f g : σ → α → σ) (Q : σ → Prop) (hf : ∀ x a, Q x → Q (f x a))
    (h : ∀ x a, Q x → g (f x a) a = x) (l : List α) (x : σ) (hx : Q x) : l.reverse.foldl g (l.foldl f x) = x := by
  induction l generalizing x with
  | nil => rfl
  | cons a l ih =>
    rw [List.foldl_cons, List.reverse_cons, List.foldl_append, ih _ (hf x a hx)]
    exact h x a hx

/-- The flat inverse undoes the flat forward transform (R149), on lists of semiblocks. -/
theorem flatWinv_flatW {P : Params} {k : CipherState} (hk : FromInit P k) {x : Semiblock × List Semiblock}
    (hn : 1 ≤ x.2.length) : flatWinv P k (flatW P k x) = x := by
  rw [flatWinv, flatW_length, flatW]
  exact foldl_reverse_undo (flatStep P k x.2.length) (flatInvStep P k x.2.length) (fun y => y.2.length = x.2.length)
    (fun y t h => by rw [flatStep_length, h]) (fun y t h => flatInvStep_flatStep hk hn h t) _ x rfl

/-- The flat forward transform undoes the flat inverse (R149), on lists of semiblocks. -/
theorem flatW_flatWinv {P : Params} {k : CipherState} (hk : FromInit P k) {x : Semiblock × List Semiblock}
    (hn : 1 ≤ x.2.length) : flatW P k (flatWinv P k x) = x := by
  rw [flatW, flatWinv_length, flatWinv]
  have := foldl_reverse_undo (flatInvStep P k x.2.length) (flatStep P k x.2.length) (fun y => y.2.length = x.2.length)
    (fun y t h => by rw [flatInvStep_length, h]) (fun y t h => flatStep_flatInvStep hk hn h t)
    (stepNumbers x.2.length).reverse x rfl
  rwa [List.reverse_reverse] at this

end Sys2Proof.Machine
end

