-- ==== Sys2Proof/Laws/Codec.lean ====
section
/-! SUPPORT. What a codec command can do (R237, R243): the cases of `codec`, once, and what each operation of a
codec's body leaves alone. -/

namespace Sys2Proof.Machine

open Sys2Proof

/-- Everything `codec` can do: four ways to stop before its own work (R237), or the work itself. -/
theorem codec_cases (P : Params) (required : Nat → Option Nat) (body : CipherState → Nat → Nat → State → State)
    (s : State) :
    (s.kek = none ∧ codec P required body s = raise .kekNotLoaded s) ∨
    (∃ k, s.kek = some k ∧ required s.inLen.toNat = none ∧ codec P required body s = raise .invalidDataSize s) ∨
    (∃ k E, s.kek = some k ∧ required s.inLen.toNat = some E ∧ (s.inLen.toNat > P.bufBytes ∨ E > P.bufBytes) ∧
      codec P required body s = raise .invalidDataSize s) ∨
    (∃ k E, s.kek = some k ∧ required s.inLen.toNat = some E ∧ s.inLen.toNat ≤ P.bufBytes ∧ E ≤ P.bufBytes ∧
      s.outLen.toNat ≠ E ∧ codec P required body s = raise (.invalidOutputSize (BitVec.ofNat 64 E)) s) ∨
    (∃ k E, s.kek = some k ∧ required s.inLen.toNat = some E ∧ s.inLen.toNat ≤ P.bufBytes ∧ E ≤ P.bufBytes ∧
      s.outLen.toNat = E ∧ codec P required body s = body k s.inLen.toNat E s) := by
  unfold codec
  cases hk : s.kek with
  | none => simp
  | some k =>
    cases hE : required s.inLen.toNat with
    | none => simp
    | some E =>
      by_cases hc : s.inLen.toNat > P.bufBytes ∨ E > P.bufBytes
      · exact .inr (.inr (.inl ⟨k, E, rfl, rfl, hc, by simp [hc]⟩))
      · have hc' := not_or.mp hc
        by_cases ho : s.outLen.toNat = E
        · exact .inr (.inr (.inr (.inr ⟨k, E, rfl, rfl, Nat.not_lt.mp hc'.1, Nat.not_lt.mp hc'.2, ho, by simp [hc, ho]⟩)))
        · exact .inr (.inr (.inr (.inl ⟨k, E, rfl, rfl, Nat.not_lt.mp hc'.1, Nat.not_lt.mp hc'.2, ho, by simp [hc, ho]⟩)))

/-- When every operand test passes, a codec command is its own work (R237). -/
theorem codec_eq_body {P : Params} {required : Nat → Option Nat} {s : State} {k : CipherState} {E : Nat}
    (body : CipherState → Nat → Nat → State → State) (hk : s.kek = some k) (hE : required s.inLen.toNat = some E)
    (hL : s.inLen.toNat ≤ P.bufBytes) (hB : E ≤ P.bufBytes) (hO : s.outLen.toNat = E) :
    codec P required body s = body k s.inLen.toNat E s := by
  simp [codec, hk, hE, Nat.not_lt.mpr hL, Nat.not_lt.mpr hB, hO]

/-! ### What is kept -/

theorem CommandKeeps.refl (s : State) : CommandKeeps s s := ⟨rfl, rfl, rfl, fun _ => rfl, rfl, rfl, rfl⟩

theorem CodecKeeps.refl (s : State) : CodecKeeps s s := ⟨CommandKeeps.refl s, fun _ => rfl, rfl⟩

/-- A state that differs from one that keeps everything in the outcome, OUT and the transients alone keeps
everything too. -/
theorem CodecKeeps.of_eq {s t u : State} (h : CodecKeeps s t) (h1 : u.inLen = t.inLen) (h2 : u.outLen = t.outLen)
    (h3 : u.kekLen = t.kekLen) (h4 : u.inp = t.inp) (h5 : u.pending = t.pending) (h6 : u.returned = t.returned)
    (h7 : u.resets = t.resets) (h8 : u.key = t.key) (h9 : u.kek = t.kek) : CodecKeeps s u where
  inLen := h1.trans h.inLen
  outLen := h2.trans h.outLen
  kekLen := h3.trans h.kekLen
  inp a := (readByte_congr (s := t) (S := .inp) h4 h7 a).trans (h.inp a)
  pending := h5.trans h.pending
  returned := h6.trans h.returned
  resets := h7.trans h.resets
  key a := (readByte_congr (s := t) (S := .key) h8 h7 a).trans (h.key a)
  kek := h9.trans h.kek

theorem CodecKeeps.raise {s t : State} (h : CodecKeeps s t) (e : EngineError) : CodecKeeps s (raise e t) :=
  h.of_eq rfl rfl rfl rfl rfl rfl rfl rfl rfl

theorem CodecKeeps.complete {s t : State} (h : CodecKeeps s t) (n : Nat) : CodecKeeps s (complete n t) :=
  h.of_eq rfl rfl rfl rfl rfl rfl rfl rfl rfl

theorem CodecKeeps.setAcc {s t : State} (h : CodecKeeps s t) (x : Semiblock) : CodecKeeps s (t.setAcc x) :=
  h.of_eq rfl rfl rfl rfl rfl rfl rfl rfl rfl

theorem CodecKeeps.setBlk {s t : State} (h : CodecKeeps s t) (b : Block) : CodecKeeps s (t.setBlk b) :=
  h.of_eq rfl rfl rfl rfl rfl rfl rfl rfl rfl

theorem CodecKeeps.setCount {s t : State} (h : CodecKeeps s t) (n : Option Nat) : CodecKeeps s (t.setCount n) :=
  h.of_eq rfl rfl rfl rfl rfl rfl rfl rfl rfl

theorem CodecKeeps.memWrite {s t : State} (h : CodecKeeps s t) (a : Nat) (bs : List Byte) :
    CodecKeeps s (memWrite t .out a bs) := h.of_eq (by simp) (by simp) (by simp) (by simp) (by simp) (by simp) (by simp)
      (by simp) (by simp)

theorem CodecKeeps.transformW {s t : State} (h : CodecKeeps s t) (P : Params) (k : CipherState) (base n : Nat) :
    CodecKeeps s (transformW P k base n t) := h.of_eq (by simp) (by simp) (by simp) (by simp) (by simp) (by simp)
      (by simp) (by simp) (by simp)

theorem CodecKeeps.transformWinv {s t : State} (h : CodecKeeps s t) (P : Params) (k : CipherState) (base n : Nat) :
    CodecKeeps s (transformWinv P k base n t) := h.of_eq (by simp) (by simp) (by simp) (by simp) (by simp) (by simp)
      (by simp) (by simp) (by simp)

/-! ### Bytes of OUT above the output -/

theorem OutKeptFrom.refl (n : Nat) (s : State) : OutKeptFrom n s s := fun _ _ => rfl

theorem OutKeptFrom.raise {n : Nat} {s t : State} (h : OutKeptFrom n s t) (e : EngineError) :
    OutKeptFrom n s (raise e t) := fun a ha => by rw [readByte_raise, h a ha]

theorem OutKeptFrom.complete {n : Nat} {s t : State} (h : OutKeptFrom n s t) (m : Nat) :
    OutKeptFrom n s (complete m t) := fun a ha => by rw [readByte_complete, h a ha]

theorem OutKeptFrom.setAcc {n : Nat} {s t : State} (h : OutKeptFrom n s t) (x : Semiblock) :
    OutKeptFrom n s (t.setAcc x) := fun a ha => by rw [readByte_setAcc, h a ha]

theorem OutKeptFrom.setBlk {n : Nat} {s t : State} (h : OutKeptFrom n s t) (b : Block) :
    OutKeptFrom n s (t.setBlk b) := fun a ha => by rw [readByte_setBlk, h a ha]

theorem OutKeptFrom.setCount {n : Nat} {s t : State} (h : OutKeptFrom n s t) (c : Option Nat) :
    OutKeptFrom n s (t.setCount c) := fun a ha => by rw [readByte_setCount, h a ha]

theorem OutKeptFrom.memWrite {n : Nat} {s t : State} (h : OutKeptFrom n s t) {a : Nat} {bs : List Byte}
    (hb : a + bs.length ≤ n) : OutKeptFrom n s (memWrite t .out a bs) := fun x hx => by
  rw [readByte_memWrite_out, if_neg (by omega), h x hx]

theorem OutKeptFrom.transformW {m : Nat} {s t : State} (h : OutKeptFrom m s t) (P : Params) (k : CipherState)
    {base n : Nat} (hb : base + 8 * n ≤ m) : OutKeptFrom m s (transformW P k base n t) := fun a ha => by
  rw [readByte_transformW P k base n t a (.inr (by omega)), h a ha]

theorem OutKeptFrom.transformWinv {m : Nat} {s t : State} (h : OutKeptFrom m s t) (P : Params) (k : CipherState)
    {base n : Nat} (hb : base + 8 * n ≤ m) : OutKeptFrom m s (transformWinv P k base n t) := fun a ha => by
  rw [readByte_transformWinv P k base n t a (.inr (by omega)), h a ha]

/-! ### The length rules -/

/-- KW_WRAP's accepted lengths (R164). -/
theorem kwWrapLength_eq {L E : Nat} (h : kwWrapLength L = some E) : L % 8 = 0 ∧ 8 ≤ L ∧ E = L + 8 := by
  unfold kwWrapLength at h
  split at h
  · simp at h
  · simp at h; omega

/-- KW_UNWRAP's accepted lengths (R164). -/
theorem kwUnwrapLength_eq {L E : Nat} (h : kwUnwrapLength L = some E) :
    L % 8 = 0 ∧ 16 ≤ L ∧ E = 8 * (L / 8 - 1) ∧ E = L - 8 := by
  unfold kwUnwrapLength at h
  split at h
  · simp at h
  · simp at h; omega

/-- KWP_WRAP's accepted lengths (R190). -/
theorem kwpWrapLength_eq {L E : Nat} (h : kwpWrapLength L = some E) :
    1 ≤ L ∧ L ≤ 4294967295 ∧ E = 8 * ceil8 L + 8 ∧ L ≤ 8 * ceil8 L ∧ 8 * ceil8 L < L + 8 := by
  unfold kwpWrapLength at h
  split at h
  · simp at h
  · simp only [kwpMaxPlain, ceil8, Option.some.injEq] at *; omega

/-- KWP_UNWRAP's accepted lengths (R190). -/
theorem kwpUnwrapLength_eq {L E : Nat} (h : kwpUnwrapLength L = some E) :
    L % 8 = 0 ∧ 16 ≤ L ∧ L ≤ 4294967295 ∧ E = 8 * (L / 8 - 1) ∧ E = L - 8 := by
  unfold kwpUnwrapLength at h
  split at h
  · simp at h
  · simp only [kwpUnwrapMaxBytes, Option.some.injEq] at *; omega

/-- A check that passes gives an MLI inside the buffer (R187). -/
theorem kwpCheck_eq {s : State} {a : Semiblock} {n m : Nat} (h : kwpCheck s a n = some m) :
    headerPrefix a = aivPrefix ∧ m = headerMli a ∧ ceil8 m = n ∧
      memRead s .out m (8 * n - m) = zeros (8 * n - m) ∧ m ≤ 8 * n ∧ 8 * n ≤ m + 7 := by
  unfold kwpCheck at h
  split at h
  · simp at h
  · split at h
    · simp at h
    · split at h
      · simp at h
      · have hm : headerMli a = m := by simpa using h
        subst hm
        simp_all [ceil8]
        omega

/-! ### What each body leaves alone -/

theorem failIntegrity_keeps {s t : State} (h : CodecKeeps s t) (E : Nat) : CodecKeeps s (failIntegrity E t) :=
  (h.memWrite _ _).raise _

theorem failIntegrity_out {s t : State} {E : Nat} (h : OutKeptFrom E s t) : OutKeptFrom E s (failIntegrity E t) :=
  (h.memWrite (by simp)).raise _

theorem kwWrapBody_keeps (P : Params) (k : CipherState) (L E : Nat) (s : State) :
    CodecKeeps s (kwWrapBody P k L E s) :=
  ((((((CodecKeeps.refl s).setAcc _).memWrite _ _).transformW _ _ _ _).memWrite _ _).complete _)

theorem kwWrapBody_out (P : Params) (k : CipherState) {L E : Nat} (s : State) (hL : 8 * (L / 8) + 8 ≤ E)
    (hE : L + 8 ≤ E) : OutKeptFrom E s (kwWrapBody P k L E s) :=
  ((((((OutKeptFrom.refl E s).setAcc _).memWrite (by simp; omega)).transformW _ _ (by omega)).memWrite
    (by simp; omega)).complete _)

theorem kwUnwrapBody_keeps (P : Params) (k : CipherState) (L E : Nat) (s : State) :
    CodecKeeps s (kwUnwrapBody P k L E s) := by
  have h := ((((CodecKeeps.refl s).setAcc (semiblockOf (memRead s .inp 0 8))).memWrite 0
    (memRead (s.setAcc (semiblockOf (memRead s .inp 0 8))) .inp 8 E)).transformWinv P k 0 (L / 8 - 1))
  simp only [kwUnwrapBody]
  split
  · exact failIntegrity_keeps h E
  · exact h.complete E

theorem kwUnwrapBody_out (P : Params) (k : CipherState) {L E : Nat} (s : State) (hE : 8 * (L / 8 - 1) ≤ E) :
    OutKeptFrom E s (kwUnwrapBody P k L E s) := by
  have h := ((((OutKeptFrom.refl E s).setAcc (semiblockOf (memRead s .inp 0 8))).memWrite (a := 0)
    (bs := memRead (s.setAcc (semiblockOf (memRead s .inp 0 8))) .inp 8 E) (by simp)).transformWinv P k
      (base := 0) (n := L / 8 - 1) (by omega))
  simp only [kwUnwrapBody]
  split
  · exact failIntegrity_out h
  · exact h.complete E

theorem kwpWrapBody_keeps (P : Params) (k : CipherState) (L E : Nat) (s : State) :
    CodecKeeps s (kwpWrapBody P k L E s) := by
  simp only [kwpWrapBody]
  split
  · exact ((((CodecKeeps.refl s).setCount _).setBlk _).memWrite _ _).complete _
  · exact ((((((CodecKeeps.refl s).setAcc _).memWrite _ _).memWrite _ _).transformW _ _ _ _).memWrite _ _).complete _

theorem kwpWrapBody_out (P : Params) (k : CipherState) {L E : Nat} (s : State) (hE : E = 8 * ceil8 L + 8)
    (hL : L ≤ 8 * ceil8 L) : OutKeptFrom E s (kwpWrapBody P k L E s) := by
  simp only [kwpWrapBody]
  split
  · exact ((((OutKeptFrom.refl E s).setCount _).setBlk _).memWrite (by simp; omega)).complete _
  · exact ((((((OutKeptFrom.refl E s).setAcc _).memWrite (by simp; omega)).memWrite (by simp; omega)).transformW _ _
      (by omega)).memWrite (by simp; omega)).complete _

theorem kwpRecover_keeps (P : Params) (k : CipherState) (n E : Nat) (s : State) :
    CodecKeeps s (kwpRecover P k n E s) := by
  simp only [kwpRecover]
  split
  · exact (((((CodecKeeps.refl s).setCount _).setBlk _).setAcc _).memWrite _ _)
  · exact (((CodecKeeps.refl s).setAcc _).memWrite _ _).transformWinv _ _ _ _

theorem kwpRecover_out (P : Params) (k : CipherState) {n E : Nat} (s : State) (hE : E = 8 * n) :
    OutKeptFrom E s (kwpRecover P k n E s) := by
  simp only [kwpRecover]
  split
  · exact ((((OutKeptFrom.refl E s).setCount _).setBlk _).setAcc _).memWrite (by simp; omega)
  · exact (((OutKeptFrom.refl E s).setAcc _).memWrite (by simp)).transformWinv _ _ (by omega)

theorem kwpUnwrapBody_keeps (P : Params) (k : CipherState) (L E : Nat) (s : State) :
    CodecKeeps s (kwpUnwrapBody P k L E s) := by
  simp only [kwpUnwrapBody]
  split
  · exact failIntegrity_keeps (kwpRecover_keeps ..) E
  · exact (kwpRecover_keeps ..).complete _

theorem kwpUnwrapBody_out (P : Params) (k : CipherState) {L E : Nat} (s : State) (hE : E = 8 * (L / 8 - 1)) :
    OutKeptFrom E s (kwpUnwrapBody P k L E s) := by
  simp only [kwpUnwrapBody]
  split
  · exact failIntegrity_out (kwpRecover_out P k s hE)
  · exact (kwpRecover_out P k s hE).complete _

end Sys2Proof.Machine
end

