-- ==== Sys2Proof/Laws/Host.lean ====
section
/-! SUPPORT. What one host access and one step can do (R61, R74, R75), said once. -/

namespace Sys2Proof.Machine

open Sys2Proof

/-- The register at an offset is the one with that offset (R21). -/
theorem regAt_eq_some {off : Nat} {r : Reg} : regAt off = some r ↔ off = regOffset r := by
  constructor
  · intro h
    unfold regAt at h
    split at h <;> cases h <;> rfl
  · rintro rfl
    cases r <;> rfl

/-- No register stands at an offset that is no multiple of 8 or lies at 0x38 or above (R41). -/
theorem regAt_eq_none {off : Nat} : regAt off = none ↔ off % 8 ≠ 0 ∨ 0x38 ≤ off := by
  constructor
  · intro h
    by_contra hn
    have : off = 0 ∨ off = 8 ∨ off = 16 ∨ off = 24 ∨ off = 32 ∨ off = 40 ∨ off = 48 := by omega
    rcases this with rfl | rfl | rfl | rfl | rfl | rfl | rfl <;> simp [regAt] at h
  · intro h
    cases hr : regAt off with
    | none => rfl
    | some r =>
      have := regAt_eq_some.mp hr
      subst this
      cases r <;> simp [regOffset] at h

@[simp] theorem regAt_regOffset (r : Reg) : regAt (regOffset r) = some r := regAt_eq_some.mpr rfl

/-- What a write to a register other than CMD leaves: the new length, or nothing new (R40). -/
def storeReg (v : Word) (s : State) : Reg → State
  | .inLen => { s with inLen := v }
  | .outLen => { s with outLen := v }
  | .kekLen => { s with kekLen := v }
  | .cmd | .status | .resultLen | .errInfo => s

theorem writeReg_of_ne_cmd (issue : Word → State → Host.Outcome State Fault Refusal) (v : Word) (s : State) {r : Reg}
    (h : r ≠ .cmd) : writeReg issue v s r = .next (storeReg v s r) := by
  cases r <;> first | exact absurd rfl h | rfl

/-- Everything an access that is performed can do (R61). -/
theorem performAccess_next {P : Params} {issue : Word → State → Host.Outcome State Fault Refusal} {a : HostAccess}
    {s t : State} (h : performAccess P issue a s = .next t) :
    (∃ r, a = .readReg (regOffset r) ∧ t = s.setReturned (.word (readReg s r))) ∨
    (∃ S k, a = .readByte S k ∧ k < spaceSize P S ∧ t = s.setReturned (.byte (hostByte s S k))) ∨
    (∃ r v, r ≠ .cmd ∧ a = .writeReg (regOffset r) v ∧ t = storeReg v s r) ∨
    (∃ S k b, a = .writeByte S k b ∧ k < spaceSize P S ∧ t = writeByte s S k b) ∨
    (a = .reset ∧ t = resetAccess s) ∨
    (∃ v, a = .writeReg 0x00 v ∧ issue v s = .next t) := by
  cases a with
  | readReg off =>
    simp only [performAccess] at h
    split at h
    · rename_i r hr
      exact .inl ⟨r, by rw [regAt_eq_some.mp hr], (Host.Outcome.next.inj h).symm⟩
    · cases h
  | writeReg off v =>
    simp only [performAccess] at h
    split at h
    · rename_i r hr
      have hoff := regAt_eq_some.mp hr
      by_cases hc : r = .cmd
      · subst hc
        exact .inr (.inr (.inr (.inr (.inr ⟨v, by rw [hoff]; rfl, h⟩))))
      · rw [writeReg_of_ne_cmd issue v s hc] at h
        exact .inr (.inr (.inl ⟨r, v, hc, by rw [hoff], (Host.Outcome.next.inj h).symm⟩))
    · cases h
  | readByte S k =>
    simp only [performAccess] at h
    split at h
    · exact .inr (.inl ⟨S, k, rfl, ‹_›, (Host.Outcome.next.inj h).symm⟩)
    · cases h
  | writeByte S k b =>
    simp only [performAccess] at h
    split at h
    · exact .inr (.inr (.inr (.inl ⟨S, k, b, rfl, ‹_›, (Host.Outcome.next.inj h).symm⟩)))
    · cases h
  | reset => exact .inr (.inr (.inr (.inr (.inl ⟨rfl, (Host.Outcome.next.inj h).symm⟩))))

/-- Everything a step that gives a next state can do: wait, or perform the oldest access. -/
theorem step_next {s t : State} (h : step s = .next t) :
    (s.pending = [] ∧ t = s) ∨
    ∃ a rest, s.pending = a :: rest ∧ performAccess Config.params issueCommand a (s.takeAccess rest) = .next t := by
  unfold step at h
  split at h
  · exact .inl ⟨‹_›, (Host.Outcome.next.inj h).symm⟩
  · exact .inr ⟨_, _, ‹_›, h⟩

theorem step_of_pending {s : State} {a : HostAccess} {rest : List HostAccess} (h : s.pending = a :: rest) :
    step s = performAccess Config.params issueCommand a (s.takeAccess rest) := by
  unfold step
  rw [h]

/-- A value of CMD runs its command, or IllegalCommand (R93, R95). -/
theorem issueCommand_next {v : Word} {s t : State} (h : issueCommand v s = .next t) :
    (∃ i, decode v = .ok i ∧ exec i s = .next t) ∨ (∃ e, decode v = .error e ∧ t = illegalCommand s) := by
  unfold issueCommand at h
  split at h
  · exact .inl ⟨_, ‹_›, h⟩
  · exact .inr ⟨_, ‹_›, (Host.Outcome.next.inj h).symm⟩

/-- The state a command leaves (every command leaves one, R218). -/
def commandResult (P : Params) : Instr → State → State
  | .kekLoad, s => kekLoad P s
  | .kekClr, s => kekClr s
  | .kwWrap, s => kwWrap P s
  | .kwUnwrap, s => kwUnwrap P s
  | .kwpWrap, s => kwpWrap P s
  | .kwpUnwrap, s => kwpUnwrap P s

/-- `exec` is the command with the machine's parameters. -/
theorem exec_eq (i : Instr) (s : State) : exec i s = .next (commandResult Config.params i s) := by cases i <;> rfl

/-- An access is performed exactly when it is well-formed (R41). -/
theorem performAccess_refused_iff {P : Params} {issue : Word → State → Host.Outcome State Fault Refusal}
    (hi : ∀ v s, ∃ t, issue v s = .next t) (a : HostAccess) (s : State) :
    (∃ r, performAccess P issue a s = .refused r) ↔ a.wellFormed P.bufBytes = false := by
  cases a with
  | readReg off =>
    simp only [performAccess, HostAccess.wellFormed]
    cases hr : regAt off with
    | none => have := regAt_eq_none.mp hr; simp; omega
    | some r =>
      have := regAt_eq_some.mp hr
      simp only [reduceCtorEq, exists_false, false_iff, Bool.not_eq_false, decide_eq_true_eq]
      subst this
      cases r <;> decide
  | writeReg off v =>
    simp only [performAccess, HostAccess.wellFormed]
    cases hr : regAt off with
    | none => have := regAt_eq_none.mp hr; simp; omega
    | some r =>
      have := regAt_eq_some.mp hr
      subst this
      obtain ⟨t, ht⟩ := hi v s
      cases r <;> simp [writeReg, regOffset, ht]
  | readByte S k =>
    simp only [performAccess]
    split <;> cases S <;> simp_all [HostAccess.wellFormed, spaceSize]
  | writeByte S k b =>
    simp only [performAccess]
    split <;> cases S <;> simp_all [HostAccess.wellFormed, spaceSize]
  | reset => simp [performAccess, HostAccess.wellFormed]

end Sys2Proof.Machine
end

