-- ==== Sys2Proof/Laws/PerInstr.lean ====
section
/-! SUPPORT. One fact for every command, per constructor: its word is format CW (R91) and reads back as it. -/

namespace Sys2Proof.Laws

open Sys2Proof

/-- The command's word has ZERO = 0, CLASS 0 or 1 and, in CLASS 1, FUNC[3:2] = 0 (R91); the command is
well-formed; and the decoder gives it back. -/
def CommandWord.Statement (i : Instr) : Prop :=
  i.wellFormed = true ∧ zeroField (encode i) = 0 ∧ classField (encode i) = i.classCode ∧
    funcField (encode i) = i.funcCode ∧ (i.classCode = 1 → i.funcCode.extractLsb' 2 2 = 0) ∧
    decodeTableWord 64 (encode i).toNat = some i

theorem CommandWord.kekLoad : CommandWord.Statement .kekLoad := by unfold CommandWord.Statement; decide

theorem CommandWord.kekClr : CommandWord.Statement .kekClr := by unfold CommandWord.Statement; decide

theorem CommandWord.kwWrap : CommandWord.Statement .kwWrap := by unfold CommandWord.Statement; decide

theorem CommandWord.kwUnwrap : CommandWord.Statement .kwUnwrap := by unfold CommandWord.Statement; decide

theorem CommandWord.kwpWrap : CommandWord.Statement .kwpWrap := by unfold CommandWord.Statement; decide

theorem CommandWord.kwpUnwrap : CommandWord.Statement .kwpUnwrap := by unfold CommandWord.Statement; decide

end Sys2Proof.Laws
end

