-- ==== Sys2Proof/Tests/Slice0.lean ====
section
/-! SUPPORT. Tests of KWE. Every expected value is a value of 95_test_vectors.md (the vector is named beside
it) or of a rule's own example; the ciphers ID, SWAP and TOY16 are those of its section 2. After them, for
every statement with hypotheses, a witness that meets them. -/

namespace Sys2Proof.Tests

open Sys2Proof Sys2Proof.Machine

/-! ## The test ciphers (95_test_vectors.md section 2), BUF_BYTES = 64 -/

/-- The k bytes that 2·k hexadecimal digits list, the first digits first (R7). -/
def hex (k v : Nat) : List Byte := beBytes k v

/-- ID. -/
def ident : Params where
  cipher := { init := fun _ => ⟨[]⟩, enc := fun _ b => b, dec := fun _ b => b, dec_enc := fun _ _ _ => rfl }
  bufBytes := 64
  bufBytes_ge := by decide
  bufBytes_le := by decide

/-- SWAP. -/
def swap : Params where
  cipher := { init := fun _ => ⟨[]⟩, enc := fun _ b => joinBlock (low b) (high b)
              dec := fun _ b => joinBlock (low b) (high b), dec_enc := fun _ _ b => by simp }
  bufBytes := 64
  bufBytes_ge := by decide
  bufBytes_le := by decide

/-- `Enc` of TOY16. -/
def toyEnc (K : CipherState) (b : Block) : Block :=
  let x := List.zipWith (fun v k => 5 * (v ^^^ k) + 1) (blockBytes b) K.bytes
  blockOf (x.drop 3 ++ x.take 3)

/-- `Dec` of TOY16. -/
def toyDec (K : CipherState) (c : Block) : Block :=
  let y := blockBytes c
  blockOf (List.zipWith (fun v k => (205 * (v - 1)) ^^^ k) (y.drop 13 ++ y.take 13) K.bytes)

theorem toy_byte_undone : ∀ x : Byte, 205 * (5 * x + 1 - 1) = x := by decide

theorem toy_bytes_undone (bs ks : List Byte) (h : bs.length = ks.length) :
    List.zipWith (fun v k => (205 * (v - 1)) ^^^ k) (List.zipWith (fun v k => 5 * (v ^^^ k) + 1) bs ks) ks = bs := by
  induction bs generalizing ks with
  | nil => simp
  | cons b bs ih =>
    cases ks with
    | nil => simp at h
    | cons k ks =>
      simp only [List.zipWith_cons_cons, toy_byte_undone, BitVec.xor_assoc, BitVec.xor_self, BitVec.xor_zero]
      rw [ih ks (by simpa using h)]

theorem blockBytes_blockOf (bs : List Byte) (h : bs.length = 16) : blockBytes (blockOf bs) = bs := by
  have hlt := intBe_lt bs
  rw [h] at hlt
  rw [blockBytes, blockOf, BitVec.toNat_ofNat, Nat.mod_eq_of_lt (by omega), ← h, beBytes_intBe]

/-- TOY16 meets the inverse law (R122). -/
theorem toy_dec_enc (key : List Byte) (h : key.length = 16 ∨ key.length = 24 ∨ key.length = 32) (b : Block) :
    toyDec ⟨key.take 16⟩ (toyEnc ⟨key.take 16⟩ b) = b := by
  have hk : (key.take 16).length = 16 := by simp; omega
  generalize hx : List.zipWith (fun v k => 5 * (v ^^^ k) + 1) (blockBytes b) (key.take 16) = x
  have hl : x.length = 16 := by rw [← hx, List.length_zipWith, blockBytes_length, hk]; rfl
  have hr : (x.drop 3 ++ x.take 3).drop 13 ++ (x.drop 3 ++ x.take 3).take 13 = x := by
    rw [List.drop_left' (by simp [hl]), List.take_left' (by simp [hl]), List.take_append_drop]
  simp only [toyEnc, toyDec, hx]
  rw [blockBytes_blockOf _ (by simp [hl]), hr, ← hx, toy_bytes_undone _ _ (by rw [blockBytes_length, hk]),
    blockOf_blockBytes]

/-- TOY16. -/
def toy16 : Params where
  cipher := { init := fun key => ⟨key.take 16⟩, enc := toyEnc, dec := toyDec, dec_enc := toy_dec_enc }
  bufBytes := 64
  bufBytes_ge := by decide
  bufBytes_le := by decide

/-- k128. -/
def k128 : List Byte := hex 16 0x000102030405060708090A0B0C0D0E0F

/-- P16. -/
def p16 : List Byte := hex 16 0x00112233445566778899AABBCCDDEEFF

/-- A space that lists these bytes from offset 0. -/
def listed (bytes : List Byte) : Memory := (List.range bytes.length).map fun i => (i, bytes.getD i 0)

/-- Right before a codec command: k128 bound, the input placed, the two lengths set. -/
def ready (P : Params) (input : List Byte) (outLen : Nat) : State :=
  { State.reset with
    kek := some (P.cipher.init k128), inLen := BitVec.ofNat 64 input.length, outLen := BitVec.ofNat 64 outLen
    inp := listed input }

/-- What the host reads after a command: STATUS, RESULT_LEN, ERRINFO and the first n bytes of OUT. -/
def seen (t : State) (n : Nat) : Word × Word × Word × List Byte :=
  (t.status, t.resultLen, t.errInfo, memRead t .out 0 n)

/-- STATUS, RESULT_LEN and ERRINFO after a step that gives a next state. -/
def outcome (o : Host.Outcome State Fault Refusal) : Option (Word × Word × Word) :=
  match o with
  | .next t => some (t.status, t.resultLen, t.errInfo)
  | .fault _ => none
  | .refused _ => none

/-! ## Decoding: words written out from R91's fields and R92's rows -/

/-- ZERO (56 bits), CLASS, FUNC, side by side. -/
theorem test_decode_words :
    decode (0#56 ++ 0b0000#4 ++ 0b0001#4) = .ok .kekLoad ∧ decode (0#56 ++ 0b0000#4 ++ 0b0010#4) = .ok .kekClr ∧
    decode (0#56 ++ 0b0001#4 ++ 0b0000#4) = .ok .kwWrap ∧ decode (0#56 ++ 0b0001#4 ++ 0b0001#4) = .ok .kwUnwrap ∧
    decode (0#56 ++ 0b0001#4 ++ 0b0010#4) = .ok .kwpWrap ∧
    decode (0#56 ++ 0b0001#4 ++ 0b0011#4) = .ok .kwpUnwrap := by decide

/-- The table's words, as spec/opcode_table.json numbers their bits. -/
theorem test_decode_table :
    decodeTableWord 64 0x01 = some .kekLoad ∧ decodeTableWord 64 0x02 = some .kekClr ∧
    decodeTableWord 64 0x10 = some .kwWrap ∧ decodeTableWord 64 0x11 = some .kwUnwrap ∧
    decodeTableWord 64 0x12 = some .kwpWrap ∧ decodeTableWord 64 0x13 = some .kwpUnwrap := by decide

/-- C5v: the values that are no command, with the reason R95 gives each. -/
theorem test_decode_illegal :
    decode 0x00 = .error .reservedKekFunc ∧ decode 0x03 = .error .reservedKekFunc ∧
    decode 0x0F = .error .reservedKekFunc ∧ decode 0x14 = .error .reservedCodecFunc ∧
    decode 0x18 = .error .reservedCodecFunc ∧ decode 0x1F = .error .reservedCodecFunc ∧
    decode 0x20 = .error .reservedClass ∧ decode 0xFF = .error .reservedClass ∧
    decode 0x100 = .error .zeroFieldNotZero ∧ decode 0x110 = .error .zeroFieldNotZero ∧
    decode 0x0000000100000010 = .error .zeroFieldNotZero ∧ decode 0x8000000000000000 = .error .zeroFieldNotZero ∧
    decode 0xFFFFFFFFFFFFFFFF = .error .zeroFieldNotZero := by decide

theorem test_encode_words :
    encode .kekLoad = 0x01 ∧ encode .kekClr = 0x02 ∧ encode .kwWrap = 0x10 ∧ encode .kwUnwrap = 0x11 ∧
    encode .kwpWrap = 0x12 ∧ encode .kwpUnwrap = 0x13 := by decide

/-! ## WellFormed: accesses it refuses and the last ones it accepts (R41) -/

theorem test_wellFormed_refuses :
    HostAccess.wellFormed 64 (.readReg 0x38) = false ∧ HostAccess.wellFormed 64 (.writeReg 0x04 1) = false ∧
    HostAccess.wellFormed 64 (.readByte .inp 64) = false ∧ HostAccess.wellFormed 64 (.writeByte .out 64 1) = false ∧
    HostAccess.wellFormed 64 (.readByte .key 32) = false ∧ HostAccess.wellFormed 64 (.writeByte .key 32 1) = false := by
  decide

theorem test_wellFormed_accepts :
    HostAccess.wellFormed 64 (.writeReg 0x30 1) = true ∧ HostAccess.wellFormed 64 (.readByte .inp 63) = true ∧
    HostAccess.wellFormed 64 (.writeByte .key 31 1) = true ∧ HostAccess.wellFormed 64 .reset = true := by decide

/-! ## Steps from the state after reset -/

/-- C5v, Z3 (a) and (e), C1v: STATUS after the first command, whatever the parameters are. -/
theorem test_first_command :
    outcome (step (State.reset.withFetchWord 64 0x10)) = some (0x015, 0, 0) ∧
    outcome (step (State.reset.withFetchWord 64 0x14)) = some (0x016, 0, 0) ∧
    outcome (step (State.reset.withFetchWord 64 0x01)) = some (0x012, 0, 0) ∧
    outcome (step (State.reset.withFetchWord 64 0x02)) = some (0x010, 0, 0) := by decide

/-- C6v: a write to a read-only register is ignored, and a byte read of KEY gives 0. -/
theorem test_read_only :
    outcome (step { State.reset with pending := [.writeReg 0x28 5] }) = some (0, 0, 0) ∧
    hostByte { State.reset with key := [(0, 0xAA)] } .key 0 = 0x00 := by decide

/-! ## The commands -/

/-- C1v: KEKLOAD with an accepted size and with 20, no KEK before. -/
theorem test_kekLoad_sizes :
    outcome (exec .kekLoad { State.reset with kekLen := 32 }) = some (0x110, 0, 0) ∧
    outcome (exec .kekLoad { State.reset with kekLen := 20 }) = some (0x012, 0, 20) := by decide

/-- C2v: KEKLOAD with 33 keeps the KEK that was there. -/
theorem test_kekLoad_keeps :
    seen (kekLoad toy16 { ready toy16 p16 24 with kekLen := 33 }) 0 = (0x112, 0, 33, []) ∧
    (kekLoad toy16 { ready toy16 p16 24 with kekLen := 33 }).kek = some ⟨k128⟩ := by decide

/-- C4v: KEKCLR, then KEKLOAD with KEK_LEN still 16 binds the key of zeros. -/
theorem test_kekClr_zeroes :
    seen (kekClr { ready toy16 p16 24 with key := listed k128 }) 0 = (0x010, 0, 0, []) ∧
    (kekLoad toy16 (kekClr { ready toy16 p16 24 with key := listed k128, kekLen := 16 })).kek = some ⟨zeros 16⟩ := by
  decide

/-- K1, TOY16, P16. -/
theorem test_kwWrap_toy16 : seen (kwWrap toy16 (ready toy16 p16 24)) 24 =
    (0x110, 24, 0, hex 24 0x88BFF0BBD5C62C035860E488F54E71F6B938EE525E0166C0) := by decide +kernel

/-- Z1: KW_WRAP at the last length that fits 64 bytes, and at the first that does not. -/
theorem test_kwWrap_capacity :
    seen (kwWrap ident (ready ident (zeros 56) 0)) 0 = (0x113, 0, 64, []) ∧
    seen (kwWrap ident (ready ident (zeros 64) 0)) 0 = (0x111, 0, 0, []) := by decide

/-- K3, TOY16, byte 15 changed: the failure zeroises the sixteen bytes and no more. -/
theorem test_kwUnwrap_tampered :
    let t := kwUnwrap toy16 { ready toy16 (hex 24 0x88BFF0BBD5C62C035860E488F54E71F7B938EE525E0166C0) 16 with
      out := [(16, 0xEE)] }
    seen t 17 = (0x114, 0, 0, zeros 16 ++ [0xEE]) := by decide +kernel

/-- K4, TOY16, byte 8 changed: the header is IV_KW all the same, so the engine succeeds. -/
theorem test_kwUnwrap_modified :
    seen (kwUnwrap toy16 (ready toy16 (hex 24 0x88BFF0BBD5C62C035960E488F54E71F6B938EE525E0166C0) 16)) 16 =
      (0x110, 16, 0, hex 16 0x00112233445566778899AABBCC7AEEFF) := by decide +kernel

/-- P1, TOY16, L = 1: the one-block case. -/
theorem test_kwpWrap_one_block : seen (kwpWrap toy16 (ready toy16 (hex 1 0xC3) 16)) 16 =
    (0x110, 16, 0, hex 16 0x3A151A1F1FF82E33383D42474C3FB9C8) := by decide +kernel

/-- P4: stale bytes in OUT do not reach the result, and those above OUT_LEN stay. -/
theorem test_kwpWrap_stale :
    seen (kwpWrap toy16 { ready toy16 (hex 9 0xC37B7E6492584340BE) 24 with out := listed (List.replicate 32 0xFF) }) 32 =
      (0x110, 24, 0, hex 24 0x96B9F26CD9F39D84D74BD1887C10DBF9B97AB93400D8C14C ++ List.replicate 8 0xFF) := by
  decide +kernel

/-- P2, TOY16, L = 9. -/
theorem test_kwpUnwrap_padded :
    seen (kwpUnwrap toy16 (ready toy16 (hex 24 0x96B9F26CD9F39D84D74BD1887C10DBF9B97AB93400D8C14C) 16)) 16 =
      (0x110, 9, 0, hex 16 0xC37B7E6492584340BE00000000000000) := by decide +kernel

/-- P3 case 11: MLI 15 with a last byte that is not zero. -/
theorem test_kwpUnwrap_padding :
    seen (kwpUnwrap toy16 (ready toy16 (hex 24 0x96B9286C59F300843C4B4E887C10DBF7B969B93400D8BE4C) 16)) 16 =
      (0x114, 0, 0, zeros 16) := by decide +kernel

/-- E3, SWAP, n = 2: the end of the table, read through K1's SWAP row. -/
theorem test_transform_swap : seen (kwWrap swap (ready swap p16 24)) 24 =
    (0x110, 24, 0, hex 24 0xA6A6A6A6A6A6A6A6001122334455667F8899AABBCCDDEEFB) := by decide +kernel

/-- R33, n = 2: the sequencer names the step performed next, and none after the last. -/
theorem test_sequencer :
    (forwardRun ident ⟨[]⟩ 0 2 (forwardStart 2 State.reset)).seq = some (1, 0) ∧
    (inverseRun ident ⟨[]⟩ 0 1 (inverseStart 2 State.reset)).seq = some (5, 0) ∧
    (inverseRun ident ⟨[]⟩ 0 2 (inverseStart 2 State.reset)).seq = some (4, 1) ∧
    (transformW ident ⟨[]⟩ 0 2 State.reset).seq = none ∧
    (transformWinv ident ⟨[]⟩ 0 2 State.reset).seq = none := by decide +kernel

/-! ## Witnesses: states and operands that meet the statements' hypotheses -/

/-- The machine's own port, bound to a key of sixteen zero bytes. -/
def kekZero : CipherState := Config.params.cipher.init (zeros 16)

theorem kekZero_fromInit : FromInit Config.params kekZero := ⟨zeros 16, .inl rfl, rfl⟩

theorem sixteen_le : 16 ≤ Config.params.bufBytes := Config.params.bufBytes_ge

/-- A KEK bound and the two lengths set; IN and OUT as a reset left them. -/
def sized (inLen outLen : Word) : State :=
  { State.reset with kek := some kekZero, inLen := inLen, outLen := outLen }

/-- A 16-byte wrapped value in IN, eight bytes of output declared, a byte in OUT. -/
def holding (a r : Semiblock) : State :=
  { sized 16 8 with inp := listed (semiblockBytes a ++ semiblockBytes r), out := [(0, 1)] }

theorem holding_header (a r : Semiblock) : semiblockOf (memRead (holding a r) .inp 0 8) = a := by
  rw [show memRead (holding a r) .inp 0 8 = semiblockBytes a from rfl, semiblockOf_semiblockBytes]

theorem holding_body (a r : Semiblock) : semiblockOf (memRead (holding a r) .inp 8 8) = r := by
  rw [show memRead (holding a r) .inp 8 8 = semiblockBytes r from rfl, semiblockOf_semiblockBytes]

/-- The input from which KWP_UNWRAP recovers the header `a` and the semiblock 0 (R186). -/
def kwpInput (a : Semiblock) : State :=
  let b := Config.params.cipher.enc kekZero (joinBlock a 0)
  holding (high b) (low b)

theorem kwpInput_recovered (a : Semiblock) : kwpRecovered Config.params kekZero (kwpInput a) 1 = (a, [0]) := by
  simp only [kwpRecovered, kwpInput, if_true, holding_header, holding_body, joinBlock_high_low,
    dec_enc_of_fromInit kekZero_fromInit, high_joinBlock, low_joinBlock]

/-- The input from which KW_UNWRAP recovers the header `a` and the semiblock 0. -/
def kwInput (a : Semiblock) : State :=
  let x := flatW Config.params kekZero (a, [0])
  holding x.1 (x.2.getD 0 0)

theorem kwInput_recovered (a : Semiblock) : kwRecovered Config.params kekZero (kwInput a) 1 = (a, [0]) := by
  have hl := flatW_length Config.params kekZero (a, [0])
  have hs : semiblocksAt (kwInput a) .inp 8 1 = (flatW Config.params kekZero (a, [0])).2 := by
    obtain ⟨y, hy⟩ : ∃ y, (flatW Config.params kekZero (a, [0])).2 = [y] := List.length_eq_one_iff.mp hl
    rw [show semiblocksAt (kwInput a) .inp 8 1 = [semiblockOf (memRead (kwInput a) .inp 8 8)] from rfl, kwInput,
      holding_body, hy]
    rfl
  rw [kwRecovered, hs, kwInput, holding_header]
  exact flatWinv_flatW kekZero_fromInit (by simp)


/-! ### The two unwraps on those inputs -/

theorem inverse_step_one (P : Params) (k : CipherState) (j : Nat) (s : State) :
    ((winvStep P k 0 1 (j, 0) s).acc, semiblocksAt (winvStep P k 0 1 (j, 0) s) .out 0 1) =
      flatInvStep P k 1 (s.acc, semiblocksAt s .out 0 1) (j + 1) := by
  rw [winvStep_flat P k 0 1 (j, 0) s Nat.one_pos]
  simp [flatInvStep, roundCounter, Nat.mod_one]

/-- The six steps of Winv(0, 1), as the sequencer names them. -/
theorem inverse_steps_one (P : Params) (k : CipherState) (s : State) :
    transformWinv P k 0 1 s = [5, 4, 3, 2, 1, 0].foldl (fun u j => winvStep P k 0 1 (j, 0) u) (inverseStart 1 s) := by
  simp [transformWinv, inverseRun, inverseAdvance, inverseNext, inverseStart]

theorem inverse_one (P : Params) (k : CipherState) (s : State) :
    (transformWinv P k 0 1 s).acc = (flatWinv P k (s.acc, semiblocksAt s .out 0 1)).1 := by
  have h0 : (s.acc, semiblocksAt s .out 0 1) =
      ((inverseStart 1 s).acc, semiblocksAt (inverseStart 1 s) .out 0 1) := by simp [inverseStart]
  rw [h0, flatWinv, inverse_steps_one, semiblocksAt_length,
    show (stepNumbers 1).reverse = [6, 5, 4, 3, 2, 1] from rfl]
  simp only [List.foldl_cons, List.foldl_nil]
  rw [← inverse_step_one P k 5, ← inverse_step_one P k 4, ← inverse_step_one P k 3, ← inverse_step_one P k 2,
    ← inverse_step_one P k 1, ← inverse_step_one P k 0]

/-- KW_UNWRAP of two semiblocks, in terms of the header recovered. -/
theorem kwUnwrap_two (a r : Semiblock) :
    (kwUnwrap Config.params (holding a r)).err =
      if (kwRecovered Config.params kekZero (holding a r) 1).1 = ivKw then .success else .integrityCheckFailed := by
  have h := codec_eq_body (P := Config.params) (required := kwUnwrapLength) (s := holding a r) (k := kekZero) (E := 8)
    (kwUnwrapBody Config.params) rfl (show kwUnwrapLength 16 = some 8 by decide) sixteen_le (Nat.le_trans (by decide) sixteen_le) rfl
  have hr : kwRecovered Config.params kekZero (holding a r) 1 =
      flatWinv Config.params kekZero (a, [r]) := by
    rw [kwRecovered, holding_header,
      show semiblocksAt (holding a r) .inp 8 1 = [semiblockOf (memRead (holding a r) .inp 8 8)] from rfl, holding_body]
  have ht : semiblocksAt (memWrite ((holding a r).setAcc a) .out 0 (memRead (holding a r) .inp 8 8)) .out 0 1 = [r] := by
    rw [show memRead (holding a r) .inp 8 8 = semiblockBytes r from rfl]
    show [semiblockOf (semiblockBytes r)] = [r]
    rw [semiblockOf_semiblockBytes]
  rw [kwUnwrap, h, kwUnwrapBody, hr, show (holding a r).inLen.toNat / 8 - 1 = 1 from (by decide : (16#64).toNat / 8 - 1 = 1)]
  simp only [memRead_setAcc, holding_header]
  rw [inverse_one, ht, show (memWrite ((holding a r).setAcc a) .out 0 (memRead (holding a r) .inp 8 8)).acc = a from rfl]
  by_cases he : (flatWinv Config.params kekZero (a, [r])).1 = ivKw
  · rw [if_pos he, if_neg (by simpa using he)]; rfl
  · rw [if_neg he, if_pos (by simpa using he)]; rfl

theorem kwInput_succeeds : (kwUnwrap Config.params (kwInput ivKw)).err = .success := by
  have h := kwInput_recovered ivKw
  rw [kwInput] at h ⊢
  rw [kwUnwrap_two, if_pos (by rw [h])]

theorem kwInput_fails : (kwUnwrap Config.params (kwInput 0)).err = .integrityCheckFailed := by
  have h := kwInput_recovered 0
  rw [kwInput] at h ⊢
  rw [kwUnwrap_two, if_neg (by rw [h]; decide)]

/-- KWP_UNWRAP of one block, in terms of the header recovered; OUT[0] is zero either way. -/
theorem kwpUnwrap_one (a : Semiblock) :
    ((kwpUnwrap Config.params (kwpInput a)).err =
      if (kwpCheck (memWrite State.reset .out 0 (zeros 8)) a 1).isSome then .success else .integrityCheckFailed) ∧
    readByte (kwpUnwrap Config.params (kwpInput a)) .out 0 = 0 := by
  have h := codec_eq_body (P := Config.params) (required := kwpUnwrapLength) (s := kwpInput a) (k := kekZero) (E := 8)
    (kwpUnwrapBody Config.params) rfl (show kwpUnwrapLength 16 = some 8 by decide) sixteen_le (Nat.le_trans (by decide) sixteen_le) rfl
  have hb : blockOf (memRead (kwpInput a) .inp 0 16) = Config.params.cipher.enc kekZero (joinBlock a 0) := by
    rw [memRead_add _ _ 0 8 8, blockOf_append _ _ (by simp), kwpInput, holding_header, holding_body, joinBlock_high_low]
  rw [kwpUnwrap, h, kwpUnwrapBody, show (kwpInput a).inLen.toNat / 8 - 1 = 1 from
    (by decide : (16#64).toNat / 8 - 1 = 1)]
  simp only [kwpRecover, if_true, hb, dec_enc_of_fromInit kekZero_fromInit, high_joinBlock, low_joinBlock]
  rw [show (memWrite ((((kwpInput a).setCount (some 1)).setBlk (joinBlock a 0)).setAcc a) .out 0 (semiblockBytes 0)).acc = a from rfl,
    show kwpCheck (memWrite ((((kwpInput a).setCount (some 1)).setBlk (joinBlock a 0)).setAcc a) .out 0 (semiblockBytes 0)) a 1 =
      kwpCheck (memWrite State.reset .out 0 (zeros 8)) a 1 from rfl]
  cases kwpCheck (memWrite State.reset .out 0 (zeros 8)) a 1 with
  | none => exact ⟨rfl, by simp [failIntegrity, readByte_memWrite_out, zeros]⟩
  | some m => exact ⟨rfl, by simp [readByte_memWrite_out]; decide⟩

theorem kwpInput_succeeds : (kwpUnwrap Config.params (kwpInput (aiv 3))).err = .success := by
  rw [(kwpUnwrap_one _).1, if_pos (by decide)]

theorem kwpInput_fails : (kwpUnwrap Config.params (kwpInput 0)).err = .integrityCheckFailed := by
  rw [(kwpUnwrap_one _).1, if_neg (by decide)]

theorem kwWrap_succeeds : (kwWrap Config.params (sized 8 16)).err = .success := by
  rw [kwWrap, codec_eq_body (E := 16) _ rfl rfl (Nat.le_trans (by decide) sixteen_le) sixteen_le rfl]
  rfl

theorem kwpWrap_succeeds : (kwpWrap Config.params (sized 1 16)).err = .success := by
  rw [kwpWrap, codec_eq_body (E := 16) _ rfl rfl (Nat.le_trans (by decide) sixteen_le) sixteen_le rfl]
  rfl

/-! ### One witness for each statement's hypotheses, named after the statement -/

theorem witness_FieldsDecideTheCommand : decode 0x13 = .ok .kwpUnwrap ∧ isCodec .kwpUnwrap = true := by decide

theorem witness_StepRunsTheIssuedCommand :
    (State.reset.withFetchWord 64 0x12).pending = .writeReg 0x00 0x12 :: [] ∧ decode 0x12 = .ok .kwpWrap ∧
      Instr.wellFormed .kwpWrap = true := by decide

theorem witness_IllegalWordOnlyReports :
    (State.reset.withFetchWord 64 0x14).pending = .writeReg 0x00 0x14 :: [] ∧
      decode 0x14 = .error .reservedCodecFunc := by decide

theorem witness_EngineWaitsForTheHost : State.reset.pending = [] := rfl

/-- A state with one access to perform. -/
def about (a : HostAccess) : State := { State.reset with pending := [a] }

/-- The last read-only register; the first and the last register read; the three length registers. -/
theorem witness_RegisterAccessRules :
    (about (.writeReg 0x30 5)).pending = [.writeReg 0x30 5] ∧ (about (.readReg 0x00)).pending = [.readReg 0x00] ∧
    (about (.readReg 0x30)).pending = [.readReg 0x30] ∧ (0 : Word) = State.reset.errInfo ∧
    (about (.writeReg 0x10 5)).pending = [.writeReg 0x10 5] ∧
    (about (.writeReg 0x18 5)).pending = [.writeReg 0x18 5] ∧
    (about (.writeReg 0x20 5)).pending = [.writeReg 0x20 5] := by decide

/-- The first register offset, buffer offset and KEY offset that do not exist. -/
theorem witness_UndefinedOffsetsAreRefused :
    (about (.readReg 0x38)).pending = [.readReg 0x38] ∧ 0x38 ≤ 0x38 ∧
    (about (.writeReg 0x01 5)).pending = [.writeReg 0x01 5] ∧ 0x01 % 8 ≠ 0 ∧
    (about (.writeByte .key 32 5)).pending = [.writeByte .key 32 5] ∧ 32 ≤ 32 ∧
    (about (.readByte .out Config.params.bufBytes)).pending = [.readByte .out Config.params.bufBytes] ∧
    Config.params.bufBytes ≤ Config.params.bufBytes :=
  ⟨rfl, by decide, rfl, by decide, rfl, by decide, rfl, Nat.le_refl _⟩

/-- The last offset of OUT and of KEY. -/
theorem witness_ByteReadsReturnTheByte :
    Space.out ≠ .key ∧
    (about (.readByte .out (Config.params.bufBytes - 1))).pending = [.readByte .out (Config.params.bufBytes - 1)] ∧
    Config.params.bufBytes - 1 < Config.params.bufBytes ∧
    (about (.readByte .key 31)).pending = [.readByte .key 31] ∧ 31 < 32 :=
  ⟨by decide, rfl, Nat.sub_lt (Nat.lt_of_lt_of_le (by decide) sixteen_le) (by decide), rfl, by decide⟩

theorem witness_ByteWritesStoreTheByte :
    Memory.wf (unlistedKnown .key) (about (.writeByte .key 31 5)).key ∧
    (about (.writeByte .key 31 5)).pending = [.writeByte .key 31 5] ∧ 31 < spaceSize Config.params .key :=
  ⟨by decide, rfl, by decide⟩

theorem witness_ResetPutsEveryPieceToItsValue : (about .reset).pending = .reset :: [] := rfl

theorem witness_EveryCommandEnds : (about (.writeReg 0x00 0x13)).pending = .writeReg 0x00 0x13 :: [] := rfl

theorem witness_CodecWithoutKekOnlyReports : isCodec .kwUnwrap = true ∧ State.reset.kek = none := ⟨rfl, rfl⟩

theorem witness_DataSizeRulesReported : (sized 12 0).kek = some kekZero := rfl

/-- The smallest length each codec command accepts, with OUT_LEN = 0. -/
theorem witness_WrongOutputLengthOnlyReports :
    (sized 8 0).kek ≠ none ∧ (sized 8 0).outLen.toNat ≠ 16 ∧
    requiredLength .kwWrap (sized 8 0).inLen.toNat = some 16 ∧ (sized 8 0).inLen.toNat ≤ Config.params.bufBytes ∧
    requiredLength .kwUnwrap (sized 16 0).inLen.toNat = some 8 ∧ (sized 16 0).inLen.toNat ≤ Config.params.bufBytes ∧
    requiredLength .kwpWrap (sized 1 0).inLen.toNat = some 16 ∧ 16 ≤ Config.params.bufBytes ∧
    requiredLength .kwpUnwrap (sized 16 0).inLen.toNat = some 8 ∧ 8 ≤ Config.params.bufBytes :=
  ⟨by simp [sized], by decide, by decide, Nat.le_trans (by decide) sixteen_le, by decide, sixteen_le, by decide, sixteen_le,
    by decide, Nat.le_trans (by decide) sixteen_le⟩

theorem witness_OneSemiblockIsTooShortToUnwrap :
    isUnwrap .kwpUnwrap = true ∧ (sized 8 0).kek ≠ none ∧ (sized 8 0).inLen = 8 := ⟨rfl, by simp [sized], rfl⟩

/-- One state for each clause: an illegal word, no KEK, a bad length, over capacity, a wrong OUT_LEN, and with a
right one a wrap, an unwrap whose check passes and one whose check fails. -/
theorem witness_FirstErrorInOrderIsReported :
    ((about (.writeReg 0x00 0)).pending = [.writeReg 0x00 0] ∧ decode 0 = .error .reservedKekFunc) ∧
    (isCodec .kwWrap = true ∧ State.reset.kek = none) ∧
    ((sized 12 3).kek ≠ none ∧ requiredLength .kwWrap (sized 12 3).inLen.toNat = none) ∧
    (requiredLength .kwWrap (sized 0xFFFFFFFFFFFFFFF8 0).inLen.toNat = some (2 ^ 64) ∧
      Config.params.bufBytes < (sized 0xFFFFFFFFFFFFFFF8 0).inLen.toNat) ∧
    (requiredLength .kwUnwrap (sized 16 0).inLen.toNat = some 8 ∧ (sized 16 0).inLen.toNat ≤ Config.params.bufBytes ∧
      8 ≤ Config.params.bufBytes ∧ (sized 16 0).outLen.toNat ≠ 8) ∧
    (isUnwrap .kwWrap = false ∧ SizesPass Config.params .kwWrap (sized 8 16) 16) ∧
    (isUnwrap .kwUnwrap = true ∧ SizesPass Config.params .kwUnwrap (kwInput ivKw) 8 ∧
      (kwInput ivKw).kek = some kekZero ∧ Verified Config.params kekZero .kwUnwrap (kwInput ivKw)) ∧
    (SizesPass Config.params .kwUnwrap (kwInput 0) 8 ∧
      (kwInput 0).kek = some kekZero ∧ ¬ Verified Config.params kekZero .kwUnwrap (kwInput 0)) := by
  have h16 := sixteen_le
  have h8 : 8 ≤ Config.params.bufBytes := Nat.le_trans (by decide) h16
  have hr : requiredLength .kwUnwrap 16 = some 8 := by decide
  exact ⟨⟨rfl, by decide⟩, ⟨rfl, rfl⟩, ⟨by simp [sized], by decide⟩,
    ⟨by decide, Nat.lt_of_le_of_lt Config.params.bufBytes_le (by decide)⟩, ⟨by decide, h16, h8, by decide⟩,
    ⟨rfl, ⟨(by decide : requiredLength .kwWrap 8 = some 16), h8, h16, rfl⟩⟩,
    ⟨rfl, ⟨hr, h16, h8, rfl⟩, rfl, congrArg Prod.fst (kwInput_recovered ivKw)⟩,
    ⟨⟨hr, h16, h8, rfl⟩, rfl, fun h => absurd ((congrArg Prod.fst (kwInput_recovered 0)).symm.trans h) (by decide)⟩⟩

/-- An error that is not an integrity failure, an integrity failure, a codec's success, a KEK command's success. -/
theorem witness_ErrorsArePrecise :
    (exec .kwWrap State.reset = .next (kwWrap Config.params State.reset) ∧
      (kwWrap Config.params State.reset).err = .kekNotLoaded) ∧
    (exec .kwUnwrap (kwInput 0) = .next (kwUnwrap Config.params (kwInput 0)) ∧
      (kwUnwrap Config.params (kwInput 0)).err = .integrityCheckFailed) ∧
    (exec .kwWrap (sized 8 16) = .next (kwWrap Config.params (sized 8 16)) ∧
      (kwWrap Config.params (sized 8 16)).err = .success) ∧
    (exec .kekClr State.reset = .next (kekClr State.reset) ∧ (kekClr State.reset).err = .success) :=
  ⟨⟨rfl, rfl⟩, ⟨rfl, kwInput_fails⟩, ⟨rfl, kwWrap_succeeds⟩, ⟨rfl, rfl⟩⟩

/-- KEK_LEN set. -/
def keyed (n : Word) : State := { State.reset with kekLen := n }

theorem witness_KekLoadBindsTheKey : (keyed 16).kekLen = 16 ∧ (keyed 24).kekLen = 24 ∧ (keyed 32).kekLen = 32 := by decide

theorem witness_OtherKekSizesRejected :
    ((keyed 20).kekLen ≠ 16 ∧ (keyed 20).kekLen ≠ 24 ∧ (keyed 20).kekLen ≠ 32) ∧
    exec .kekLoad (keyed 33) = .next (kekLoad Config.params (keyed 33)) ∧
    (kekLoad Config.params (keyed 33)).err = .invalidKekSize := ⟨by decide, rfl, rfl⟩

/-- A key byte in KEY, a KEK bound, KEK_LEN = 16. -/
def dropping : State := { sized 16 24 with key := [(0, 1)], kekLen := 16 }

theorem witness_KekClrDropsTheKek : Memory.wf (unlistedKnown .key) dropping.key := by decide

theorem witness_KekClrTwiceIsOnce :
    Memory.wf (unlistedKnown .key) dropping.key ∧ exec .kekClr dropping = .next (kekClr dropping) := ⟨by decide, rfl⟩

theorem witness_AfterKekClrNoKeyOrTheZeroKey :
    Memory.wf (unlistedKnown .key) dropping.key ∧ exec .kekClr dropping = .next (kekClr dropping) ∧
    isCodec .kwpWrap = true ∧ dropping.kekLen = 16 := ⟨by decide, rfl, rfl, rfl⟩

/-- A KEKLOAD, a KEKCLR and a reset that each change the slot. -/
theorem witness_OnlyKekCommandsWriteTheSlot :
    (∃ t, step { keyed 16 with pending := [.writeReg 0x00 0x01] } = .next t ∧ t.kek ≠ (keyed 16).kek) ∧
    (∃ t, step { dropping with pending := [.writeReg 0x00 0x02] } = .next t ∧ t.kek ≠ dropping.kek) ∧
    (∃ t, step { dropping with pending := [.reset] } = .next t ∧ t.kek ≠ dropping.kek) :=
  ⟨⟨_, rfl, fun h => absurd (show some (Config.params.cipher.init _) = none from h) (by simp)⟩,
    ⟨_, rfl, fun h => absurd (show none = some kekZero from h) (by simp)⟩,
    ⟨_, rfl, fun h => absurd (show none = some kekZero from h) (by simp)⟩⟩

/-- The first and the last step of each order for n = 2. -/
theorem witness_SequencerWalksTheOrder :
    1 ≤ 2 ∧ (forwardOrder 2)[0]? = some (0, 0) ∧ (forwardOrder 2)[11]? = some (5, 1) ∧
    (inverseOrder 2)[0]? = some (5, 1) ∧ (inverseOrder 2)[11]? = some (0, 0) := by decide

/-- The first and the last step number for n = 2. -/
theorem witness_StepNumberIsTheCounter : 1 ≤ 2 ∧ 1 ≤ 1 ∧ 1 ≤ 6 * 2 ∧ 1 ≤ 12 ∧ 12 ≤ 6 * 2 := by decide

theorem witness_TransformsAreTheirFlatForms : 1 ≤ 1 := by decide

theorem witness_InverseTransformUndoesForward : FromInit toy16 (toy16.cipher.init k128) ∧ 1 ≤ 1 :=
  ⟨⟨k128, .inl rfl, rfl⟩, by decide⟩

/-- Two contents of OUT that agree in OUT[0:8) and differ at OUT[8]. -/
theorem witness_TransformsStayInTheirRegion :
    1 ≤ 1 ∧ (∀ a, 0 ≤ a → a < 0 + 8 * 1 →
      readByte { State.reset with out := [(8, 2)] } .out a = readByte { State.reset with out := [(8, 1)] } .out a) ∧
    readByte { State.reset with out := [(8, 2)] } .out 8 ≠ readByte { State.reset with out := [(8, 1)] } .out 8 := by
  refine ⟨Nat.le_refl _, fun a _ h => ?_, by decide⟩
  simp [readByte, State.mem, Memory.lookup, show (8 : Nat) ≠ a by omega, State.reset]

theorem witness_IdentityCipherLeavesTheSemiblocks : (∀ b, ident.cipher.enc ⟨[]⟩ b = b) ∧ 1 ≤ 1 :=
  ⟨fun _ => rfl, by decide⟩

theorem witness_KwWrapProducesTheWrappedValue :
    (sized 8 16).kek = some kekZero ∧ (sized 8 16).inLen.toNat % 8 = 0 ∧ 8 ≤ (sized 8 16).inLen.toNat ∧
    (sized 8 16).inLen.toNat + 8 ≤ Config.params.bufBytes ∧ (sized 8 16).outLen.toNat = (sized 8 16).inLen.toNat + 8 :=
  ⟨rfl, by decide, by decide, sixteen_le, by decide⟩

theorem witness_KwUnwrapReleasesVerifiedPlaintext :
    (kwInput ivKw).kek = some kekZero ∧ (kwInput ivKw).inLen.toNat = 16 ∧ 16 % 8 = 0 ∧ 16 ≤ 16 ∧
    16 ≤ Config.params.bufBytes ∧ (kwInput ivKw).outLen.toNat = 16 - 8 ∧
    (kwRecovered Config.params kekZero (kwInput ivKw) (16 / 8 - 1)).1 = 0xA6A6A6A6A6A6A6A6#64 :=
  ⟨rfl, rfl, by decide, by decide, sixteen_le, rfl, by rw [kwInput_recovered]; rfl⟩

theorem witness_KwUnwrapZeroisesOnWrongHeader :
    (kwInput 0).kek = some kekZero ∧ (kwInput 0).inLen.toNat = 16 ∧ 16 % 8 = 0 ∧ 16 ≤ 16 ∧
    16 ≤ Config.params.bufBytes ∧ (kwInput 0).outLen.toNat = 16 - 8 ∧
    (kwRecovered Config.params kekZero (kwInput 0) (16 / 8 - 1)).1 ≠ 0xA6A6A6A6A6A6A6A6#64 :=
  ⟨rfl, rfl, by decide, by decide, sixteen_le, rfl, by rw [kwInput_recovered]; decide⟩

/-- What a wrap left in OUT, as the input of an unwrap. -/
def unwrapping (P : Params) (t : State) (E : Nat) : State := ready P (memRead t .out 0 E) (E - 8)

theorem witness_KwRoundTrip :
    let s := ready toy16 p16 24
    let u := unwrapping toy16 (kwWrap toy16 s) 24
    FromInit toy16 (toy16.cipher.init k128) ∧ s.kek = some (toy16.cipher.init k128) ∧ s.inLen.toNat = 16 ∧
    16 + 8 ≤ toy16.bufBytes ∧ s.outLen.toNat = 16 + 8 ∧ u.kek = some (toy16.cipher.init k128) ∧
    memRead u .inp 0 (16 + 8) = memRead (kwWrap toy16 s) .out 0 (16 + 8) ∧ u.inLen.toNat = 16 + 8 ∧
    u.outLen.toNat = 16 :=
  ⟨⟨k128, .inl rfl, rfl⟩, rfl, by decide, by decide, by decide, rfl, by decide +kernel, by decide, by decide⟩

/-- P3 case 8, and the top of the MLI's range in case 9. -/
theorem witness_KwpCheckRule :
    kwpCheck { State.reset with out := listed (hex 16 0xC37B7E6492584340BE00000000000000) } 0xA65959A600000009 2 = some 9 ∧
    kwpCheck { State.reset with out := listed (hex 16 0xC37B7E6492584340BED1220780894115) } 0xA65959A600000010 2 =
      some 16 := by decide +kernel

/-- One semiblock, and (when the buffers are larger) the general case: the lengths alone. -/
theorem witness_KwpWrapProducesTheWrappedValue :
    (sized 1 16).kek = some kekZero ∧ (sized 1 16).inLen.toNat = 1 ∧ 1 ≤ 4294967295 ∧
    8 * ((1 + 7) / 8) + 8 ≤ Config.params.bufBytes ∧ (sized 1 16).outLen.toNat = 8 * ((1 + 7) / 8) + 8 :=
  ⟨rfl, rfl, by decide, sixteen_le, by decide⟩

theorem witness_KwpUnwrapReleasesVerifiedPlaintext :
    (kwpInput (aiv 3)).kek = some kekZero ∧ (kwpInput (aiv 3)).inLen.toNat = 16 ∧ 16 % 8 = 0 ∧ 16 ≤ 16 ∧
    16 ≤ 4294967295 ∧ 16 ≤ Config.params.bufBytes ∧ (kwpInput (aiv 3)).outLen.toNat = 16 - 8 ∧
    KwpVerified (kwpRecovered Config.params kekZero (kwpInput (aiv 3)) (16 / 8 - 1)) :=
  ⟨rfl, rfl, by decide, by decide, by decide, sixteen_le, rfl, by rw [kwpInput_recovered, KwpVerified]; decide⟩

theorem witness_KwpUnwrapZeroisesOnFailedCheck :
    (kwpInput 0).kek = some kekZero ∧ (kwpInput 0).inLen.toNat = 16 ∧ 16 % 8 = 0 ∧ 16 ≤ 16 ∧
    16 ≤ 4294967295 ∧ 16 ≤ Config.params.bufBytes ∧ (kwpInput 0).outLen.toNat = 16 - 8 ∧
    ¬ KwpVerified (kwpRecovered Config.params kekZero (kwpInput 0) (16 / 8 - 1)) :=
  ⟨rfl, rfl, by decide, by decide, by decide, sixteen_le, rfl, by rw [kwpInput_recovered, KwpVerified]; decide⟩

/-- Q[0:9), and its wrap. -/
def q9 : State := ready toy16 (hex 9 0xC37B7E6492584340BE) 24

theorem witness_KwpRoundTrip :
    let u := unwrapping toy16 (kwpWrap toy16 q9) 24
    FromInit toy16 (toy16.cipher.init k128) ∧ q9.kek = some (toy16.cipher.init k128) ∧ q9.inLen.toNat = 9 ∧
    8 * ((9 + 7) / 8) + 8 ≤ toy16.bufBytes ∧ 8 * ((9 + 7) / 8) + 8 ≤ kwpUnwrapMaxBytes ∧
    q9.outLen.toNat = 8 * ((9 + 7) / 8) + 8 ∧ u.kek = some (toy16.cipher.init k128) ∧
    memRead u .inp 0 24 = memRead (kwpWrap toy16 q9) .out 0 24 ∧ u.inLen.toNat = 24 ∧ u.outLen.toNat = 24 - 8 :=
  ⟨⟨k128, .inl rfl, rfl⟩, rfl, by decide, by decide, by decide, by decide, rfl, by decide +kernel, by decide, by decide⟩

/-- A KWP value of two semiblocks and a KW value of two (K3's last row and P5, with TOY16). -/
theorem witness_CodecsRejectEachOthersValues :
    (let t := kwpWrap toy16 q9
     let u := unwrapping toy16 t 24
     t.err = .success ∧ t.resultLen.toNat = 24 ∧ u.inLen = t.resultLen ∧ u.outLen.toNat = 24 - 8 ∧
      memRead u .inp 0 24 = memRead t .out 0 24) ∧
    (let t := kwWrap toy16 (ready toy16 p16 24)
     let u := unwrapping toy16 t 24
     t.err = .success ∧ t.resultLen.toNat = 24 ∧ u.inLen = t.resultLen ∧ u.outLen.toNat = 24 - 8 ∧
      memRead u .inp 0 24 = memRead t .out 0 24 ∧ 24 ≤ kwpUnwrapMaxBytes) := by decide +kernel

/-- Each of the four codec commands succeeding, for the statements about a success. -/
theorem witness_LengthInvariant :
    (exec .kwWrap (sized 8 16) = .next (kwWrap Config.params (sized 8 16)) ∧
      (kwWrap Config.params (sized 8 16)).err = .success) ∧
    (exec .kwpWrap (sized 1 16) = .next (kwpWrap Config.params (sized 1 16)) ∧
      (kwpWrap Config.params (sized 1 16)).err = .success) ∧
    (exec .kwUnwrap (kwInput ivKw) = .next (kwUnwrap Config.params (kwInput ivKw)) ∧
      (kwUnwrap Config.params (kwInput ivKw)).err = .success) ∧
    (exec .kwpUnwrap (kwpInput (aiv 3)) = .next (kwpUnwrap Config.params (kwpInput (aiv 3))) ∧
      (kwpUnwrap Config.params (kwpInput (aiv 3))).err = .success) :=
  ⟨⟨rfl, kwWrap_succeeds⟩, ⟨rfl, kwpWrap_succeeds⟩, ⟨rfl, kwInput_succeeds⟩, ⟨rfl, kwpInput_succeeds⟩⟩

theorem witness_NoUnverifiedPlaintext :
    isUnwrap .kwUnwrap = true ∧ exec .kwUnwrap (kwInput ivKw) = .next (kwUnwrap Config.params (kwInput ivKw)) :=
  ⟨rfl, rfl⟩

theorem witness_FailedIntegrityLeavesOnlyZeroBytes :
    exec .kwpUnwrap (kwpInput 0) = .next (kwpUnwrap Config.params (kwpInput 0)) ∧
    (kwpUnwrap Config.params (kwpInput 0)).err = .integrityCheckFailed := ⟨rfl, kwpInput_fails⟩

/-- Both unwraps, with a success of each. -/
theorem witness_UnwrapSucceedsExactlyWhenVerified :
    (isUnwrap .kwUnwrap = true ∧ (kwInput ivKw).kek = some kekZero ∧
      SizesPass Config.params .kwUnwrap (kwInput ivKw) 8 ∧
      (kwUnwrap Config.params (kwInput ivKw)).err = .success) ∧
    (isUnwrap .kwpUnwrap = true ∧ (kwpInput (aiv 3)).kek = some kekZero ∧
      SizesPass Config.params .kwpUnwrap (kwpInput (aiv 3)) 8 ∧
      (kwpUnwrap Config.params (kwpInput (aiv 3))).err = .success) :=
  ⟨⟨rfl, rfl, ⟨(by decide : requiredLength .kwUnwrap 16 = some 8), sixteen_le, Nat.le_trans (by decide) sixteen_le, rfl⟩,
      kwInput_succeeds⟩,
    ⟨rfl, rfl, ⟨(by decide : requiredLength .kwpUnwrap 16 = some 8), sixteen_le, Nat.le_trans (by decide) sixteen_le, rfl⟩,
      kwpInput_succeeds⟩⟩

/-- Two states that differ in OUT, KEY, STATUS and the transients. -/
theorem witness_CodecOutcomeDependsOnItsOperandsAlone :
    let s := sized 8 16
    let u := { sized 8 16 with out := [(3, 1)], key := [(0, 7)], err := .illegalCommand, acc := 5 }
    isCodec .kwWrap = true ∧ u.kek = s.kek ∧ u.inLen = s.inLen ∧ u.outLen = s.outLen ∧
    memRead u .inp 0 u.inLen.toNat = memRead s .inp 0 s.inLen.toNat ∧
    exec .kwWrap s = .next (kwWrap Config.params s) ∧ exec .kwWrap u = .next (kwWrap Config.params u) :=
  ⟨rfl, rfl, rfl, rfl, rfl, rfl, rfl⟩

theorem witness_CodecCallsAreIndependent :
    let s := sized 8 16
    let t := kwUnwrap Config.params s
    isCodec .kwUnwrap = true ∧ isCodec .kwWrap = true ∧ exec .kwUnwrap s = .next t ∧
    exec .kwWrap s = .next (kwWrap Config.params s) ∧ exec .kwWrap t = .next (kwWrap Config.params t) :=
  ⟨rfl, rfl, rfl, rfl, rfl⟩

theorem witness_CodecFrame :
    isCodec .kwWrap = true ∧ exec .kwWrap (sized 8 16) = .next (kwWrap Config.params (sized 8 16)) := ⟨rfl, rfl⟩

/-- A byte of IN changed by the host, a byte of OUT by a failing unwrap, a byte of KEY by KEKCLR. -/
theorem witness_WhoWritesTheBuffers :
    (∃ t, step { State.reset with inp := [(0, 1)], pending := [.writeByte .inp 0 2] } = .next t ∧
      readByte t .inp 0 ≠ 1) ∧
    (∃ t, step { kwpInput 0 with pending := [.writeReg 0x00 0x13] } = .next t ∧
      readByte t .out 0 ≠ readByte (kwpInput 0) .out 0) ∧
    (∃ t, step { dropping with pending := [.writeReg 0x00 0x02] } = .next t ∧
      readByte t .key 0 ≠ readByte dropping .key 0) ∧ Memory.wf (unlistedKnown .key) dropping.key :=
  ⟨⟨writeByte { State.reset with inp := [(0, 1)] } .inp 0 2,
      if_pos (Nat.lt_of_lt_of_le (by decide) sixteen_le), by decide⟩,
    ⟨kwpUnwrap Config.params (kwpInput 0), rfl, by rw [(kwpUnwrap_one 0).2]; exact (by decide : (0 : Byte) ≠ 1)⟩,
    ⟨kekClr dropping, rfl, by decide⟩, by decide⟩

theorem witness_NothingElseIssuesACommand :
    (about (.writeReg 0x10 5)).pending = .writeReg 0x10 5 :: [] ∧
    (∀ v, HostAccess.writeReg 0x10 5 ≠ .writeReg 0x00 v) ∧ HostAccess.writeReg 0x10 5 ≠ .reset ∧
    ∃ t, step (about (.writeReg 0x10 5)) = .next t :=
  ⟨rfl, fun _ => by simp, by simp, _, rfl⟩

/-- Two states with different keys bound: a read that is performed, and one that is refused. -/
theorem witness_SecretsAreNotReadable :
    (∀ a, AgreeButSecrets { sized 8 16 with pending := [a] }
      { sized 8 16 with pending := [a], kek := some ⟨[1]⟩, key := [(0, 7)], acc := 5 }) ∧
    (∀ v, HostAccess.readByte .key 0 ≠ .writeReg 0x00 v) ∧
    (∃ t, step { sized 8 16 with pending := [.readByte .key 0] } = .next t) ∧
    step { sized 8 16 with pending := [.readReg 0x38] } = .refused (.noRegister 0x38) :=
  ⟨fun _ => ⟨rfl, rfl, rfl, rfl, rfl, rfl, rfl, rfl, rfl, rfl, rfl, rfl, rfl⟩, fun _ => by simp, ⟨_, rfl⟩, rfl⟩

theorem witness_ScriptLinesExpand :
    (Reg.errInfo, 0x30) ∈ [(Reg.cmd, 0x00), (.status, 0x08), (.inLen, 0x10), (.outLen, 0x18), (.kekLen, 0x20),
      (.resultLen, 0x28), (.errInfo, 0x30)] ∧
    (Instr.kwpUnwrap, 0x13) ∈ [(Instr.kekLoad, 0x01#64), (.kekClr, 0x02), (.kwWrap, 0x10), (.kwUnwrap, 0x11),
      (.kwpWrap, 0x12), (.kwpUnwrap, 0x13)] ∧ 0 < 1 ∧
    requiredReturns (.expect .status 0x110) ≠ [] ∧ requiredReturns (.expectb .out 0 [0xA6]) ≠ [] := by decide

/-- A state in the invariant that holds a KEK and a key byte, and a step from it. -/
theorem witness_StepKeepsTheInvariant :
    Inv Config.params { dropping with done := true } ∧
    ∃ t, step { dropping with done := true } = .next t :=
  ⟨{ memories := ⟨by decide, by decide, by decide, by simp [dropping, sized, State.reset],
        by simp [dropping, sized, State.reset], by simp [dropping, sized, spaceSize]⟩
     transients := ⟨rfl, rfl, rfl, rfl, rfl⟩
     outcome := ⟨fun _ => rfl, fun _ _ => rfl, fun h => by simp [dropping, sized, State.reset] at h,
        fun h => by simp [dropping, sized, State.reset] at h, Nat.zero_le _, fun h => by simp at h⟩
     slot := fun k h => by
      rw [show k = kekZero from (Option.some.inj h).symm]
      exact kekZero_fromInit }, _, rfl⟩

end Sys2Proof.Tests
end

/-! ### What a command keeps of the invariant while it runs -/

namespace Sys2Proof.Machine

open Sys2Proof

/-- The part of the invariant that holds at every point of a command, between its first and its last micro-operation
too: the memories (R60) and the KEK slot (R128). -/
structure StoreOk (P : Params) (s : State) : Prop where
  memories : MemoriesOk P s
  slot : ∀ k, s.kek = some k → FromInit P k

variable {P : Params} {s t : State}

theorem Inv.storeOk (h : Inv P s) : StoreOk P s := ⟨h.memories, h.slot⟩

/-- The memories are in order when each space is canonical and inside its bound (R60). -/
theorem memoriesOk_iff : MemoriesOk P s ↔
    ∀ S, Memory.wf (unlistedKnown S) (s.mem S) ∧ Memory.within (spaceSize P S) (s.mem S) := by
  constructor
  · rintro ⟨hi, ho, hk, hi', ho', hk'⟩ (_ | _ | _)
    exacts [⟨hi, hi'⟩, ⟨ho, ho'⟩, ⟨hk, hk'⟩]
  · exact fun h => ⟨(h .inp).1, (h .out).1, (h .key).1, (h .inp).2, (h .out).2, (h .key).2⟩

theorem mem_writeByte_ne {S T : Space} (h : T ≠ S) (s : State) (a : Nat) (b : Byte) :
    (writeByte s S a b).mem T = s.mem T := by
  cases S <;> cases T <;> first | exact absurd rfl h | rfl

theorem mem_memWrite_ne {S T : Space} (h : T ≠ S) (s : State) (a : Nat) (bs : List Byte) :
    (memWrite s S a bs).mem T = s.mem T := by
  induction bs generalizing s a with
  | nil => rfl
  | cons b bs ih => rw [memWrite, ih, mem_writeByte_ne h]

/-- A write of a string inside a space keeps the memories in order (R11, R60). -/
theorem MemoriesOk.memWrite (h : MemoriesOk P s) {S : Space} {a : Nat} {bs : List Byte}
    (hb : a + bs.length ≤ spaceSize P S) : MemoriesOk P (memWrite s S a bs) := by
  rw [memoriesOk_iff] at h ⊢
  intro T
  by_cases hT : T = S
  · subst hT
    exact ⟨memWrite_wf (h T).1 a bs, memWrite_within (h T).2 a bs hb⟩
  · rw [mem_memWrite_ne hT]
    exact h T

namespace StoreOk

/-- Only the spaces and the slot count. -/
theorem of_eq (h : StoreOk P s) (hm : ∀ S, t.mem S = s.mem S) (hk : t.kek = s.kek) : StoreOk P t where
  memories := memoriesOk_iff.mpr fun S => by rw [hm S]; exact memoriesOk_iff.mp h.memories S
  slot k h' := h.slot k (hk ▸ h')

theorem setAcc (h : StoreOk P s) (x : Semiblock) : StoreOk P (s.setAcc x) := h.of_eq (fun S => by cases S <;> rfl) rfl

theorem setBlk (h : StoreOk P s) (b : Block) : StoreOk P (s.setBlk b) := h.of_eq (fun S => by cases S <;> rfl) rfl

theorem setCount (h : StoreOk P s) (n : Option Nat) : StoreOk P (s.setCount n) :=
  h.of_eq (fun S => by cases S <;> rfl) rfl

theorem setCtr (h : StoreOk P s) (n : Option Nat) : StoreOk P (s.setCtr n) :=
  h.of_eq (fun S => by cases S <;> rfl) rfl

theorem setSeq (h : StoreOk P s) (p : Option (Nat × Nat)) : StoreOk P (s.setSeq p) :=
  h.of_eq (fun S => by cases S <;> rfl) rfl

theorem setKek (h : StoreOk P s) {k : Option CipherState} (hk : ∀ k', k = some k' → FromInit P k') :
    StoreOk P (s.setKek k) :=
  ⟨memoriesOk_iff.mpr fun S => by cases S <;> exact memoriesOk_iff.mp h.memories _, hk⟩

theorem memWrite (h : StoreOk P s) {S : Space} {a : Nat} {bs : List Byte} (hb : a + bs.length ≤ spaceSize P S) :
    StoreOk P (memWrite s S a bs) :=
  ⟨h.memories.memWrite hb, fun k hk => h.slot k (by simpa using hk)⟩

/-- OUT is as large as the buffers (R60). -/
theorem memWrite_out (h : StoreOk P s) {a : Nat} {bs : List Byte} (hb : a + bs.length ≤ P.bufBytes) :
    StoreOk P (Machine.memWrite s .out a bs) := h.memWrite hb

theorem wStep (h : StoreOk P s) {k : CipherState} {base n : Nat} {p : Nat × Nat}
    (hb : base + 8 * p.2 + 8 ≤ P.bufBytes) : StoreOk P (wStep P k base n p s) :=
  ((((h.setCtr _).setBlk _).setAcc _).memWrite_out (by simpa using hb)).setSeq _

theorem winvStep (h : StoreOk P s) {k : CipherState} {base n : Nat} {p : Nat × Nat}
    (hb : base + 8 * p.2 + 8 ≤ P.bufBytes) : StoreOk P (winvStep P k base n p s) :=
  ((((h.setCtr _).setBlk _).setAcc _).memWrite_out (by simpa using hb)).setSeq _

/-- A run of forward steps among n semiblocks that lie inside OUT. -/
theorem forwardRun (h : StoreOk P s) {k : CipherState} {base n : Nat} (hn : Positioned n s)
    (hb : base + 8 * n ≤ P.bufBytes) (m : Nat) : StoreOk P (forwardRun P k base m s) := by
  induction m generalizing s with
  | zero => exact h
  | succ m ih =>
    refine ih ?_ (hn.forwardAdvance P k base)
    unfold Machine.forwardAdvance
    split
    · next p _ hp _ =>
      have := hn.2 p hp
      exact h.wStep (by omega)
    · exact h

/-- A run of inverse steps among n semiblocks that lie inside OUT. -/
theorem inverseRun (h : StoreOk P s) {k : CipherState} {base n : Nat} (hn : Positioned n s)
    (hb : base + 8 * n ≤ P.bufBytes) (m : Nat) : StoreOk P (inverseRun P k base m s) := by
  induction m generalizing s with
  | zero => exact h
  | succ m ih =>
    refine ih ?_ (hn.inverseAdvance P k base)
    unfold Machine.inverseAdvance
    split
    · next p _ hp _ =>
      have := hn.2 p hp
      exact h.winvStep (by omega)
    · exact h

theorem transformW (h : StoreOk P s) {k : CipherState} {base n : Nat} (hb : base + 8 * n ≤ P.bufBytes) :
    StoreOk P (transformW P k base n s) := by
  have hstart : StoreOk P (forwardStart n s) := (h.setCount _).setSeq _
  rcases Nat.eq_zero_or_pos n with rfl | hn
  · exact hstart
  · exact hstart.forwardRun ⟨rfl, by rintro _ ⟨⟩; exact hn⟩ hb _

theorem transformWinv (h : StoreOk P s) {k : CipherState} {base n : Nat} (hb : base + 8 * n ≤ P.bufBytes) :
    StoreOk P (transformWinv P k base n s) := by
  have hstart : StoreOk P (inverseStart n s) := (h.setCount _).setSeq _
  rcases Nat.eq_zero_or_pos n with rfl | hn
  · exact hstart
  · exact hstart.inverseRun ⟨rfl, by rintro _ ⟨⟩; exact Nat.sub_lt hn Nat.one_pos⟩ hb _

end StoreOk

/-! ### The two ends of a command establish the invariant -/

/-- The number an error carries is one it may report (R232, R236, R237). -/
def EngineError.Reportable (P : Params) : EngineError → Prop
  | .invalidKekSize size => kekSizeOk size.toNat = false
  | .invalidOutputSize expected => 8 ≤ expected.toNat ∧ expected.toNat ≤ P.bufBytes
  | .invalidDataSize | .integrityCheckFailed | .kekNotLoaded | .illegalCommand => True

theorem OutcomeOk.raise {e : EngineError} (he : e.Reportable P) (s : State) : OutcomeOk P (raise e s) where
  error_result _ := rfl
  plain_info hkek hout := by
    cases e with
    | invalidKekSize => exact absurd rfl hkek
    | invalidOutputSize => exact absurd rfl hout
    | _ => rfl
  size_info h := by
    cases e with
    | invalidKekSize => exact he
    | _ => cases h
  expected_info h := by
    cases e with
    | invalidOutputSize => exact he
    | _ => cases h
  result_in := Nat.zero_le _
  not_done h := by cases h

theorem OutcomeOk.complete {n : Nat} (hn : n ≤ P.bufBytes) (s : State) : OutcomeOk P (complete n s) where
  error_result h := absurd rfl h
  plain_info _ _ := rfl
  size_info h := by cases h
  expected_info h := by cases h
  result_in := by
    rw [complete_resultLen, BitVec.toNat_ofNat]
    exact (Nat.mod_le _ _).trans hn
  not_done h := by cases h

theorem StoreOk.raise (h : StoreOk P s) {e : EngineError} (he : e.Reportable P) : Inv P (raise e s) :=
  have h' : StoreOk P (Machine.raise e s) := h.of_eq (fun S => by cases S <;> rfl) rfl
  ⟨h'.memories, ⟨rfl, rfl, rfl, rfl, rfl⟩, .raise he s, h'.slot⟩

theorem StoreOk.complete (h : StoreOk P s) {n : Nat} (hn : n ≤ P.bufBytes) : Inv P (complete n s) :=
  have h' : StoreOk P (Machine.complete n s) := h.of_eq (fun S => by cases S <;> rfl) rfl
  ⟨h'.memories, ⟨rfl, rfl, rfl, rfl, rfl⟩, .complete hn s, h'.slot⟩

theorem StoreOk.failIntegrity (h : StoreOk P s) {E : Nat} (hE : E ≤ P.bufBytes) : Inv P (failIntegrity E s) :=
  (h.memWrite_out (by simpa using hE)).raise trivial

end Sys2Proof.Machine

/-! ### Every command establishes the invariant -/

namespace Sys2Proof.Machine

open Sys2Proof

variable {P : Params} {s t : State} {k : CipherState} {L E : Nat}

theorem kwWrapBody_inv (h : StoreOk P s) (hE : L + 8 ≤ E) (hB : E ≤ P.bufBytes) : Inv P (kwWrapBody P k L E s) :=
  ((((h.setAcc _).memWrite_out (by simp; omega)).transformW (by omega)).memWrite_out
    (by simp; omega)).complete hB

theorem kwUnwrapBody_inv (h : StoreOk P s) (hE : 8 * (L / 8 - 1) ≤ E) (hB : E ≤ P.bufBytes) :
    Inv P (kwUnwrapBody P k L E s) := by
  simp only [kwUnwrapBody]
  split
  · exact (((h.setAcc _).memWrite_out (by simpa using hB)).transformWinv (by omega)).failIntegrity hB
  · exact (((h.setAcc _).memWrite_out (by simpa using hB)).transformWinv (by omega)).complete hB

theorem kwpWrapBody_inv (h : StoreOk P s) (hE : E = 8 * ceil8 L + 8) (hL : L ≤ 8 * ceil8 L) (hB : E ≤ P.bufBytes) :
    Inv P (kwpWrapBody P k L E s) := by
  simp only [kwpWrapBody]
  split
  · exact (((h.setCount _).setBlk _).memWrite_out (by simp; omega)).complete hB
  · exact (((((h.setAcc _).memWrite_out (by simp; omega)).memWrite_out
      (by simp; omega)).transformW (by omega)).memWrite_out (by simp; omega)).complete hB

theorem kwpRecover_storeOk (h : StoreOk P s) {n : Nat} (hE : E = 8 * n) (hB : E ≤ P.bufBytes) :
    StoreOk P (kwpRecover P k n E s) := by
  simp only [kwpRecover]
  split
  · exact (((h.setCount _).setBlk _).setAcc _).memWrite_out (by simp; omega)
  · exact ((h.setAcc _).memWrite_out (by simpa using hB)).transformWinv (by omega)

theorem kwpUnwrapBody_inv (h : StoreOk P s) (hE : E = 8 * (L / 8 - 1)) (hB : E ≤ P.bufBytes) :
    Inv P (kwpUnwrapBody P k L E s) := by
  have hrec : StoreOk P (kwpRecover P k (L / 8 - 1) E s) := kwpRecover_storeOk h hE hB
  simp only [kwpUnwrapBody]
  split
  · exact hrec.failIntegrity hB
  · next mli hmli =>
    obtain ⟨-, -, -, -, hle, -⟩ := kwpCheck_eq hmli
    exact hrec.complete (by omega)

/-- A codec command establishes the invariant when its work does, and its length rule requires at least one
semiblock of output (R237). -/
theorem codec_inv {required : Nat → Option Nat} {body : CipherState → Nat → Nat → State → State} (h : StoreOk P s)
    (hreq : ∀ E, required s.inLen.toNat = some E → 8 ≤ E)
    (hbody : ∀ k E, required s.inLen.toNat = some E → E ≤ P.bufBytes → Inv P (body k s.inLen.toNat E s)) :
    Inv P (codec P required body s) := by
  obtain ⟨-, hc⟩ | ⟨k, -, -, hc⟩ | ⟨k, E, -, -, -, hc⟩ | ⟨k, E, -, hE, -, hB, -, hc⟩ | ⟨k, E, -, hE, -, hB, -, hc⟩ :=
    codec_cases P required body s <;> rw [hc]
  · exact h.raise trivial
  · exact h.raise trivial
  · exact h.raise trivial
  · have hlt := P.bufBytes_le
    refine h.raise ?_
    rw [EngineError.Reportable, BitVec.toNat_ofNat, Nat.mod_eq_of_lt (by omega)]
    exact ⟨hreq E hE, hB⟩
  · exact hbody k E hE hB

theorem kekSizeOk_iff {n : Nat} : kekSizeOk n = true ↔ n = 16 ∨ n = 24 ∨ n = 32 := by
  simp [kekSizeOk, or_assoc]

theorem kekLoad_inv (h : StoreOk P s) : Inv P (kekLoad P s) := by
  unfold kekLoad
  split
  · next hsize =>
    have hinit : FromInit P (P.cipher.init (memRead s .key 0 s.kekLen.toNat)) :=
      ⟨_, by rw [memRead_length]; exact kekSizeOk_iff.mp hsize, rfl⟩
    exact (h.setKek (by rintro _ ⟨⟩; exact hinit)).complete (Nat.zero_le _)
  · next hsize => exact h.raise (Bool.eq_false_of_not_eq_true hsize)

theorem kekClr_inv (h : StoreOk P s) : Inv P (kekClr s) :=
  ((h.setKek (k := none) (by rintro _ ⟨⟩)).memWrite (S := .key) (by simp [spaceSize])).complete (Nat.zero_le _)

/-- Every command establishes the invariant, whatever the outcome registers and the transients held. -/
theorem commandResult_inv (h : StoreOk P s) (i : Instr) : Inv P (commandResult P i s) := by
  cases i with
  | kekLoad => exact kekLoad_inv h
  | kekClr => exact kekClr_inv h
  | kwWrap =>
    refine codec_inv h (fun E hE => ?_) fun k E hE hB => ?_ <;> obtain ⟨-, -, rfl⟩ := kwWrapLength_eq hE
    · omega
    · exact kwWrapBody_inv h le_rfl hB
  | kwUnwrap =>
    refine codec_inv h (fun E hE => ?_) fun k E hE hB => ?_ <;> obtain ⟨-, hL, hE8, -⟩ := kwUnwrapLength_eq hE
    · omega
    · exact kwUnwrapBody_inv h hE8.ge hB
  | kwpWrap =>
    refine codec_inv h (fun E hE => ?_) fun k E hE hB => ?_ <;> obtain ⟨-, -, hE8, hL, -⟩ := kwpWrapLength_eq hE
    · omega
    · exact kwpWrapBody_inv h hE8 hL hB
  | kwpUnwrap =>
    refine codec_inv h (fun E hE => ?_) fun k E hE hB => ?_ <;> obtain ⟨-, hL, -, hE8, -⟩ := kwpUnwrapLength_eq hE
    · omega
    · exact kwpUnwrapBody_inv h hE8 hB

/-! ### Every access keeps it -/

/-- The invariant does not speak of the length registers and the model's own fields. -/
theorem Inv.setOtherFields (h : Inv P s) (inLen outLen kekLen : Word) (pending : List HostAccess)
    (returned : HostReturn) (resets : Nat) : Inv P { s with
      inLen := inLen, outLen := outLen, kekLen := kekLen, pending := pending, returned := returned, resets := resets } :=
  { memories := { h.memories with }, transients := { h.transients with }, outcome := { h.outcome with }, slot := h.slot }

theorem Inv.takeAccess (h : Inv P s) (rest : List HostAccess) : Inv P (s.takeAccess rest) := h.setOtherFields ..

theorem Inv.setReturned (h : Inv P s) (r : HostReturn) : Inv P (s.setReturned r) := h.setOtherFields ..

theorem Inv.storeReg (h : Inv P s) (v : Word) (r : Reg) : Inv P (storeReg v s r) := by
  cases r <;> exact h.setOtherFields ..

theorem Inv.writeByte (h : Inv P s) {S : Space} {a : Nat} (ha : a < spaceSize P S) (b : Byte) :
    Inv P (writeByte s S a b) where
  memories := h.memories.memWrite (bs := [b]) ha
  transients := by cases S <;> exact { h.transients with }
  outcome := by cases S <;> exact { h.outcome with }
  slot k hk := h.slot k (by simpa using hk)

theorem Inv.reset (P : Params) : Inv P State.reset where
  memories := memoriesOk_iff.mpr fun S => ⟨reset_memories_wf S, by cases S <;> rintro _ ⟨⟩⟩
  transients := ⟨rfl, rfl, rfl, rfl, rfl⟩
  outcome := ⟨fun _ => rfl, fun _ _ => rfl, by rintro ⟨⟩, by rintro ⟨⟩, Nat.zero_le _, fun _ => ⟨rfl, rfl, rfl, rfl⟩⟩
  slot := by rintro _ ⟨⟩

theorem Inv.resetAccess (P : Params) (s : State) : Inv P (resetAccess s) := (Inv.reset P).setOtherFields ..

theorem issueCommand_inv (h : Inv Config.params s) {v : Word} (ht : issueCommand v s = .next t) :
    Inv Config.params t := by
  obtain ⟨i, -, hi⟩ | ⟨e, -, rfl⟩ := issueCommand_next ht
  · rw [exec_eq] at hi
    exact Host.Outcome.next.inj hi ▸ commandResult_inv h.storeOk i
  · exact h.storeOk.raise trivial

theorem performAccess_inv (h : Inv Config.params s) {a : HostAccess}
    (ht : performAccess Config.params issueCommand a s = .next t) : Inv Config.params t := by
  obtain ⟨r, -, rfl⟩ | ⟨S, k, -, -, rfl⟩ | ⟨r, v, -, -, rfl⟩ | ⟨S, k, b, -, hk, rfl⟩ | ⟨-, rfl⟩ | ⟨v, -, hv⟩ :=
    performAccess_next ht
  · exact h.setReturned _
  · exact h.setReturned _
  · exact h.storeReg v r
  · exact h.writeByte hk b
  · exact Inv.resetAccess _ _
  · exact issueCommand_inv h hv

/-- Settles O58: a step waits or performs one access, and every access keeps the invariant (`performAccess_inv`);
every command establishes it from the memories and the slot alone (`commandResult_inv`). -/
theorem stepKeepsTheInvariant : Obligations.StepKeepsTheInvariant := by
  intro s t h hstep
  obtain ⟨-, rfl⟩ | ⟨a, rest, -, ha⟩ := step_next hstep
  · exact h
  · exact performAccess_inv (h.takeAccess rest) ha

/-- Settles O57: every memory is empty, every register 0 and the slot empty (`Inv.reset`). -/
theorem resetHasTheInvariant : Obligations.ResetHasTheInvariant := Inv.reset _

end Sys2Proof.Machine

/-! ### The orders of the steps, and the run of the sequencer along them (R33, R143, R145) -/

namespace Sys2Proof.Machine

open Sys2Proof

theorem rounds_length (n r : Nat) :
    ((List.range r).flatMap fun j => (List.range n).map fun i => (j, i)).length = n * r := by
  simp [List.length_flatMap, Nat.mul_comm]

/-- In r rounds of n semiblocks each, the position n·j + i is round j and semiblock i (R147). -/
theorem rounds_getElem? {n i : Nat} (hi : i < n) (r j : Nat) :
    ((List.range r).flatMap fun j => (List.range n).map fun i => (j, i))[n * j + i]? =
      if j < r then some (j, i) else none := by
  induction r generalizing j with
  | zero => simp
  | succ r ih =>
    rw [List.range_succ, List.flatMap_append, List.getElem?_append, rounds_length]
    rcases Nat.lt_trichotomy j r with hj | rfl | hj
    · have : n * (j + 1) ≤ n * r := Nat.mul_le_mul_left n hj
      rw [Nat.mul_succ] at this
      rw [if_pos (by omega), ih, if_pos hj, if_pos (by omega)]
    · rw [if_neg (by omega), if_pos (by omega)]
      simp [hi]
    · have : n * (r + 1) ≤ n * j := Nat.mul_le_mul_left n hj
      rw [Nat.mul_succ] at this
      rw [if_neg (by omega), if_neg (by omega)]
      simp; omega

@[simp] theorem forwardOrder_length (n : Nat) : (forwardOrder n).length = 6 * n :=
  (rounds_length n 6).trans (Nat.mul_comm n 6)

theorem forwardOrder_getElem? {n i : Nat} (hi : i < n) (j : Nat) :
    (forwardOrder n)[n * j + i]? = if j < 6 then some (j, i) else none := rounds_getElem? hi 6 j

/-- The inverse order is the forward order reversed (R145). -/
theorem inverseOrder_eq_reverse (n : Nat) : inverseOrder n = (forwardOrder n).reverse := by
  rw [inverseOrder, forwardOrder, List.reverse_flatMap]
  congr 1
  exact funext fun j => List.map_reverse

/-- A position of the forward order is its round and semiblock (R147). -/
theorem forwardOrder_getElem?_eq_some {n m : Nat} {p : Nat × Nat} (h : (forwardOrder n)[m]? = some p) :
    p.1 < 6 ∧ p.2 < n ∧ m = n * p.1 + p.2 := by
  obtain ⟨hj, hi⟩ := forwardOrder_lt (List.mem_of_getElem? h)
  have hn : 0 < n := by omega
  rw [← Nat.div_add_mod m n, forwardOrder_getElem? (Nat.mod_lt m hn)] at h
  split at h
  · obtain rfl := Option.some.inj h
    exact ⟨hj, hi, (Nat.div_add_mod m n).symm⟩
  · cases h

theorem forwardOrder_zero {n : Nat} (hn : 1 ≤ n) : (forwardOrder n)[0]? = some (0, 0) :=
  forwardOrder_getElem? hn 0

/-- Each position of the forward order is followed by the sequencer's next (R33, R143). -/
theorem forwardOrder_succ {n m : Nat} {p : Nat × Nat} (h : (forwardOrder n)[m]? = some p) :
    (forwardOrder n)[m + 1]? = forwardNext n p := by
  obtain ⟨j, i⟩ := p
  obtain ⟨hj, hi, rfl⟩ := forwardOrder_getElem?_eq_some h
  simp only at hj hi ⊢
  rw [forwardNext]
  split
  · next hlast => rw [Nat.add_assoc, forwardOrder_getElem? hlast, if_pos hj]
  · next hlast =>
    have hround : n * j + i + 1 = n * (j + 1) + 0 := by rw [Nat.mul_succ]; omega
    rw [hround, forwardOrder_getElem? (by omega)]
    exact if_congr (by omega) rfl rfl

@[simp] theorem inverseOrder_length (n : Nat) : (inverseOrder n).length = 6 * n := by
  simp [inverseOrder_eq_reverse]

theorem inverseOrder_getElem? {n m : Nat} (h : m < 6 * n) : (inverseOrder n)[m]? = (forwardOrder n)[6 * n - 1 - m]? := by
  rw [inverseOrder_eq_reverse, List.getElem?_reverse (by simpa using h), forwardOrder_length]

theorem inverseOrder_zero {n : Nat} (hn : 1 ≤ n) : (inverseOrder n)[0]? = some (5, n - 1) := by
  rw [inverseOrder_getElem? (by omega), show 6 * n - 1 - 0 = n * 5 + (n - 1) by omega, forwardOrder_getElem? (by omega)]
  rfl

/-- Each position of the inverse order is followed by the sequencer's next (R33, R145). -/
theorem inverseOrder_succ {n m : Nat} {p : Nat × Nat} (h : (inverseOrder n)[m]? = some p) :
    (inverseOrder n)[m + 1]? = inverseNext n p := by
  have hm : m < 6 * n := inverseOrder_length n ▸ (List.getElem?_eq_some_iff.mp h).1
  rw [inverseOrder_getElem? hm] at h
  obtain ⟨j, i⟩ := p
  obtain ⟨hj, hi, hpos⟩ := forwardOrder_getElem?_eq_some h
  simp only at hj hi hpos
  rw [inverseNext]
  split
  · next h0 =>
    rw [inverseOrder_getElem? (by omega), show 6 * n - 1 - (m + 1) = n * j + (i - 1) by omega,
      forwardOrder_getElem? (by omega), if_pos hj]
  · split
    · next h0 =>
      obtain ⟨j, rfl⟩ := Nat.exists_eq_add_one_of_ne_zero h0.ne'
      rw [Nat.mul_succ] at hpos
      rw [inverseOrder_getElem? (by omega), show 6 * n - 1 - (m + 1) = n * j + (n - 1) by omega,
        forwardOrder_getElem? (by omega), if_pos (by omega)]
      rfl
    · next h0 =>
      obtain rfl : j = 0 := by omega
      exact List.getElem?_eq_none (by rw [inverseOrder_length]; omega)

/-! The sequencer's run. -/

variable {P : Params} {k : CipherState} {base n : Nat} {s : State}

theorem forwardAdvance_of_seq_none (h : s.seq = none) : forwardAdvance P k base s = s := by
  simp [forwardAdvance, h]

theorem inverseAdvance_of_seq_none (h : s.seq = none) : inverseAdvance P k base s = s := by
  simp [inverseAdvance, h]

theorem forwardRun_count (m : Nat) : (forwardRun P k base m (forwardStart n s)).count = some n :=
  forwardRun_keeps (Q := fun t => t.count = some n) (fun _ _ _ h => by rw [wStep_count, h]) m _ rfl

theorem inverseRun_count (m : Nat) : (inverseRun P k base m (inverseStart n s)).count = some n :=
  inverseRun_keeps (Q := fun t => t.count = some n) (fun _ _ _ h => by rw [winvStep_count, h]) m _ rfl

/-- After m forward steps the sequencer stands at position m of the order (R33, R147). -/
theorem forwardRun_seq (hn : 1 ≤ n) (m : Nat) :
    (forwardRun P k base m (forwardStart n s)).seq = (forwardOrder n)[m]? := by
  induction m with
  | zero => exact (forwardOrder_zero hn).symm
  | succ m ih =>
    rw [forwardRun_succ]
    cases hp : (forwardOrder n)[m]? with
    | some p => rw [forwardAdvance_of (ih.trans hp) (forwardRun_count m), wStep_seq, forwardOrder_succ hp]
    | none =>
      have hend : (forwardOrder n).length ≤ m := List.getElem?_eq_none_iff.mp hp
      rw [forwardAdvance_of_seq_none (ih.trans hp), ih, hp, List.getElem?_eq_none (hend.trans m.le_succ)]

/-- After m inverse steps the sequencer stands at position m of the order (R33, R147). -/
theorem inverseRun_seq (hn : 1 ≤ n) (m : Nat) :
    (inverseRun P k base m (inverseStart n s)).seq = (inverseOrder n)[m]? := by
  induction m with
  | zero => exact (inverseOrder_zero hn).symm
  | succ m ih =>
    rw [inverseRun_succ]
    cases hp : (inverseOrder n)[m]? with
    | some p => rw [inverseAdvance_of (ih.trans hp) (inverseRun_count m), winvStep_seq, inverseOrder_succ hp]
    | none =>
      have hend : (inverseOrder n).length ≤ m := List.getElem?_eq_none_iff.mp hp
      rw [inverseAdvance_of_seq_none (ih.trans hp), ih, hp, List.getElem?_eq_none (hend.trans m.le_succ)]

/-- Step m of a forward run is the one at position m of the order (R143). -/
theorem forwardRun_step (hn : 1 ≤ n) {m : Nat} {p : Nat × Nat} (hp : (forwardOrder n)[m]? = some p) :
    forwardRun P k base (m + 1) (forwardStart n s) = wStep P k base n p (forwardRun P k base m (forwardStart n s)) := by
  rw [forwardRun_succ, forwardAdvance_of ((forwardRun_seq hn m).trans hp) (forwardRun_count m)]

/-- Step m of an inverse run is the one at position m of the order (R145). -/
theorem inverseRun_step (hn : 1 ≤ n) {m : Nat} {p : Nat × Nat} (hp : (inverseOrder n)[m]? = some p) :
    inverseRun P k base (m + 1) (inverseStart n s) =
      winvStep P k base n p (inverseRun P k base m (inverseStart n s)) := by
  rw [inverseRun_succ, inverseAdvance_of ((inverseRun_seq hn m).trans hp) (inverseRun_count m)]

theorem transformW_seq (hn : 1 ≤ n) : (transformW P k base n s).seq = none := by
  rw [transformW, forwardRun_seq hn, List.getElem?_eq_none (forwardOrder_length n).le]

theorem transformWinv_seq (hn : 1 ≤ n) : (transformWinv P k base n s).seq = none := by
  rw [transformWinv, inverseRun_seq hn, List.getElem?_eq_none (inverseOrder_length n).le]

/-- Settles O29: the orders start and go on as the sequencer does (`forwardOrder_succ`, `inverseOrder_succ`), so by
induction on the steps the run stands at their positions (`forwardRun_seq`, `inverseRun_seq`). -/
theorem sequencerWalksTheOrder : Obligations.SequencerWalksTheOrder := by
  intro n hn
  refine ⟨⟨forwardOrder_zero hn, fun _ _ => forwardOrder_succ, inverseOrder_zero hn, fun _ _ => inverseOrder_succ⟩,
    fun P k base s => ?_⟩
  exact ⟨forwardRun_seq hn, fun _ _ => forwardRun_step hn, inverseRun_seq hn, fun _ _ => inverseRun_step hn,
    transformW_seq hn, transformWinv_seq hn⟩

end Sys2Proof.Machine

/-! ### What every command keeps (R29 to R31, R72, R128) -/

namespace Sys2Proof.Machine

open Sys2Proof

variable {P : Params} {s : State}

/-- A codec command keeps KEY, the slot and what no command writes, when its work does (R237). -/
theorem codec_keeps {required : Nat → Option Nat} {body : CipherState → Nat → Nat → State → State}
    (hbody : ∀ k E, CodecKeeps s (body k s.inLen.toNat E s)) : CodecKeeps s (codec P required body s) := by
  obtain ⟨-, hc⟩ | ⟨k, -, -, hc⟩ | ⟨k, E, -, -, -, hc⟩ | ⟨k, E, -, -, -, -, -, hc⟩ | ⟨k, E, -, -, -, -, -, hc⟩ :=
    codec_cases P required body s <;> rw [hc]
  case inr.inr.inr.inr => exact hbody k E
  all_goals exact (CodecKeeps.refl s).raise _

/-- A codec command keeps OUT from OUT_LEN on, when its work keeps OUT from the required length on (R237). -/
theorem codec_out {required : Nat → Option Nat} {body : CipherState → Nat → Nat → State → State}
    (hbody : ∀ k E, required s.inLen.toNat = some E → OutKeptFrom E s (body k s.inLen.toNat E s)) :
    OutKeptFrom s.outLen.toNat s (codec P required body s) := by
  obtain ⟨-, hc⟩ | ⟨k, -, -, hc⟩ | ⟨k, E, -, -, -, hc⟩ | ⟨k, E, -, -, -, -, -, hc⟩ | ⟨k, E, -, hE, -, -, ho, hc⟩ :=
    codec_cases P required body s <;> rw [hc]
  case inr.inr.inr.inr => exact ho ▸ hbody k E hE
  all_goals exact (OutKeptFrom.refl _ s).raise _

theorem kwWrap_out (P : Params) (s : State) : OutKeptFrom s.outLen.toNat s (kwWrap P s) :=
  codec_out fun k E hE => by
    obtain ⟨-, -, rfl⟩ := kwWrapLength_eq hE
    exact kwWrapBody_out P k s (by omega) le_rfl

theorem kwUnwrap_out (P : Params) (s : State) : OutKeptFrom s.outLen.toNat s (kwUnwrap P s) :=
  codec_out fun k E hE => by
    obtain ⟨-, -, hE8, -⟩ := kwUnwrapLength_eq hE
    exact kwUnwrapBody_out P k s hE8.ge

theorem kwpWrap_out (P : Params) (s : State) : OutKeptFrom s.outLen.toNat s (kwpWrap P s) :=
  codec_out fun k E hE => by
    obtain ⟨-, -, hE8, hL, -⟩ := kwpWrapLength_eq hE
    exact kwpWrapBody_out P k s hE8 hL

theorem kwpUnwrap_out (P : Params) (s : State) : OutKeptFrom s.outLen.toNat s (kwpUnwrap P s) :=
  codec_out fun k E hE => by
    obtain ⟨-, -, -, hE8, -⟩ := kwpUnwrapLength_eq hE
    exact kwpUnwrapBody_out P k s hE8

/-- A codec command writes OUT below OUT_LEN, the outcome registers and the transients alone (R72, R128). -/
theorem codecCommand_frame {i : Instr} (hi : isCodec i = true) (P : Params) (s : State) :
    CodecKeeps s (commandResult P i s) ∧ OutKeptFrom s.outLen.toNat s (commandResult P i s) := by
  cases i with
  | kekLoad => cases hi
  | kekClr => cases hi
  | kwWrap => exact ⟨codec_keeps fun k E => kwWrapBody_keeps P k _ E s, kwWrap_out P s⟩
  | kwUnwrap => exact ⟨codec_keeps fun k E => kwUnwrapBody_keeps P k _ E s, kwUnwrap_out P s⟩
  | kwpWrap => exact ⟨codec_keeps fun k E => kwpWrapBody_keeps P k _ E s, kwpWrap_out P s⟩
  | kwpUnwrap => exact ⟨codec_keeps fun k E => kwpUnwrapBody_keeps P k _ E s, kwpUnwrap_out P s⟩

/-- KEKLOAD writes no byte of any space (R126). -/
theorem readByte_kekLoad (P : Params) (s : State) (S : Space) (a : Nat) :
    readByte (kekLoad P s) S a = readByte s S a := by
  unfold kekLoad
  split <;> simp

/-- KEKCLR writes no byte of IN and OUT (R127). -/
theorem readByte_kekClr_ne {S : Space} (h : S ≠ .key) (s : State) (a : Nat) :
    readByte (kekClr s) S a = readByte s S a := by
  rw [kekClr, readByte_complete, readByte_memWrite_ne h, readByte_setKek]

/-- No command writes IN (R29). -/
theorem readByte_commandResult_inp (P : Params) (i : Instr) (s : State) (a : Nat) :
    readByte (commandResult P i s) .inp a = readByte s .inp a := by
  cases i with
  | kekLoad => exact readByte_kekLoad ..
  | kekClr => exact readByte_kekClr_ne (by decide) ..
  | kwWrap | kwUnwrap | kwpWrap | kwpUnwrap => exact (codecCommand_frame rfl P s).1.inp a

/-- Of the commands only the codecs write OUT, below OUT_LEN (R30, R72). -/
theorem readByte_commandResult_out {i : Instr} {a : Nat} (h : isCodec i = true → s.outLen.toNat ≤ a) (P : Params) :
    readByte (commandResult P i s) .out a = readByte s .out a := by
  cases i with
  | kekLoad => exact readByte_kekLoad ..
  | kekClr => exact readByte_kekClr_ne (by decide) ..
  | kwWrap | kwUnwrap | kwpWrap | kwpUnwrap => exact (codecCommand_frame rfl P s).2 a (h rfl)

/-- Of the commands only KEKCLR writes KEY (R31). -/
theorem readByte_commandResult_key {i : Instr} (h : i ≠ .kekClr) (P : Params) (s : State) (a : Nat) :
    readByte (commandResult P i s) .key a = readByte s .key a := by
  cases i with
  | kekLoad => exact readByte_kekLoad ..
  | kekClr => exact absurd rfl h
  | kwWrap | kwUnwrap | kwpWrap | kwpUnwrap => exact (codecCommand_frame rfl P s).1.key a

end Sys2Proof.Machine

/-! ### What one access does to the bytes -/

namespace Sys2Proof.Machine

open Sys2Proof

variable {P : Params} {s t u : State}

/-- A word that decodes is the word of its command (R92, R93). -/
theorem eq_encode_of_decode {v : Word} {i : Instr} (h : decode v = .ok i) : v = encode i := by
  unfold decode at h
  split_ifs at h <;> cases h <;> assumption

/-- A byte of any space after a write of one byte, where KEY is in canonical form. -/
theorem readByte_writeByte (h : Memory.wf (unlistedKnown .key) s.key) (S T : Space) (a x : Nat) (b : Byte) :
    readByte (writeByte s S a b) T x = if T = S ∧ x = a then b else readByte s T x := by
  by_cases hT : T = S
  · subst hT
    cases T with
    | inp => simp [readByte_writeByte_inp]
    | out => simp [readByte_writeByte_out]
    | key => simp [readByte_writeByte_key h]
  · rw [readByte_writeByte_ne hT, if_neg (fun hc => hT hc.1)]

@[simp] theorem readByte_storeReg (v : Word) (s : State) (r : Reg) (S : Space) (a : Nat) :
    readByte (storeReg v s r) S a = readByte s S a := by
  cases r <;> cases S <;> rfl

/-- A byte changes in a step by a host write to it, by a reset or by a command. -/
theorem step_changes_byte {S : Space} {a : Nat} (hwf : Memory.wf (unlistedKnown .key) s.key) (h : step s = .next t)
    (hne : readByte t S a ≠ readByte s S a) :
    ∃ rest, (∃ b, s.pending = .writeByte S a b :: rest) ∨ s.pending = .reset :: rest ∨
      ∃ v i, s.pending = .writeReg 0x00 v :: rest ∧ decode v = .ok i ∧
        readByte (commandResult Config.params i (s.takeAccess rest)) S a ≠ readByte (s.takeAccess rest) S a := by
  obtain ⟨-, rfl⟩ | ⟨x, rest, hp, hx⟩ := step_next h
  · exact absurd rfl hne
  refine ⟨rest, ?_⟩
  obtain ⟨r, -, rfl⟩ | ⟨T, k, -, -, rfl⟩ | ⟨r, v, -, -, rfl⟩ | ⟨T, k, b, rfl, -, rfl⟩ | ⟨rfl, -⟩ | ⟨v, rfl, hv⟩ :=
    performAccess_next hx
  · exact absurd (by simp) hne
  · exact absurd (by simp) hne
  · exact absurd (by simp) hne
  · rw [readByte_writeByte (by simpa using hwf)] at hne
    split at hne
    · next heq =>
      obtain ⟨rfl, rfl⟩ := heq
      exact .inl ⟨b, hp⟩
    · exact absurd (by simp) hne
  · exact .inr (.inl hp)
  · obtain ⟨i, hi, hexec⟩ | ⟨e, -, rfl⟩ := issueCommand_next hv
    · rw [exec_eq] at hexec
      obtain rfl := Host.Outcome.next.inj hexec
      exact .inr (.inr ⟨v, i, hp, hi, by simpa using hne⟩)
    · exact absurd (by simp [illegalCommand]) hne

/-- Settles O54: of the commands none writes IN, only a codec writes OUT, below OUT_LEN, and only KEKCLR writes KEY. -/
theorem whoWritesTheBuffers : Obligations.WhoWritesTheBuffers := by
  intro s t a hwf h
  refine ⟨fun hne => ?_, fun hne => ?_, fun hne => ?_⟩ <;>
    obtain ⟨rest, hw | hr | ⟨v, i, hp, hi, hne'⟩⟩ := step_changes_byte hwf h hne
  · exact ⟨rest, .inl hw⟩
  · exact ⟨rest, .inr hr⟩
  · exact absurd (readByte_commandResult_inp ..) hne'
  · exact ⟨rest, .inl hw⟩
  · exact ⟨rest, .inr (.inl hr)⟩
  · obtain ⟨hcodec, hlt⟩ : isCodec i = true ∧ a < s.outLen.toNat := by
      by_contra hn
      exact hne' (readByte_commandResult_out (s := s.takeAccess rest) (fun hc => not_lt.mp fun hlt => hn ⟨hc, hlt⟩) _)
    exact ⟨rest, .inr (.inr ⟨v, i, hp, hi, hcodec, hlt⟩)⟩
  · exact ⟨rest, .inl hw⟩
  · exact ⟨rest, .inr (.inl hr)⟩
  · obtain rfl : i = .kekClr := by
      by_contra hn
      exact hne' (readByte_commandResult_key hn ..)
    obtain rfl : v = 0x02 := eq_encode_of_decode hi
    exact ⟨rest, .inr (.inr hp)⟩

/-! ### Accesses that are refused (R41) -/

/-- Every value of CMD has an outcome (R218). -/
theorem issueCommand_total (v : Word) (s : State) : ∃ t, issueCommand v s = .next t := by
  unfold issueCommand
  split
  · exact ⟨_, exec_eq _ s⟩
  · exact ⟨_, rfl⟩

theorem performAccess_noRegister {issue : Word → State → Host.Outcome State Fault Refusal} {a : HostAccess} {off : Nat}
    (ha : a = .readReg off ∨ ∃ v, a = .writeReg off v) (hoff : off % 8 ≠ 0 ∨ 0x38 ≤ off) :
    performAccess P issue a s = .refused (.noRegister off) := by
  obtain rfl | ⟨v, rfl⟩ := ha <;> simp [performAccess, regAt_eq_none.mpr hoff]

theorem performAccess_noBufferByte {issue : Word → State → Host.Outcome State Fault Refusal} {a : HostAccess}
    {S : Space} {k : Nat} (ha : a = .readByte S k ∨ ∃ b, a = .writeByte S k b) (hk : spaceSize P S ≤ k) :
    performAccess P issue a s = .refused (.noBufferByte S k) := by
  obtain rfl | ⟨b, rfl⟩ := ha <;> exact if_neg (Nat.not_lt.mpr hk)

/-- Settles O8: a step is refused when the access it performs is (`performAccess_refused_iff`), with the name of what
is missing. -/
theorem undefinedOffsetsAreRefused : Obligations.UndefinedOffsetsAreRefused := by
  intro s a rest hp
  rw [step_of_pending hp]
  refine ⟨performAccess_refused_iff issueCommand_total a _, fun off => performAccess_noRegister, fun S k ha hk => ?_⟩
  exact performAccess_noBufferByte ha (by cases S <;> exact hk)

/-! ### What the host cannot see (R247) -/

namespace AgreeButSecrets

theorem takeAccess (h : AgreeButSecrets s u) (rest : List HostAccess) :
    AgreeButSecrets (s.takeAccess rest) (u.takeAccess rest) :=
  { h with pending := rfl, returned := rfl }

theorem setReturned (h : AgreeButSecrets s u) (r : HostReturn) : AgreeButSecrets (s.setReturned r) (u.setReturned r) :=
  { h with returned := rfl }

theorem storeReg (h : AgreeButSecrets s u) (v : Word) (r : Reg) : AgreeButSecrets (storeReg v s r) (storeReg v u r) := by
  cases r with
  | inLen => exact { h with inLen := rfl }
  | outLen => exact { h with outLen := rfl }
  | kekLen => exact { h with kekLen := rfl }
  | cmd | status | resultLen | errInfo => exact h

theorem writeByte (h : AgreeButSecrets s u) (S : Space) (k : Nat) (b : Byte) :
    AgreeButSecrets (writeByte s S k b) (writeByte u S k b) := by
  cases S with
  | inp => exact { h with inp := congrArg (Memory.store none · k b) h.inp }
  | out => exact { h with out := congrArg (Memory.store none · k b) h.out }
  | key => exact { h with }

theorem resetAccess (h : AgreeButSecrets s u) : AgreeButSecrets (resetAccess s) (resetAccess u) :=
  ⟨rfl, rfl, rfl, rfl, rfl, rfl, rfl, rfl, rfl, rfl, h.pending, rfl, congrArg (· + 1) h.resets⟩

/-- STATUS shows of the slot whether it is filled and no more (R23). -/
theorem readReg (h : AgreeButSecrets s u) (r : Reg) : readReg u r = readReg s r := by
  cases r with
  | cmd => rfl
  | status => simp [Machine.readReg, State.status, h.kekValid, h.done, h.err]
  | inLen => exact h.inLen
  | outLen => exact h.outLen
  | kekLen => exact h.kekLen
  | resultLen => exact h.resultLen
  | errInfo => exact h.errInfo

/-- A read of KEY shows none of its bytes (R31). -/
theorem hostByte (h : AgreeButSecrets s u) (S : Space) (k : Nat) : hostByte u S k = hostByte s S k := by
  cases S with
  | inp => exact readByte_congr (S := .inp) h.inp h.resets k
  | out => exact readByte_congr (S := .out) h.out h.resets k
  | key => rfl

/-- An access other than a command answers two such states alike: both go on and stay alike, or both are refused. -/
theorem performAccess (h : AgreeButSecrets s u) (issue : Word → State → Host.Outcome State Fault Refusal)
    {a : HostAccess} (ha : ∀ v, a ≠ .writeReg 0x00 v) :
    (∃ t v, performAccess P issue a s = .next t ∧ performAccess P issue a u = .next v ∧ AgreeButSecrets t v) ∨
      ∃ r, performAccess P issue a s = .refused r ∧ performAccess P issue a u = .refused r := by
  cases a with
  | readReg off =>
    simp only [Machine.performAccess]
    cases regAt off with
    | none => exact .inr ⟨_, rfl, rfl⟩
    | some r => exact .inl ⟨_, _, rfl, rfl, by rw [h.readReg r]; exact h.setReturned _⟩
  | writeReg off v =>
    simp only [Machine.performAccess]
    cases hr : regAt off with
    | none => exact .inr ⟨_, rfl, rfl⟩
    | some r =>
      have hcmd : r ≠ .cmd := by
        rintro rfl
        exact ha v (by rw [regAt_eq_some.mp hr]; rfl)
      exact .inl ⟨_, _, writeReg_of_ne_cmd issue v s hcmd, writeReg_of_ne_cmd issue v u hcmd, h.storeReg v r⟩
  | readByte S k =>
    by_cases hk : k < spaceSize P S
    · exact .inl ⟨_, _, if_pos hk, if_pos hk, by rw [h.hostByte S k]; exact h.setReturned _⟩
    · exact .inr ⟨_, if_neg hk, if_neg hk⟩
  | writeByte S k b =>
    by_cases hk : k < spaceSize P S
    · exact .inl ⟨_, _, if_pos hk, if_pos hk, h.writeByte S k b⟩
    · exact .inr ⟨_, if_neg hk, if_neg hk⟩
  | reset => exact .inl ⟨_, _, rfl, rfl, h.resetAccess⟩

end AgreeButSecrets

/-- Settles O56: the two states take the same access, and it answers both alike (`AgreeButSecrets.performAccess`). -/
theorem secretsAreNotReadable : Obligations.SecretsAreNotReadable := by
  intro s u a rest h hp ha
  rw [step_of_pending hp, step_of_pending (h.pending.trans hp)]
  obtain ⟨t, v, hs, hu, htv⟩ | ⟨r, hs, hu⟩ := (h.takeAccess rest).performAccess (P := Config.params) issueCommand ha <;>
    rw [hs, hu]
  · refine ⟨?_, ?_⟩
    · rintro _ ⟨⟩
      exact ⟨v, rfl, htv⟩
    · rintro _ ⟨⟩
  · refine ⟨?_, fun _ => id⟩
    rintro _ ⟨⟩

/-! ### The short statements -/

/-- Settles O6. -/
theorem engineWaitsForTheHost : Obligations.EngineWaitsForTheHost := by
  intro s hp
  rw [step, hp]

/-- Settles O7: the access is performed on the register at its offset. -/
theorem registerAccessRules : Obligations.RegisterAccessRules := by
  intro s rest
  refine ⟨?_, ?_, fun v hp => ?_, fun v hp => ?_, fun v hp => ?_⟩
  · rintro v (hp | hp | hp) <;> exact step_of_pending hp
  · rintro off w hp h
    rw [step_of_pending hp]
    obtain ⟨rfl, rfl⟩ | ⟨rfl, rfl⟩ | ⟨rfl, rfl⟩ | ⟨rfl, rfl⟩ | ⟨rfl, rfl⟩ | ⟨rfl, rfl⟩ | ⟨rfl, rfl⟩ := h <;> rfl
  all_goals exact step_of_pending hp

theorem reset_status : State.reset.status = 0 := rfl

theorem resetAccess_status (s : State) : (resetAccess s).status = 0 :=
  (rfl : (resetAccess s).status = State.reset.status).trans reset_status

/-- Settles O11: no field but the count of resets and the host's list comes from the state before. -/
theorem resetPutsEveryPieceToItsValue : Obligations.ResetPutsEveryPieceToItsValue := by
  intro s rest hp
  exact ⟨_, step_of_pending hp, resetAccess_status _, rfl, rfl, rfl, rfl, rfl, rfl, rfl, rfl, rfl, rfl, rfl, fun _ => rfl,
    fun _ => ⟨rfl, rfl⟩, rfl⟩

/-- Settles O12. -/
theorem resetStateIsTheTable : Obligations.ResetStateIsTheTable :=
  ⟨reset_status, rfl, rfl, rfl, rfl, rfl, rfl, rfl, rfl, rfl, rfl, rfl, fun _ => rfl⟩

theorem errCode_le (e : ErrCode) : (errCode e).toNat ≤ 6 := by cases e <;> decide

/-- STATUS from what it shows: KEK_VALID, DONE and ERR (R23). -/
def statusWord (kekValid done : Bool) (err : BitVec 4) : Word :=
  0#55 ++ BitVec.ofBool kekValid ++ 0#3 ++ BitVec.ofBool done ++ err

theorem status_eq_statusWord (s : State) : s.status = statusWord s.kekValid s.done (errCode s.err) := rfl

theorem statusWord_fields : ∀ (kekValid done : Bool) (err : BitVec 4),
    (statusWord kekValid done err).extractLsb' 0 4 = err ∧ (statusWord kekValid done err).getLsbD 4 = done ∧
      (statusWord kekValid done err).extractLsb' 5 3 = 0 ∧ (statusWord kekValid done err).getLsbD 8 = kekValid ∧
      (statusWord kekValid done err).extractLsb' 9 55 = 0 := by
  decide

/-- Settles O13: each field of the word is read back from its place (`statusWord_fields`). -/
theorem statusLayout : Obligations.StatusLayout := by
  intro s
  rw [status_eq_statusWord]
  obtain ⟨herr, hdone, hlow, hkek, hhigh⟩ := statusWord_fields s.kekValid s.done (errCode s.err)
  exact ⟨herr, hdone, hlow, hkek, hhigh, by rw [herr]; exact errCode_le s.err⟩

end Sys2Proof.Machine

/-! ### Bytes the host reads and writes (R61, R70) -/

namespace Sys2Proof.Machine

open Sys2Proof

variable {P : Params} {s t : State}

@[simp] theorem hostByte_takeAccess (s : State) (rest : List HostAccess) (S : Space) (k : Nat) :
    hostByte (s.takeAccess rest) S k = hostByte s S k := by
  cases S <;> rfl

/-- A read of an existing byte hands back what the host sees there (R61). -/
theorem step_readByte {S : Space} {k : Nat} {rest : List HostAccess} (hp : s.pending = .readByte S k :: rest)
    (hk : k < spaceSize Config.params S) :
    step s = .next { s with pending := rest, returned := .byte (hostByte s S k) } := by
  rw [step_of_pending hp, ← hostByte_takeAccess s rest]
  exact if_pos hk

/-- A write of an existing byte stores it (R61). -/
theorem step_writeByte {S : Space} {k : Nat} {b : Byte} {rest : List HostAccess}
    (hp : s.pending = .writeByte S k b :: rest) (hk : k < spaceSize Config.params S) :
    step s = .next (writeByte (s.takeAccess rest) S k b) :=
  (step_of_pending hp).trans (if_pos hk)

/-- Settles O9: what the host sees (`hostByte`) is the byte held in IN and OUT, and 0 in KEY. -/
theorem byteReadsReturnTheByte : Obligations.ByteReadsReturnTheByte := by
  refine fun s rest k => ⟨fun S hS hp hk => ?_, fun hp hk => step_readByte hp hk⟩
  cases S with
  | inp | out => exact step_readByte hp hk
  | key => exact absurd rfl hS

/-- Settles O10: the bytes by `readByte_writeByte`, where KEY's canonical form counts, the rest by the frame of
`writeByte`. -/
theorem byteWritesStoreTheByte : Obligations.ByteWritesStoreTheByte := by
  intro s S k b rest hwf hp hk
  refine ⟨_, step_writeByte hp hk, fun T a => ?_, by simp⟩
  rw [readByte_writeByte (by simpa using hwf), readByte_takeAccess]

/-- An access that is neither a CMD write nor a reset changes a length register, a byte or the value handed back, and
nothing else (R70). -/
theorem performAccess_frame {issue : Word → State → Host.Outcome State Fault Refusal} {a : HostAccess}
    (h : performAccess P issue a s = .next t) (hcmd : ∀ v, a ≠ .writeReg 0x00 v) (hreset : a ≠ .reset) :
    t = { s with
      inLen := t.inLen, outLen := t.outLen, kekLen := t.kekLen, inp := t.inp, out := t.out, key := t.key
      returned := t.returned } := by
  obtain ⟨r, -, rfl⟩ | ⟨S, k, -, -, rfl⟩ | ⟨r, v, -, -, rfl⟩ | ⟨S, k, b, -, -, rfl⟩ | ⟨rfl, -⟩ | ⟨v, rfl, -⟩ :=
    performAccess_next h
  · rfl
  · rfl
  · cases r <;> rfl
  · cases S <;> rfl
  · exact absurd rfl hreset
  · exact absurd rfl (hcmd v)

/-- Settles O55: none of these fields is among those the access may change (`performAccess_frame`). -/
theorem nothingElseIssuesACommand : Obligations.NothingElseIssuesACommand := by
  intro s t a rest hp hcmd hreset hstep
  rw [step_of_pending hp] at hstep
  rw [performAccess_frame hstep hcmd hreset]
  exact ⟨rfl, rfl, rfl, rfl, rfl, rfl, rfl, rfl, rfl⟩

end Sys2Proof.Machine

/-! ### Every command ends (R218, R240, R241) -/

namespace Sys2Proof.Machine

open Sys2Proof

variable {P : Params} {s t : State}

/-- A command has ended, whatever its outcome: DONE is 1 and the transients are cleared (R240, R241). -/
def Ended (t : State) : Prop := ∃ e result info, Ends t e result info

theorem raise_ends (e : EngineError) (s : State) : Ends (raise e s) e.toCode 0 e.info :=
  ⟨rfl, rfl, rfl, rfl, rfl, rfl, rfl, rfl, rfl⟩

theorem complete_ends (n : Nat) (s : State) : Ends (complete n s) .success (BitVec.ofNat 64 n) 0 :=
  ⟨rfl, rfl, rfl, rfl, rfl, rfl, rfl, rfl, rfl⟩

theorem Ends.ended {e : ErrCode} {result info : Word} (h : Ends t e result info) : Ended t := ⟨e, result, info, h⟩

theorem kwWrapBody_ended (P : Params) (k : CipherState) (L E : Nat) (s : State) : Ended (kwWrapBody P k L E s) :=
  (complete_ends E _).ended

theorem kwUnwrapBody_ended (P : Params) (k : CipherState) (L E : Nat) (s : State) : Ended (kwUnwrapBody P k L E s) := by
  simp only [kwUnwrapBody]
  split
  · exact (raise_ends ..).ended
  · exact (complete_ends ..).ended

theorem kwpWrapBody_ended (P : Params) (k : CipherState) (L E : Nat) (s : State) : Ended (kwpWrapBody P k L E s) := by
  simp only [kwpWrapBody]
  split <;> exact (complete_ends ..).ended

theorem kwpUnwrapBody_ended (P : Params) (k : CipherState) (L E : Nat) (s : State) :
    Ended (kwpUnwrapBody P k L E s) := by
  simp only [kwpUnwrapBody]
  split
  · exact (raise_ends ..).ended
  · exact (complete_ends ..).ended

/-- A codec command ends when its work does; every failed operand test ends it in an error (R237). -/
theorem codec_ended {required : Nat → Option Nat} {body : CipherState → Nat → Nat → State → State}
    (hbody : ∀ k E, Ended (body k s.inLen.toNat E s)) : Ended (codec P required body s) := by
  obtain ⟨-, hc⟩ | ⟨k, -, -, hc⟩ | ⟨k, E, -, -, -, hc⟩ | ⟨k, E, -, -, -, -, -, hc⟩ | ⟨k, E, -, -, -, -, -, hc⟩ :=
    codec_cases P required body s <;> rw [hc]
  case inr.inr.inr.inr => exact hbody k E
  all_goals exact (raise_ends ..).ended

/-- Every command ends, in every state (R218). -/
theorem commandResult_ended (P : Params) (i : Instr) (s : State) : Ended (commandResult P i s) := by
  cases i with
  | kekLoad =>
    simp only [commandResult, kekLoad]
    split
    · exact (complete_ends ..).ended
    · exact (raise_ends ..).ended
  | kekClr => exact (complete_ends ..).ended
  | kwWrap => exact codec_ended fun k E => kwWrapBody_ended P k _ E s
  | kwUnwrap => exact codec_ended fun k E => kwUnwrapBody_ended P k _ E s
  | kwpWrap => exact codec_ended fun k E => kwpWrapBody_ended P k _ E s
  | kwpUnwrap => exact codec_ended fun k E => kwpUnwrapBody_ended P k _ E s

/-- Settles O53: what is kept by `codecCommand_frame`, how it ends by `commandResult_ended`. -/
theorem codecFrame : Obligations.CodecFrame := by
  intro i s t hi hexec
  rw [exec_eq] at hexec
  obtain rfl := Host.Outcome.next.inj hexec
  obtain ⟨hkeeps, hout⟩ := codecCommand_frame hi Config.params s
  obtain ⟨_, _, _, hend⟩ := commandResult_ended Config.params i s
  exact ⟨hkeeps, hout, hend.done, hend.acc, hend.blk, hend.seq, hend.ctr, hend.count⟩

end Sys2Proof.Machine

/-! ### Command words (R91 to R93, R95) -/

namespace Sys2Proof.Machine

open Sys2Proof

/-- The decoder reads every command back from its word (R92, R93). -/
@[simp] theorem decode_encode (i : Instr) : decode (encode i) = .ok i := by cases i <;> decide

theorem decode_eq_ok_iff {v : Word} {i : Instr} : decode v = .ok i ↔ v = encode i :=
  ⟨eq_encode_of_decode, fun h => h ▸ decode_encode i⟩

theorem exists_decode_error_iff {v : Word} : (∃ e, decode v = .error e) ↔ ∀ i, v ≠ encode i := by
  simp only [Ne, ← decode_eq_ok_iff]
  cases decode v with
  | error e => simp
  | ok i => simp

/-- ZERO, CLASS and FUNC are the whole word (R91). -/
theorem word_eq_fields (v : Word) : v = zeroField v ++ classField v ++ funcField v := by
  rw [zeroField, classField, funcField, BitVec.extractLsb'_append_extractLsb'_eq_extractLsb' (by rfl : 8 = 4 + 4)]
  exact (BitVec.extractLsb'_append_extractLsb' (w := 60) (len := 4)).symm

/-- The word of a command is the one with ZERO 0 and the command's CLASS and FUNC (R91, R92). -/
theorem eq_encode_iff_fields {v : Word} {i : Instr} :
    v = encode i ↔ zeroField v = 0 ∧ classField v = i.classCode ∧ funcField v = i.funcCode := by
  constructor
  · rintro rfl
    cases i <;> decide
  · rintro ⟨hzero, hclass, hfunc⟩
    rw [word_eq_fields v, hzero, hclass, hfunc]
    rfl

/-- The CLASS and FUNC of the commands are the ones R95 does not reserve. -/
theorem exists_classCode_funcCode_iff {c f : BitVec 4} :
    (∃ i : Instr, c = i.classCode ∧ f = i.funcCode) ↔
      (c = 0 ∧ (f = 1 ∨ f = 2)) ∨ (c = 1 ∧ f.getLsbD 3 = false ∧ f.getLsbD 2 = false) := by
  constructor
  · rintro ⟨i, rfl, rfl⟩
    cases i <;> decide
  · rintro (⟨rfl, rfl | rfl⟩ | ⟨rfl, h3, h2⟩)
    · exact ⟨.kekLoad, rfl, rfl⟩
    · exact ⟨.kekClr, rfl, rfl⟩
    · have hlow : ∀ f : BitVec 4, f.getLsbD 3 = false → f.getLsbD 2 = false → f = 0 ∨ f = 1 ∨ f = 2 ∨ f = 3 := by
        decide
      obtain rfl | rfl | rfl | rfl := hlow f h3 h2
      · exact ⟨.kwWrap, rfl, rfl⟩
      · exact ⟨.kwUnwrap, rfl, rfl⟩
      · exact ⟨.kwpWrap, rfl, rfl⟩
      · exact ⟨.kwpUnwrap, rfl, rfl⟩

/-- In CLASS 1, FUNC[1] says padding and FUNC[0] says unwrap (R91). -/
theorem codec_funcCode_bits {i : Instr} (h : isCodec i = true) :
    i.funcCode.getLsbD 1 = decide (i = .kwpWrap ∨ i = .kwpUnwrap) ∧ i.funcCode.getLsbD 0 = isUnwrap i := by
  cases i with
  | kekLoad | kekClr => cases h
  | kwWrap | kwUnwrap | kwpWrap | kwpUnwrap => decide

/-- Settles O2: a word that decodes is the one with its command's fields (`eq_encode_iff_fields`), and R95 reserves
every other CLASS and FUNC (`exists_classCode_funcCode_iff`). -/
theorem fieldsDecideTheCommand : Obligations.FieldsDecideTheCommand := by
  intro v
  constructor
  · intro i hi hcodec
    obtain ⟨-, -, hfunc⟩ := eq_encode_iff_fields.mp (decode_eq_ok_iff.mp hi)
    rw [hfunc]
    exact codec_funcCode_bits hcodec
  · simp only [decode_eq_ok_iff, eq_encode_iff_fields, exists_and_left, exists_classCode_funcCode_iff]

/-- Settles O3: `decode_eq_ok_iff`. -/
theorem encodeAndDecodeAgree : Obligations.EncodeAndDecodeAgree := fun _ _ => decode_eq_ok_iff

/-- Settles O1: each clause is `decode_eq_ok_iff` with the command's word written out. -/
theorem decodingIsTheTable : Obligations.DecodingIsTheTable := by
  intro v
  refine ⟨decode_eq_ok_iff, decode_eq_ok_iff, decode_eq_ok_iff, decode_eq_ok_iff, decode_eq_ok_iff, decode_eq_ok_iff,
    exists_decode_error_iff.trans ⟨fun h => ?_, ?_⟩⟩
  · exact ⟨h .kekLoad, h .kekClr, h .kwWrap, h .kwUnwrap, h .kwpWrap, h .kwpUnwrap⟩
  · rintro ⟨h01, h02, h10, h11, h12, h13⟩ i
    cases i <;> assumption

end Sys2Proof.Machine

/-! ### Writes to CMD (R90, R95) -/

namespace Sys2Proof.Machine

open Sys2Proof

variable {s : State} {v : Word} {rest : List HostAccess}

/-- A write to CMD issues its value, with the access taken off the host's list (R90). -/
theorem step_writeCmd (hp : s.pending = .writeReg 0x00 v :: rest) : step s = issueCommand v (s.takeAccess rest) :=
  step_of_pending hp

theorem issueCommand_of_decode_ok {i : Instr} (h : decode v = .ok i) (s : State) : issueCommand v s = exec i s := by
  rw [issueCommand, h]

theorem issueCommand_of_decode_error {e : IllegalWord} (h : decode v = .error e) (s : State) :
    issueCommand v s = .next (illegalCommand s) := by
  rw [issueCommand, h]

/-- Settles O4. -/
theorem stepRunsTheIssuedCommand : Obligations.StepRunsTheIssuedCommand := fun _ _ _ _ hp hi _ =>
  (step_writeCmd hp).trans (issueCommand_of_decode_ok hi _)

/-- Settles O5: the state left is the one `raise` makes, from the state with the access taken. -/
theorem illegalWordOnlyReports : Obligations.IllegalWordOnlyReports := fun _ _ _ _ hp he =>
  (step_writeCmd hp).trans (issueCommand_of_decode_error he _)

end Sys2Proof.Machine

/-! ### Host scripts (R100, R101) -/

namespace Sys2Proof.Machine

open Sys2Proof

theorem byteWrites_getElem? (S : Space) (off : Nat) (bytes : List Byte) (j : Nat) :
    (byteWrites S off bytes)[j]? = bytes[j]?.map fun b => HostAccess.writeByte S (off + j) b := by
  induction bytes generalizing off j with
  | nil => rfl
  | cons b bs ih =>
    cases j with
    | zero => rfl
    | succ j => simp only [byteWrites, List.getElem?_cons_succ, ih, Nat.add_assoc, Nat.add_comm 1 j]

theorem byteReads_getElem? (S : Space) (off count j : Nat) :
    (byteReads S off count)[j]? = if j < count then some (.readByte S (off + j)) else none := by
  split <;> simp_all [byteReads]

/-- Only `expect` and `expectb` require a value (R101). -/
theorem expects_of_requiredReturns {l : ScriptLine} (h : requiredReturns l ≠ []) :
    (∃ r v, l = .expect r v) ∨ ∃ S off bytes, l = .expectb S off bytes := by
  cases l with
  | expect r v => exact .inl ⟨r, v, rfl⟩
  | expectb S off bytes => exact .inr ⟨S, off, bytes, rfl⟩
  | _ => exact absurd rfl h

/-- Settles O59: `wrb` and `rdb` by `byteWrites_getElem?` and `byteReads_getElem?`; the other lines are lists of known
accesses. -/
theorem scriptLinesExpand : Obligations.ScriptLinesExpand := by
  refine ⟨byteWrites_getElem?, byteReads_getElem?, fun _ => rfl, fun _ => rfl, fun _ _ _ => ⟨rfl, rfl⟩,
    fun _ _ => ⟨rfl, rfl⟩, fun r off h => ?_, fun i v h => ?_, rfl, fun _ => expects_of_requiredReturns⟩
  · obtain rfl : off = regOffset r := by cases r <;> simpa [regOffset] using h
    exact ⟨rfl, fun _ => rfl⟩
  · obtain rfl : v = encode i := by cases i <;> simpa [encode, Instr.classCode, Instr.funcCode] using h
    rfl

end Sys2Proof.Machine

/-! ### The KEK commands (R126, R127) -/

namespace Sys2Proof.Machine

open Sys2Proof

variable {P : Params} {s t : State}

/-! KEKLOAD -/

/-- KEKLOAD's size test, on KEK_LEN as the register holds it (R26, R126). -/
theorem kekSizeOk_toNat_iff {v : Word} : kekSizeOk v.toNat = true ↔ v = 16 ∨ v = 24 ∨ v = 32 := by
  simp [kekSizeOk_iff, ← BitVec.toNat_inj]

theorem kekLoad_of_sizeOk (P : Params) (h : kekSizeOk s.kekLen.toNat = true) :
    kekLoad P s = complete 0 (s.setKek (some (P.cipher.init (memRead s .key 0 s.kekLen.toNat)))) :=
  if_pos h

theorem kekLoad_of_not_sizeOk (P : Params) (h : kekSizeOk s.kekLen.toNat ≠ true) :
    kekLoad P s = raise (.invalidKekSize s.kekLen) s :=
  if_neg h

/-- Settles O23: KEKLOAD's size test passes, and the state it then leaves is the one written out. -/
theorem kekLoadBindsTheKey : Obligations.KekLoadBindsTheKey := fun s hlen => by
  rw [exec_eq, commandResult, kekLoad_of_sizeOk _ (kekSizeOk_toNat_iff.mpr hlen)]
  rfl

/-! KEKCLR -/

@[simp] theorem kekClr_kek (s : State) : (kekClr s).kek = none := by simp [kekClr]

@[simp] theorem kekClr_kekLen (s : State) : (kekClr s).kekLen = s.kekLen := by simp [kekClr]

theorem kekClr_keeps (s : State) : CommandKeeps s (kekClr s) where
  inLen := by simp [kekClr]
  outLen := by simp [kekClr]
  kekLen := kekClr_kekLen s
  inp := readByte_kekClr_ne (by decide) s
  pending := by simp [kekClr]
  returned := by simp [kekClr]
  resets := by simp [kekClr]

theorem getD_zeros (n i : Nat) : (zeros n).getD i 0 = 0 := by
  rw [zeros, List.getD_eq_getElem?_getD, List.getElem?_replicate]
  split <;> rfl

/-- KEKCLR zeroises KEY[0 : 32) (R127). -/
theorem readByte_kekClr_key (h : Memory.wf (unlistedKnown .key) s.key) (a : Nat) :
    readByte (kekClr s) .key a = if a < 32 then 0 else readByte s .key a := by
  rw [kekClr, readByte_complete, readByte_memWrite_key (s := s.setKek none) h, readByte_setKek, getD_zeros]
  simp

/-- After KEKCLR the bytes KEKLOAD takes are zero (R127 corner (d)). -/
theorem memRead_kekClr_key (h : Memory.wf (unlistedKnown .key) s.key) {n : Nat} (hn : n ≤ 32) :
    memRead (kekClr s) .key 0 n = zeros n := by
  refine List.eq_replicate_iff.mpr ⟨memRead_length .., fun b hb => ?_⟩
  obtain ⟨i, hi, rfl⟩ := List.mem_map.mp hb
  rw [readByte_kekClr_key h, if_pos (by have := List.mem_range.mp hi; omega)]

theorem kekClr_key_wf (h : Memory.wf (unlistedKnown .key) s.key) : Memory.wf (unlistedKnown .key) (kekClr s).key := by
  rw [kekClr, complete_key]
  exact memWrite_wf (s := s.setKek none) (S := .key) h 0 (zeros 32)

/-- Settles O25: the bytes of KEY by `readByte_kekClr_key`, the end by `complete_ends`, the rest by `kekClr_keeps`. -/
theorem kekClrDropsTheKek : Obligations.KekClrDropsTheKek := fun s hwf =>
  ⟨kekClr s, rfl, kekClr_kek s, readByte_kekClr_key hwf, complete_ends 0 _, kekClr_keeps s,
    fun a _ => readByte_kekClr_ne (by decide) s a⟩

/-! A second KEKCLR: a zero byte of KEY is not listed, so zeroising it again writes nothing. -/

theorem Memory.remove_of_lookup_none {m : Memory} {a : Nat} (h : Memory.lookup m a = none) : Memory.remove m a = m := by
  induction m with
  | nil => rfl
  | cons c m ih =>
    obtain ⟨k, c⟩ := c
    by_cases hk : k = a
    · simp [Memory.lookup, hk] at h
    · rw [Memory.lookup, if_neg hk] at h
      rw [Memory.remove, if_neg hk, ih h]

theorem Memory.mem_of_lookup {m : Memory} {a : Nat} {b : Byte} (h : Memory.lookup m a = some b) : (a, b) ∈ m := by
  induction m with
  | nil => simp at h
  | cons c m ih =>
    obtain ⟨k, c⟩ := c
    by_cases hk : k = a
    · simp_all [Memory.lookup]
    · rw [Memory.lookup, if_neg hk] at h
      exact List.mem_cons_of_mem _ (ih h)

/-- In canonical form a byte of KEY that reads 0 is not listed (R38; log entry 4). -/
theorem lookup_key_of_readByte_zero (h : Memory.wf (unlistedKnown .key) s.key) {a : Nat}
    (ha : readByte s .key a = 0) : Memory.lookup s.key a = none := by
  cases hl : Memory.lookup s.key a with
  | none => rfl
  | some b =>
    have hb : b = 0 := by simpa [readByte, hl] using ha
    exact absurd (congrArg some hb.symm) (h.2 _ (Memory.mem_of_lookup hl))

theorem writeByte_key_zero_eq_self (h : Memory.wf (unlistedKnown .key) s.key) {a : Nat}
    (ha : readByte s .key a = 0) : writeByte s .key a 0 = s := by
  have hstore : Memory.store (unlistedKnown .key) s.key a 0 = s.key :=
    Memory.remove_of_lookup_none (lookup_key_of_readByte_zero h ha)
  exact congrArg (s.setMem .key) hstore

theorem memWrite_key_zeros_eq_self (h : Memory.wf (unlistedKnown .key) s.key) {a n : Nat}
    (ha : ∀ x, a ≤ x → x < a + n → readByte s .key x = 0) : memWrite s .key a (zeros n) = s := by
  induction n generalizing a with
  | zero => rfl
  | succ n ih =>
    calc memWrite s .key a (zeros (n + 1))
        = memWrite (writeByte s .key a 0) .key (a + 1) (zeros n) := rfl
      _ = memWrite s .key (a + 1) (zeros n) := by rw [writeByte_key_zero_eq_self h (ha a le_rfl (by omega))]
      _ = s := ih fun x hx hxn => ha x (by omega) (by omega)

theorem complete_complete (m n : Nat) (s : State) : complete m (complete n s) = complete m s := rfl

/-- With no KEK and KEY zero, KEKCLR only reports. -/
theorem kekClr_eq_complete (h : Memory.wf (unlistedKnown .key) s.key) (hkek : s.kek = none)
    (hkey : ∀ a < 32, readByte s .key a = 0) : kekClr s = complete 0 s := by
  have hslot : s.setKek none = s := by rw [← hkek]; rfl
  rw [kekClr, hslot, memWrite_key_zeros_eq_self h fun a _ ha => hkey a (by omega)]

theorem kekClr_kekClr (h : Memory.wf (unlistedKnown .key) s.key) : kekClr (kekClr s) = kekClr s := by
  have hkey : ∀ a < 32, readByte (kekClr s) .key a = 0 := fun a ha => by rw [readByte_kekClr_key h, if_pos ha]
  rw [kekClr_eq_complete (kekClr_key_wf h) (kekClr_kek s) hkey, kekClr, complete_complete]

/-- Settles O26: `kekClr_kekClr`. -/
theorem kekClrTwiceIsOnce : Obligations.KekClrTwiceIsOnce := by
  intro s t hwf hexec
  obtain rfl : kekClr s = t := Host.Outcome.next.inj hexec
  exact congrArg Host.Outcome.next (kekClr_kekClr hwf)

/-! What an empty slot means to the next command (R237, R278). -/

theorem codec_of_kek_none {required : Nat → Option Nat} {body : CipherState → Nat → Nat → State → State}
    (h : s.kek = none) : codec P required body s = raise .kekNotLoaded s := by
  rw [codec, h]

theorem codecCommand_of_kek_none {i : Instr} (hi : isCodec i = true) (P : Params) (h : s.kek = none) :
    commandResult P i s = raise .kekNotLoaded s := by
  cases i with
  | kekLoad | kekClr => cases hi
  | kwWrap | kwUnwrap | kwpWrap | kwpUnwrap => exact codec_of_kek_none h

/-- Settles O27: a codec finds the slot empty (`codecCommand_of_kek_none`), and KEKLOAD finds zero bytes in KEY
(`memRead_kekClr_key`). -/
theorem afterKekClrNoKeyOrTheZeroKey : Obligations.AfterKekClrNoKeyOrTheZeroKey := by
  intro s t hwf hexec
  obtain rfl : kekClr s = t := Host.Outcome.next.inj hexec
  refine ⟨fun i hi => ⟨_, exec_eq i _, ?_⟩, fun hlen => ⟨_, exec_eq .kekLoad _, ?_⟩⟩
  · rw [codecCommand_of_kek_none hi _ (kekClr_kek s)]
    rfl
  · have hsize : kekSizeOk s.kekLen.toNat = true := kekSizeOk_toNat_iff.mpr hlen
    have hn : s.kekLen.toNat ≤ 32 := by
      have := kekSizeOk_iff.mp hsize
      omega
    rw [commandResult, kekLoad_of_sizeOk _ (by simpa using hsize), kekClr_kekLen, memRead_kekClr_key hwf hn]
    exact ⟨rfl, rfl⟩

/-! ### Who writes the KEK slot (R32, R128) -/

/-- Of the commands only a KEKLOAD that accepts KEK_LEN and KEKCLR change the slot. -/
theorem commandResult_kek_ne {i : Instr} (h : (commandResult P i s).kek ≠ s.kek) :
    (i = .kekLoad ∧ kekSizeOk s.kekLen.toNat = true) ∨ i = .kekClr := by
  cases i with
  | kekLoad =>
    by_contra hn
    refine h ?_
    rw [commandResult, kekLoad_of_not_sizeOk P fun hsize => hn (.inl ⟨rfl, hsize⟩), raise_kek]
  | kekClr => exact .inr rfl
  | kwWrap | kwUnwrap | kwpWrap | kwpUnwrap => exact absurd (codecCommand_frame rfl P s).1.kek h

/-- The slot changes in a step by a reset or by a command that changes it. -/
theorem step_changes_kek (h : step s = .next t) (hne : t.kek ≠ s.kek) :
    ∃ rest, (s.pending = .reset :: rest ∧ t.kek = none) ∨
      ∃ i, s.pending = .writeReg 0x00 (encode i) :: rest ∧ t = commandResult Config.params i (s.takeAccess rest) := by
  obtain ⟨-, rfl⟩ | ⟨a, rest, hp, ha⟩ := step_next h
  · exact absurd rfl hne
  refine ⟨rest, ?_⟩
  obtain ⟨r, -, rfl⟩ | ⟨S, k, -, -, rfl⟩ | ⟨r, v, -, -, rfl⟩ | ⟨S, k, b, -, -, rfl⟩ | ⟨rfl, rfl⟩ | ⟨v, rfl, hv⟩ :=
    performAccess_next ha
  · exact absurd rfl hne
  · exact absurd rfl hne
  · exact absurd (by cases r <;> rfl) hne
  · exact absurd (by simp) hne
  · exact .inl ⟨hp, rfl⟩
  · obtain ⟨i, hi, hexec⟩ | ⟨e, -, rfl⟩ := issueCommand_next hv
    · rw [exec_eq] at hexec
      exact .inr ⟨i, eq_encode_of_decode hi ▸ hp, (Host.Outcome.next.inj hexec).symm⟩
    · exact absurd rfl hne

/-- Settles O28: the step performs a reset or a command (`step_changes_kek`), and the command is one of the two that
write the slot (`commandResult_kek_ne`). -/
theorem onlyKekCommandsWriteTheSlot : Obligations.OnlyKekCommandsWriteTheSlot := by
  intro s t h hne
  obtain ⟨rest, ⟨hp, hkek⟩ | ⟨i, hp, rfl⟩⟩ := step_changes_kek h hne
  · exact ⟨rest, .inr (.inr ⟨hp, hkek⟩)⟩
  obtain ⟨rfl, hsize⟩ | rfl := commandResult_kek_ne (s := s.takeAccess rest) hne
  · refine ⟨rest, .inl ⟨hp, ?_⟩⟩
    rw [commandResult, kekLoad_of_sizeOk _ hsize]
    exact ⟨rfl, kekSizeOk_toNat_iff.mp hsize, by simp⟩
  · exact ⟨rest, .inr (.inl ⟨hp, kekClr_kek _⟩)⟩

end Sys2Proof.Machine

/-! ### The transform: its steps, its flat form and its region (R141 to R152) -/

namespace Sys2Proof.Machine

open Sys2Proof

variable {P : Params} {k : CipherState} {base n : Nat} {s t u : State}

/-! The step numbers. -/

/-- Position m of the forward order is round m div n, semiblock m mod n (R147). -/
theorem forwardOrder_getElem?_div_mod {m : Nat} (hm : m < 6 * n) : (forwardOrder n)[m]? = some (m / n, m % n) := by
  have hn : 0 < n := by omega
  have hround : m / n < 6 := (Nat.div_lt_iff_lt_mul hn).mpr hm
  have h := forwardOrder_getElem? (Nat.mod_lt m hn) (m / n)
  rwa [Nat.div_add_mod, if_pos hround] at h

theorem roundCounter_div_mod (n m : Nat) : roundCounter n (m / n) (m % n) = m + 1 := by
  rw [roundCounter, ← Nat.add_assoc, Nat.div_add_mod]

/-- Settles O30: position t − 1 of the order (`forwardOrder_getElem?_div_mod`), and the counter there. -/
theorem stepNumberIsTheCounter : Obligations.StepNumberIsTheCounter := by
  intro n _
  refine ⟨forwardOrder_length n, fun t h1 ht => ⟨forwardOrder_getElem?_div_mod (by omega), ?_⟩, inverseOrder_eq_reverse n⟩
  rw [roundCounter_div_mod, Nat.sub_add_cancel h1]

/-! What the two kinds of step have in common: B, A, t and the sequencer are set and the low half goes to R[i]. -/

/-- What a step of either transform does once the port has returned b: it leaves b in B, a in A, low(b) in R[i], c in t
and the sequencer at q. -/
def storeStep (base i : Nat) (b : Block) (a : Semiblock) (c : Nat) (q : Option (Nat × Nat)) (s : State) : State :=
  (writeSemiblock (((s.setCtr (some c)).setBlk b).setAcc a) base i (low b)).setSeq q

theorem wStep_eq_storeStep (P : Params) (k : CipherState) (base n : Nat) (p : Nat × Nat) (s : State) :
    wStep P k base n p s =
      storeStep base p.2 (P.cipher.enc k (joinBlock s.acc (readSemiblock s base p.2)))
        (high (P.cipher.enc k (joinBlock s.acc (readSemiblock s base p.2))) ^^^ be64 (roundCounter n p.1 p.2))
        (roundCounter n p.1 p.2) (forwardNext n p) s := rfl

theorem winvStep_eq_storeStep (P : Params) (k : CipherState) (base n : Nat) (p : Nat × Nat) (s : State) :
    winvStep P k base n p s =
      storeStep base p.2 (P.cipher.dec k (joinBlock (s.acc ^^^ be64 (roundCounter n p.1 p.2)) (readSemiblock s base p.2)))
        (high (P.cipher.dec k (joinBlock (s.acc ^^^ be64 (roundCounter n p.1 p.2)) (readSemiblock s base p.2))))
        (roundCounter n p.1 p.2) (inverseNext n p) s := rfl

/-- `s` with everything a transform may write taken from `t` (R148). -/
def State.withTransform (s t : State) : State :=
  { s with out := t.out, acc := t.acc, blk := t.blk, seq := t.seq, ctr := t.ctr, count := t.count }

/-- `t` differs from `s` only in what a transform may write (R148). -/
def TransformFrame (s t : State) : Prop := t = s.withTransform t

theorem TransformFrame.trans (hst : TransformFrame s t) (htu : TransformFrame t u) : TransformFrame s u := by
  have h := congrArg (fun v : State => v.withTransform u) hst
  exact Eq.trans htu h

theorem memWrite_out_frame (s : State) (a : Nat) (bs : List Byte) : TransformFrame s (memWrite s .out a bs) := by
  induction bs generalizing s a with
  | nil => rfl
  | cons b bs ih => exact TransformFrame.trans (t := writeByte s .out a b) rfl (ih (writeByte s .out a b) (a + 1))

theorem memWrite_out_setMem_inp (s : State) (m : Memory) (a : Nat) (bs : List Byte) :
    memWrite (s.setMem .inp m) .out a bs = (memWrite s .out a bs).setMem .inp m := by
  induction bs generalizing s a with
  | nil => rfl
  | cons b bs ih => exact ih (writeByte s .out a b) (a + 1)

section storeStep

variable (base i : Nat) (b : Block) (a : Semiblock) (c : Nat) (q : Option (Nat × Nat)) (s : State)

@[simp] theorem storeStep_acc : (storeStep base i b a c q s).acc = a := by simp [storeStep, writeSemiblock]
@[simp] theorem storeStep_blk : (storeStep base i b a c q s).blk = b := by simp [storeStep, writeSemiblock]
@[simp] theorem storeStep_seq : (storeStep base i b a c q s).seq = q := rfl
@[simp] theorem storeStep_ctr : (storeStep base i b a c q s).ctr = some c := by simp [storeStep, writeSemiblock]
@[simp] theorem storeStep_count : (storeStep base i b a c q s).count = s.count := by simp [storeStep, writeSemiblock]

@[simp] theorem readSemiblock_storeStep : readSemiblock (storeStep base i b a c q s) base i = low b := by
  rw [storeStep, readSemiblock_setSeq, readSemiblock_writeSemiblock, if_pos rfl]

theorem readByte_storeStep (x : Nat) :
    readByte (storeStep base i b a c q s) .out x =
      if base + 8 * i ≤ x ∧ x < base + 8 * i + 8 then (semiblockBytes (low b)).getD (x - (base + 8 * i)) 0
      else readByte s .out x := by
  simp [storeStep, writeSemiblock, readByte_memWrite_out]

theorem storeStep_frame : TransformFrame s (storeStep base i b a c q s) :=
  .trans (.trans (t := ((s.setCtr (some c)).setBlk b).setAcc a) rfl (memWrite_out_frame _ _ _)) rfl

theorem storeStep_setMem_inp (m : Memory) :
    storeStep base i b a c q (s.setMem .inp m) = (storeStep base i b a c q s).setMem .inp m :=
  congrArg (fun t : State => t.setSeq q) (memWrite_out_setMem_inp (((s.setCtr (some c)).setBlk b).setAcc a) m _ _)

end storeStep

theorem wStep_frame (P : Params) (k : CipherState) (base n : Nat) (p : Nat × Nat) (s : State) :
    TransformFrame s (wStep P k base n p s) := storeStep_frame ..

theorem winvStep_frame (P : Params) (k : CipherState) (base n : Nat) (p : Nat × Nat) (s : State) :
    TransformFrame s (winvStep P k base n p s) := storeStep_frame ..

/-- A step does not read IN (R148). -/
theorem wStep_setMem_inp (P : Params) (k : CipherState) (base n : Nat) (p : Nat × Nat) (s : State) (m : Memory) :
    wStep P k base n p (s.setMem .inp m) = (wStep P k base n p s).setMem .inp m := storeStep_setMem_inp ..

theorem winvStep_setMem_inp (P : Params) (k : CipherState) (base n : Nat) (p : Nat × Nat) (s : State) (m : Memory) :
    winvStep P k base n p (s.setMem .inp m) = (winvStep P k base n p s).setMem .inp m := storeStep_setMem_inp ..

/-- The whole state a step leaves, where t and the sequencer's next position are known (R33, R142, R144). -/
theorem TransformFrame.eq_of_step {c : Nat} {q : Option (Nat × Nat)} (h : TransformFrame s t) (hcount : t.count = s.count)
    (hctr : t.ctr = some c) (hseq : t.seq = q) :
    t = { s with out := t.out, acc := t.acc, blk := t.blk, ctr := some c, seq := q } := by
  subst hseq
  rw [← hctr]
  exact Eq.trans h (by rw [State.withTransform, hcount])

/-- Settles O31: B, A and R[i] are what the step stores, and the rest is its frame. -/
theorem forwardStepRule : Obligations.ForwardStepRule := by
  intro P k base n j i s t b
  refine ⟨?_, ?_, ?_, fun a ha => readByte_wStep P k base n (j, i) s a ha,
    (wStep_frame P k base n (j, i) s).eq_of_step (wStep_count ..) (wStep_ctr ..) (wStep_seq ..)⟩
  · exact storeStep_blk ..
  · exact storeStep_acc ..
  · exact readSemiblock_storeStep ..

/-- Settles O32, likewise. -/
theorem inverseStepRule : Obligations.InverseStepRule := by
  intro P k base n j i s t b
  refine ⟨?_, ?_, ?_, fun a ha => readByte_winvStep P k base n (j, i) s a ha,
    (winvStep_frame P k base n (j, i) s).eq_of_step (winvStep_count ..) (winvStep_ctr ..) (winvStep_seq ..)⟩
  · exact storeStep_blk ..
  · exact storeStep_acc ..
  · exact readSemiblock_storeStep ..

/-! The transforms as folds over the step numbers, and their flat forms (R147). -/

theorem forwardOrder_eq_map (n : Nat) : forwardOrder n = (List.range (6 * n)).map fun m => (m / n, m % n) := by
  apply List.ext_getElem?
  intro m
  by_cases hm : m < 6 * n
  · rw [forwardOrder_getElem?_div_mod hm, List.getElem?_map, List.getElem?_range hm, Option.map_some]
  · rw [List.getElem?_eq_none (by simpa using hm), List.getElem?_eq_none (by simpa using hm)]

/-- W performs the steps of the forward order (R143). -/
theorem transformW_eq_foldl (hn : 1 ≤ n) (s : State) :
    transformW P k base n s = (forwardOrder n).foldl (fun s p => wStep P k base n p s) (forwardStart n s) := by
  rw [transformW, ← forwardOrder_length n]
  exact forwardRun_eq_foldl rfl (forwardOrder_zero hn).symm fun _ _ => forwardOrder_succ

/-- Winv performs the steps of the inverse order (R145). -/
theorem transformWinv_eq_foldl (hn : 1 ≤ n) (s : State) :
    transformWinv P k base n s = (inverseOrder n).foldl (fun s p => winvStep P k base n p s) (inverseStart n s) := by
  rw [transformWinv, ← inverseOrder_length n]
  exact inverseRun_eq_foldl rfl (inverseOrder_zero hn).symm fun _ _ => inverseOrder_succ

/-- What the flat form speaks of: A and the n semiblocks of the region. -/
def flatView (base n : Nat) (s : State) : Semiblock × List Semiblock := (s.acc, semiblocksAt s .out base n)

@[simp] theorem flatView_forwardStart (s : State) : flatView base n (forwardStart n s) = flatView base n s := by
  simp [flatView, forwardStart]

@[simp] theorem flatView_inverseStart (s : State) : flatView base n (inverseStart n s) = flatView base n s := by
  simp [flatView, inverseStart]

@[simp] theorem flatView_length (s : State) : (flatView base n s).2.length = n := semiblocksAt_length ..

/-- The step at position m of the order is flat step m + 1 (R147). -/
theorem flatView_wStep (hn : 1 ≤ n) (m : Nat) (s : State) :
    flatView base n (wStep P k base n (m / n, m % n) s) = flatStep P k n (flatView base n s) (m + 1) := by
  refine (wStep_flat P k base n (m / n, m % n) s (Nat.mod_lt m hn)).trans ?_
  simp only [roundCounter_div_mod, flatStep, flatView, Nat.add_sub_cancel]

/-- The inverse step at position m of the order is inverse flat step m + 1 (R147). -/
theorem flatView_winvStep (hn : 1 ≤ n) (m : Nat) (s : State) :
    flatView base n (winvStep P k base n (m / n, m % n) s) = flatInvStep P k n (flatView base n s) (m + 1) := by
  refine (winvStep_flat P k base n (m / n, m % n) s (Nat.mod_lt m hn)).trans ?_
  simp only [roundCounter_div_mod, flatInvStep, flatView, Nat.add_sub_cancel]

/-- W computes the flat form on A and the semiblocks (R147). -/
theorem flatView_transformW (hn : 1 ≤ n) (s : State) :
    flatView base n (transformW P k base n s) = flatW P k (flatView base n s) := by
  rw [transformW_eq_foldl hn, forwardOrder_eq_map, List.foldl_map, flatW, flatView_length, stepNumbers, List.foldl_map,
    ← flatView_forwardStart]
  exact (List.foldl_hom (flatView base n) fun s m => (flatView_wStep hn m s).symm).symm

/-- Winv computes the inverse flat form on A and the semiblocks (R147). -/
theorem flatView_transformWinv (hn : 1 ≤ n) (s : State) :
    flatView base n (transformWinv P k base n s) = flatWinv P k (flatView base n s) := by
  rw [transformWinv_eq_foldl hn, inverseOrder_eq_reverse, forwardOrder_eq_map, ← List.map_reverse, List.foldl_map,
    flatWinv, flatView_length, stepNumbers, ← List.map_reverse, List.foldl_map, ← flatView_inverseStart]
  exact (List.foldl_hom (flatView base n) fun s m => (flatView_winvStep hn m s).symm).symm

/-- Settles O33: `flatView_transformW` and `flatView_transformWinv`. -/
theorem transformsAreTheirFlatForms : Obligations.TransformsAreTheirFlatForms := fun _ _ _ _ s hn =>
  ⟨flatView_transformW hn s, flatView_transformWinv hn s⟩

theorem readSemiblock_of_semiblocksAt_eq (h : semiblocksAt t .out base n = semiblocksAt s .out base n) {i : Nat}
    (hi : i < n) : readSemiblock t base i = readSemiblock s base i := by
  rw [← semiblocksAt_getD t base n i hi, h, semiblocksAt_getD s base n i hi]

/-- Settles O34: the flat forms undo each other (`flatWinv_flatW`, `flatW_flatWinv`). -/
theorem inverseTransformUndoesForward : Obligations.InverseTransformUndoesForward := by
  intro P k base n s hk hn t ht
  have hlen : 1 ≤ (flatView base n s).2.length := by simpa using hn
  have hview : flatView base n t = flatView base n s := by
    obtain rfl | rfl := ht
    · rw [flatView_transformWinv hn, flatView_transformW hn, flatWinv_flatW hk hlen]
    · rw [flatView_transformW hn, flatView_transformWinv hn, flatW_flatWinv hk hlen]
  exact ⟨congrArg Prod.fst hview, fun i hi => readSemiblock_of_semiblocksAt_eq (congrArg Prod.snd hview) hi⟩

/-! The identity cipher (R152). -/

theorem set_getD_self (R : List Semiblock) (i : Nat) : R.set i (R.getD i 0) = R := by
  rcases Nat.lt_or_ge i R.length with hi | hi
  · rw [List.getD_eq_getElem _ _ hi, List.set_getElem_self]
  · exact List.set_eq_of_length_le hi

theorem flatStep_of_enc_id (henc : ∀ b, P.cipher.enc k b = b) (a : Semiblock) (R : List Semiblock) (t : Nat) :
    flatStep P k n (a, R) t = (a ^^^ be64 t, R) := by
  simp only [flatStep, henc, high_joinBlock, low_joinBlock, set_getD_self]

/-- With the identity cipher every counter is XORed into A and the semiblocks stay (R152). -/
theorem flatW_of_enc_id (henc : ∀ b, P.cipher.enc k b = b) (a : Semiblock) (R : List Semiblock) :
    flatW P k (a, R) = ((stepNumbers R.length).foldl (fun a t => a ^^^ be64 t) a, R) :=
  List.foldl_hom (fun a => (a, R)) fun a t => flatStep_of_enc_id henc a R t

/-- Settles O36: `flatW_of_enc_id`, on what W computes (`flatView_transformW`). -/
theorem identityCipherLeavesTheSemiblocks : Obligations.IdentityCipherLeavesTheSemiblocks := by
  intro P k base n s henc hn
  have hview : flatView base n (transformW P k base n s) =
      ((stepNumbers n).foldl (fun a t => a ^^^ be64 t) s.acc, semiblocksAt s .out base n) := by
    rw [flatView_transformW hn, flatView, flatW_of_enc_id henc, semiblocksAt_length]
  exact ⟨congrArg Prod.fst hview, fun i hi => readSemiblock_of_semiblocksAt_eq (congrArg Prod.snd hview) hi⟩

/-! What the transforms write and read (R148). -/

theorem transformW_frame (P : Params) (k : CipherState) (base n : Nat) (s : State) :
    TransformFrame s (transformW P k base n s) :=
  forwardRun_keeps (fun n p t h => h.trans (wStep_frame P k base n p t)) _ _ rfl

theorem transformWinv_frame (P : Params) (k : CipherState) (base n : Nat) (s : State) :
    TransformFrame s (transformWinv P k base n s) :=
  inverseRun_keeps (fun n p t h => h.trans (winvStep_frame P k base n p t)) _ _ rfl

theorem transformW_setMem_inp (hn : 1 ≤ n) (s : State) (m : Memory) :
    transformW P k base n (s.setMem .inp m) = (transformW P k base n s).setMem .inp m := by
  rw [transformW_eq_foldl hn, transformW_eq_foldl hn]
  exact List.foldl_rel (r := fun u t : State => u = t.setMem .inp m) rfl fun p _ u t h => by
    rw [h, wStep_setMem_inp]

theorem transformWinv_setMem_inp (hn : 1 ≤ n) (s : State) (m : Memory) :
    transformWinv P k base n (s.setMem .inp m) = (transformWinv P k base n s).setMem .inp m := by
  rw [transformWinv_eq_foldl hn, transformWinv_eq_foldl hn]
  exact List.foldl_rel (r := fun u t : State => u = t.setMem .inp m) rfl fun p _ u t h => by
    rw [h, winvStep_setMem_inp]

/-- Two states agree on what a transform over OUT[base : base + 8·n) works on: the region, A, B, t, n and the
sequencer (R148). -/
structure SameRegion (base n : Nat) (s u : State) : Prop where
  acc : u.acc = s.acc
  blk : u.blk = s.blk
  seq : u.seq = s.seq
  ctr : u.ctr = s.ctr
  count : u.count = s.count
  region : ∀ a, base ≤ a → a < base + 8 * n → readByte u .out a = readByte s .out a

namespace SameRegion

theorem readSemiblock (h : SameRegion base n s u) {i : Nat} (hi : i < n) :
    readSemiblock u base i = readSemiblock s base i :=
  congrArg semiblockOf (memRead_ext fun j hj => h.region _ (by omega) (by omega))

theorem storeStep (h : SameRegion base n s u) (i : Nat) (b : Block) (a : Semiblock) (c : Nat) (q : Option (Nat × Nat)) :
    SameRegion base n (storeStep base i b a c q s) (storeStep base i b a c q u) where
  acc := by simp
  blk := by simp
  seq := by simp
  ctr := by simp
  count := by simp [h.count]
  region x hx hxn := by rw [readByte_storeStep, readByte_storeStep, h.region x hx hxn]

theorem wStep (h : SameRegion base n s u) {p : Nat × Nat} (hp : p.2 < n) :
    SameRegion base n (wStep P k base n p s) (wStep P k base n p u) := by
  rw [wStep_eq_storeStep, wStep_eq_storeStep, h.acc, h.readSemiblock hp]
  exact h.storeStep ..

theorem winvStep (h : SameRegion base n s u) {p : Nat × Nat} (hp : p.2 < n) :
    SameRegion base n (winvStep P k base n p s) (winvStep P k base n p u) := by
  rw [winvStep_eq_storeStep, winvStep_eq_storeStep, h.acc, h.readSemiblock hp]
  exact h.storeStep ..

/-- A transform's start sets n and the sequencer and touches nothing else it works on (R33, R35). -/
theorem start (h : SameRegion base n s u) (c : Option Nat) (q : Option (Nat × Nat)) :
    SameRegion base n ((s.setCount c).setSeq q) ((u.setCount c).setSeq q) :=
  { h with seq := rfl, count := rfl, region := h.region }

/-- W reads OUT only in its region (R148). -/
theorem transformW (h : SameRegion base n s u) (hn : 1 ≤ n) :
    SameRegion base n (transformW P k base n s) (transformW P k base n u) := by
  rw [transformW_eq_foldl hn, transformW_eq_foldl hn]
  exact List.foldl_rel (h.start _ _) fun p hp _ _ h => h.wStep (forwardOrder_lt hp).2

/-- Winv reads OUT only in its region (R148). -/
theorem transformWinv (h : SameRegion base n s u) (hn : 1 ≤ n) :
    SameRegion base n (transformWinv P k base n s) (transformWinv P k base n u) := by
  rw [transformWinv_eq_foldl hn, transformWinv_eq_foldl hn]
  exact List.foldl_rel (h.start _ _) fun p hp _ _ h => h.winvStep (inverseOrder_lt hp).2

end SameRegion

/-- Settles O35: what is written by the frames, what is read by following two runs side by side, with another IN
(`transformW_setMem_inp`) and with another OUT outside the region (`SameRegion.transformW`). -/
theorem transformsStayInTheirRegion : Obligations.TransformsStayInTheirRegion := by
  intro P k base n s m hn
  refine ⟨fun t ht => ?_, transformW_setMem_inp hn s m, transformWinv_setMem_inp hn s m, fun hout f hf => ?_⟩
  · obtain rfl | rfl := ht
    · exact ⟨readByte_transformW P k base n s, transformW_frame P k base n s⟩
    · exact ⟨readByte_transformWinv P k base n s, transformWinv_frame P k base n s⟩
  · have hstart : SameRegion base n s { s with out := m } := ⟨rfl, rfl, rfl, rfl, rfl, hout⟩
    have hend : SameRegion base n (f s) (f { s with out := m }) := by
      obtain rfl | rfl := hf
      · exact hstart.transformW hn
      · exact hstart.transformWinv hn
    exact ⟨hend.acc, hend.blk, hend.seq, hend.ctr, hend.count, hend.region⟩

end Sys2Proof.Machine

/-! ### The KW codec and what the codecs share (R160 to R164, R180 to R187) -/

namespace Sys2Proof.Machine

open Sys2Proof

variable {P : Params} {k : CipherState} {n L E : Nat} {s u : State}

/-! Semiblocks, their bytes, and a header in front of them (R62, R160). -/

theorem semiblocksAt_succ (s : State) (S : Space) (base n : Nat) :
    semiblocksAt s S base (n + 1) = semiblockOf (memRead s S base 8) :: semiblocksAt s S (base + 8) n := by
  simp [semiblocksAt, List.range_succ_eq_map, Nat.mul_succ, Nat.add_comm, Nat.add_assoc]

/-- Different lists of semiblocks have different bytes. -/
theorem semiblocksBytes_injective : Function.Injective semiblocksBytes := by
  intro Q R h
  have hlen : Q.length = R.length := by
    have := congrArg List.length h
    rw [semiblocksBytes_length, semiblocksBytes_length] at this
    omega
  induction Q generalizing R with
  | nil => exact (List.length_eq_zero_iff.mp hlen.symm).symm
  | cons x Q ih =>
    obtain _ | ⟨y, R⟩ := R
    · cases hlen
    obtain ⟨hx, hQ⟩ := List.append_inj h (by rw [semiblockBytes_length, semiblockBytes_length])
    rw [← semiblockOf_semiblockBytes x, hx, semiblockOf_semiblockBytes, ih hQ (Nat.succ.inj hlen)]

/-- OUT holds the semiblocks that were copied into it (R11, R62). -/
theorem semiblocksAt_memWrite_memRead (s u : State) (S : Space) (a b n : Nat) :
    semiblocksAt (memWrite s .out a (memRead u S b (8 * n))) .out a n = semiblocksAt u S b n := by
  refine semiblocksBytes_injective ?_
  rw [semiblocksBytes_semiblocksAt, semiblocksBytes_semiblocksAt]
  simpa only [memRead_length] using memRead_memWrite_out s a (memRead u S b (8 * n))

/-! The sizes pass: a codec command is its own work (R164, R190, R237). -/

/-- A codec command that succeeds has got to its own work (R237). -/
theorem codec_of_success {required : Nat → Option Nat} {body : CipherState → Nat → Nat → State → State}
    (h : (codec P required body s).err = .success) :
    ∃ k E, s.kek = some k ∧ required s.inLen.toNat = some E ∧ E ≤ P.bufBytes ∧
      codec P required body s = body k s.inLen.toNat E s := by
  obtain ⟨-, hc⟩ | ⟨_, -, -, hc⟩ | ⟨_, _, -, -, -, hc⟩ | ⟨_, _, -, -, -, -, -, hc⟩ | ⟨k, E, hk, hE, -, hB, -, hc⟩ :=
    codec_cases P required body s
  case inr.inr.inr.inr => exact ⟨k, E, hk, hE, hB, hc⟩
  all_goals rw [hc] at h; cases h

theorem kwWrapLength_of (h8 : L % 8 = 0) (hL : 8 ≤ L) : kwWrapLength L = some (L + 8) := if_neg (by omega)

theorem kwUnwrapLength_of (hn : 1 ≤ n) (hL : L = 8 * (n + 1)) : kwUnwrapLength L = some (8 * n) := by
  rw [kwUnwrapLength, if_neg (by omega), show L / 8 - 1 = n by omega]

theorem kwpUnwrapLength_of (hn : 1 ≤ n) (hL : L = 8 * (n + 1)) (hmax : L ≤ kwpUnwrapMaxBytes) :
    kwpUnwrapLength L = some (8 * n) := by
  rw [kwpUnwrapLength, if_neg (by omega), show L / 8 - 1 = n by omega]

theorem kwWrap_eq_body (hk : s.kek = some k) (h8 : s.inLen.toNat % 8 = 0) (hL : 8 ≤ s.inLen.toNat)
    (hB : s.inLen.toNat + 8 ≤ P.bufBytes) (hO : s.outLen.toNat = s.inLen.toNat + 8) :
    kwWrap P s = kwWrapBody P k s.inLen.toNat (s.inLen.toNat + 8) s :=
  codec_eq_body _ hk (kwWrapLength_of h8 hL) (by omega) hB hO

theorem kwUnwrap_eq_body (hk : s.kek = some k) (hn : 1 ≤ n) (hL : s.inLen.toNat = 8 * (n + 1))
    (hB : 8 * (n + 1) ≤ P.bufBytes) (hO : s.outLen.toNat = 8 * n) :
    kwUnwrap P s = kwUnwrapBody P k (8 * (n + 1)) (8 * n) s := by
  rw [← hL] at hB ⊢
  exact codec_eq_body _ hk (kwUnwrapLength_of hn hL) hB (by omega) hO

theorem kwpUnwrap_eq_body (hk : s.kek = some k) (hn : 1 ≤ n) (hL : s.inLen.toNat = 8 * (n + 1))
    (hmax : 8 * (n + 1) ≤ kwpUnwrapMaxBytes) (hB : 8 * (n + 1) ≤ P.bufBytes) (hO : s.outLen.toNat = 8 * n) :
    kwpUnwrap P s = kwpUnwrapBody P k (8 * (n + 1)) (8 * n) s := by
  rw [← hL] at hB hmax ⊢
  exact codec_eq_body _ hk (kwpUnwrapLength_of hn hL hmax) hB (by omega) hO

/-! The wraps: load the plaintext and the header, transform, store the header (R161, R183). -/

/-- KW_WRAP before its transform: IV_KW in A, the plaintext in OUT from 8 (R161). -/
def kwLoad (L : Nat) (s : State) : State := memWrite (s.setAcc ivKw) .out 8 (memRead s .inp 0 L)

/-- KWP_WRAP before its transform: the AIV in A, the padded plaintext in OUT from 8 (R183). -/
def kwpLoad (L : Nat) (s : State) : State :=
  memWrite (memWrite (s.setAcc (aiv L)) .out 8 (memRead s .inp 0 L)) .out (8 + L) (zeros (8 * ceil8 L - L))

/-- The end of both wraps: transform the n semiblocks from 8 on, and store A in front of them (R161, R183). -/
def sealOut (P : Params) (k : CipherState) (n : Nat) (s : State) : State :=
  writeSemiblock (transformW P k 8 n s) 0 0 (transformW P k 8 n s).acc

theorem kwWrapBody_eq (P : Params) (k : CipherState) (L E : Nat) (s : State) :
    kwWrapBody P k L E s = complete E (sealOut P k (L / 8) (kwLoad L s)) := by
  simp only [kwWrapBody, sealOut, kwLoad, writeSemiblock, memRead_setAcc, Nat.mul_zero, Nat.add_zero]

theorem kwpWrapBody_of_ne_one (h : ceil8 L ≠ 1) (P : Params) (k : CipherState) (E : Nat) (s : State) :
    kwpWrapBody P k L E s = complete E (sealOut P k (ceil8 L) (kwpLoad L s)) := by
  simp only [kwpWrapBody, if_neg h, sealOut, kwpLoad, writeSemiblock, memRead_setAcc, Nat.mul_zero, Nat.add_zero]

@[simp] theorem kwLoad_acc (L : Nat) (s : State) : (kwLoad L s).acc = ivKw := by simp [kwLoad]

@[simp] theorem kwpLoad_acc (L : Nat) (s : State) : (kwpLoad L s).acc = aiv L := by simp [kwpLoad]

/-- KW_WRAP's transform works on the plaintext semiblocks (R161). -/
theorem semiblocksAt_kwLoad (h : L = 8 * n) (s : State) :
    semiblocksAt (kwLoad L s) .out 8 n = semiblocksAt s .inp 0 n := by
  subst h
  exact semiblocksAt_memWrite_memRead ..

/-- A wrap leaves the final accumulator and then the ciphertext semiblocks in OUT (R160, R180). -/
theorem memRead_sealOut (hn : 1 ≤ n) (s : State) :
    memRead (sealOut P k n s) .out 0 (8 * (n + 1)) =
      semiblocksBytes ((flatW P k (flatView 8 n s)).1 :: (flatW P k (flatView 8 n s)).2) := by
  have hhead : semiblockOf (memRead (sealOut P k n s) .out 0 8) = (transformW P k 8 n s).acc :=
    (readSemiblock_writeSemiblock (transformW P k 8 n s) 0 0 0 _).trans (if_pos rfl)
  have htail : semiblocksAt (sealOut P k n s) .out 8 n = semiblocksAt (transformW P k 8 n s) .out 8 n :=
    semiblocksAt_congr fun i _ => readByte_writeSemiblock _ 0 0 _ _ (.inr (by omega))
  rw [← semiblocksBytes_semiblocksAt, semiblocksAt_succ, hhead, htail, ← flatView_transformW hn]
  rfl

/-- KW_WRAP's work leaves the KW wrapped value in OUT (R160, R161). -/
theorem memRead_kwWrapBody (h8 : L % 8 = 0) (hL : 8 ≤ L) (P : Params) (k : CipherState) (s : State) :
    memRead (kwWrapBody P k L (L + 8) s) .out 0 (L + 8) = kwWrapped P k (semiblocksAt s .inp 0 (L / 8)) := by
  rw [kwWrapBody_eq, memRead_complete, show L + 8 = 8 * (L / 8 + 1) by omega, memRead_sealOut (by omega), flatView,
    kwLoad_acc, semiblocksAt_kwLoad (by omega)]
  rfl

/-- Settles O37: the sizes pass (`kwWrap_eq_body`), and the work leaves the wrapped value (`memRead_kwWrapBody`). -/
theorem kwWrapProducesTheWrappedValue : Obligations.KwWrapProducesTheWrappedValue := by
  intro s k L hk h8 hL hB hO
  exact ⟨_, congrArg Host.Outcome.next (kwWrap_eq_body hk h8 hL hB hO), complete_ends _ _,
    memRead_kwWrapBody h8 hL _ k s, kwWrapBody_out _ k s (by omega) le_rfl, kwWrapBody_keeps ..⟩

/-! The unwraps: load the ciphertext and its header, and transform back (R162, R185). -/

/-- What KW_UNWRAP recovers, and KWP_UNWRAP from more than one semiblock: the candidate header in A and the n candidate
semiblocks in OUT (R162, R185). -/
def recoverOut (P : Params) (k : CipherState) (n : Nat) (s : State) : State :=
  transformWinv P k 0 n (memWrite (s.setAcc (semiblockOf (memRead s .inp 0 8))) .out 0 (memRead s .inp 8 (8 * n)))

theorem kwUnwrapBody_eq (P : Params) (k : CipherState) (n : Nat) (s : State) :
    kwUnwrapBody P k (8 * (n + 1)) (8 * n) s =
      if (recoverOut P k n s).acc ≠ ivKw then failIntegrity (8 * n) (recoverOut P k n s)
      else complete (8 * n) (recoverOut P k n s) := by
  rw [kwUnwrapBody, show 8 * (n + 1) / 8 - 1 = n by omega]
  rfl

theorem kwpRecover_of_ne_one (h : n ≠ 1) (P : Params) (k : CipherState) (s : State) :
    kwpRecover P k n (8 * n) s = recoverOut P k n s := by
  simp only [kwpRecover, if_neg h, recoverOut, memRead_setAcc]

/-- What is recovered, in the flat form (R147, R162). -/
theorem flatView_recoverOut (hn : 1 ≤ n) (P : Params) (k : CipherState) (s : State) :
    flatView 0 n (recoverOut P k n s) = kwRecovered P k s n := by
  rw [recoverOut, flatView_transformWinv hn, flatView, semiblocksAt_memWrite_memRead, memWrite_acc, State.setAcc_acc]
  rfl

theorem recoverOut_acc (hn : 1 ≤ n) (P : Params) (k : CipherState) (s : State) :
    (recoverOut P k n s).acc = (kwRecovered P k s n).1 := congrArg Prod.fst (flatView_recoverOut hn P k s)

theorem memRead_recoverOut (hn : 1 ≤ n) (P : Params) (k : CipherState) (s : State) :
    memRead (recoverOut P k n s) .out 0 (8 * n) = semiblocksBytes (kwRecovered P k s n).2 := by
  rw [← semiblocksBytes_semiblocksAt, ← flatView_recoverOut hn P k s]
  rfl

theorem kwUnwrapBody_of_header (hn : 1 ≤ n) (h : (kwRecovered P k s n).1 = ivKw) :
    kwUnwrapBody P k (8 * (n + 1)) (8 * n) s = complete (8 * n) (recoverOut P k n s) := by
  rw [kwUnwrapBody_eq, recoverOut_acc hn, if_neg (not_not.mpr h)]

theorem kwUnwrapBody_of_wrong_header (hn : 1 ≤ n) (h : (kwRecovered P k s n).1 ≠ ivKw) :
    kwUnwrapBody P k (8 * (n + 1)) (8 * n) s = failIntegrity (8 * n) (recoverOut P k n s) := by
  rw [kwUnwrapBody_eq, recoverOut_acc hn, if_pos h]

theorem failIntegrity_ends (E : Nat) (s : State) : Ends (failIntegrity E s) .integrityCheckFailed 0 0 :=
  raise_ends .integrityCheckFailed _

/-- A failed check leaves OUT[0 : E) zero (R76). -/
theorem memRead_failIntegrity (E : Nat) (s : State) : memRead (failIntegrity E s) .out 0 E = zeros E := by
  simpa only [failIntegrity, memRead_raise, zeros_length] using memRead_memWrite_out s 0 (zeros E)

/-- An input of whole semiblocks, two or more, is a header and n semiblocks (R162). -/
theorem exists_semiblocks (h8 : L % 8 = 0) (hL : 16 ≤ L) :
    ∃ n, 1 ≤ n ∧ L = 8 * (n + 1) ∧ L / 8 - 1 = n ∧ L - 8 = 8 * n := ⟨L / 8 - 1, by omega⟩

/-- Settles O38: the sizes pass, and the header recovered (`recoverOut_acc`) is the right one. -/
theorem kwUnwrapReleasesVerifiedPlaintext : Obligations.KwUnwrapReleasesVerifiedPlaintext := by
  intro s k L hk h8 hL hB hO hheader
  obtain ⟨n, hn, hLn, hdiv, hsub⟩ := exists_semiblocks h8 hL
  rw [hdiv] at hheader ⊢
  rw [hsub] at hO ⊢
  have hbody := kwUnwrapBody_of_header hn hheader
  refine ⟨_, congrArg Host.Outcome.next (kwUnwrap_eq_body hk hn hLn (hLn ▸ hB) hO), ?_, ?_,
    kwUnwrapBody_out _ k s (by omega), kwUnwrapBody_keeps ..⟩
  · rw [hbody]
    exact complete_ends _ _
  · rw [hbody, memRead_complete, memRead_recoverOut hn]

/-- Settles O39: likewise with the wrong header, and then the output is zeroised (`memRead_failIntegrity`). -/
theorem kwUnwrapZeroisesOnWrongHeader : Obligations.KwUnwrapZeroisesOnWrongHeader := by
  intro s k L hk h8 hL hB hO hheader
  obtain ⟨n, hn, hLn, hdiv, hsub⟩ := exists_semiblocks h8 hL
  rw [hdiv] at hheader
  rw [hsub] at hO ⊢
  have hbody := kwUnwrapBody_of_wrong_header hn hheader
  refine ⟨_, congrArg Host.Outcome.next (kwUnwrap_eq_body hk hn hLn (hLn ▸ hB) hO), ?_, ?_,
    kwUnwrapBody_out _ k s (by omega), kwUnwrapBody_keeps ..⟩
  · rw [hbody]
    exact failIntegrity_ends _ _
  · rw [hbody]
    exact memRead_failIntegrity _ _

/-! One codec's value in the other's unwrap (R162 corner (c), R185 corner (e)). -/

/-- An unwrap recovers from a wrap's output what the wrap's transform started from (R149). -/
theorem kwRecovered_of_sealOut (hk : FromInit P k) (hn : 1 ≤ n)
    (h : memRead u .inp 0 (8 * (n + 1)) = memRead (sealOut P k n s) .out 0 (8 * (n + 1))) :
    kwRecovered P k u n = flatView 8 n s := by
  rw [memRead_sealOut hn, ← semiblocksBytes_semiblocksAt, semiblocksAt_succ] at h
  obtain ⟨hhead, htail⟩ := List.cons.inj (semiblocksBytes_injective h)
  rw [kwRecovered, hhead, htail]
  exact flatWinv_flatW hk (by simpa using hn)

theorem headerPrefix_aiv (len : Nat) : headerPrefix (aiv len) = aivPrefix :=
  BitVec.extractLsb'_append_eq_left

theorem headerPrefix_ivKw_ne : headerPrefix ivKw ≠ aivPrefix := by decide

theorem aiv_ne_ivKw (len : Nat) : aiv len ≠ ivKw := fun h => headerPrefix_ivKw_ne (h ▸ headerPrefix_aiv len)

/-- KWP_UNWRAP of more than one semiblock fails when the first four bytes recovered are wrong (R187). -/
theorem kwpUnwrapBody_of_wrong_prefix (hn : 2 ≤ n) (h : headerPrefix (kwRecovered P k s n).1 ≠ aivPrefix) :
    kwpUnwrapBody P k (8 * (n + 1)) (8 * n) s = failIntegrity (8 * n) (recoverOut P k n s) := by
  have hcheck : kwpCheck (recoverOut P k n s) (recoverOut P k n s).acc n = none := by
    rw [recoverOut_acc (by omega)]
    exact if_pos h
  rw [kwpUnwrapBody, show 8 * (n + 1) / 8 - 1 = n by omega, kwpRecover_of_ne_one (by omega)]
  simp only [hcheck]

/-- A wrap whose transform worked on n semiblocks leaves n + 1 of them, and an unwrap of these recovers what the
transform started from (R149, R160, R180). -/
theorem unwraps_of_sealOut {t : State} (hk : FromInit P k) (ht : t = complete (8 * (n + 1)) (sealOut P k n s))
    (hB : 8 * (n + 1) ≤ P.bufBytes) (h24 : 24 ≤ t.resultLen.toNat) (hlen : u.inLen = t.resultLen)
    (hout : u.outLen.toNat = t.resultLen.toNat - 8)
    (hmem : memRead u .inp 0 t.resultLen.toNat = memRead t .out 0 t.resultLen.toNat) :
    2 ≤ n ∧ u.inLen.toNat = 8 * (n + 1) ∧ u.outLen.toNat = 8 * n ∧ kwRecovered P k u n = flatView 8 n s := by
  have hcap := P.bufBytes_le
  have hresult : t.resultLen.toNat = 8 * (n + 1) := by
    rw [ht, complete_resultLen, BitVec.toNat_ofNat, Nat.mod_eq_of_lt (by omega)]
  rw [hresult] at h24 hout hmem
  rw [ht, memRead_complete] at hmem
  exact ⟨by omega, by rw [hlen, hresult], by omega, kwRecovered_of_sealOut hk (by omega) hmem⟩

/-- What a successful KW_WRAP leaves (R161). -/
theorem kwWrap_of_success (hk : s.kek = some k) (h : (kwWrap P s).err = .success) :
    ∃ n, 8 * (n + 1) ≤ P.bufBytes ∧
      kwWrap P s = complete (8 * (n + 1)) (sealOut P k n (kwLoad s.inLen.toNat s)) := by
  obtain ⟨k', E, hk', hE, hB, hbody⟩ := codec_of_success h
  obtain rfl : k' = k := Option.some.inj (hk'.symm.trans hk)
  obtain ⟨h8, hL, hE8⟩ := kwWrapLength_eq hE
  obtain rfl : E = 8 * (s.inLen.toNat / 8 + 1) := by omega
  exact ⟨_, hB, hbody.trans (kwWrapBody_eq ..)⟩

theorem kwpWrapBody_resultLen (P : Params) (k : CipherState) (L E : Nat) (s : State) :
    (kwpWrapBody P k L E s).resultLen = BitVec.ofNat 64 E := by
  simp only [kwpWrapBody]
  split <;> rfl

/-- What a successful KWP_WRAP leaves, where that is more than one block (R183). -/
theorem kwpWrap_of_success (hk : s.kek = some k) (h : (kwpWrap P s).err = .success)
    (h24 : 24 ≤ (kwpWrap P s).resultLen.toNat) :
    ∃ n, 8 * (n + 1) ≤ P.bufBytes ∧
      kwpWrap P s = complete (8 * (n + 1)) (sealOut P k n (kwpLoad s.inLen.toNat s)) := by
  obtain ⟨k', E, hk', hE, hB, hbody⟩ := codec_of_success h
  obtain rfl : k' = k := Option.some.inj (hk'.symm.trans hk)
  obtain ⟨-, -, rfl, -, -⟩ := kwpWrapLength_eq hE
  have hne : ceil8 s.inLen.toNat ≠ 1 := by
    intro hone
    rw [kwpWrap, hbody, kwpWrapBody_resultLen, hone] at h24
    exact absurd h24 (by decide)
  exact ⟨_, hB, hbody.trans (kwpWrapBody_of_ne_one hne ..)⟩

/-- Settles O46: each unwrap recovers the header the other codec's wrap started from (`unwraps_of_sealOut`), whose first
four bytes are wrong for it (`headerPrefix_aiv`, `headerPrefix_ivKw_ne`). -/
theorem codecsRejectEachOthersValues : Obligations.CodecsRejectEachOthersValues := by
  intro P s t u k hinit hs hu hok h24 hlen hout hmem
  constructor
  · rintro rfl
    obtain ⟨n, hB, ht⟩ := kwpWrap_of_success hs hok h24
    obtain ⟨hn, hL, hO, hrec⟩ := unwraps_of_sealOut hinit ht hB h24 hlen hout hmem
    have hheader : (kwRecovered P k u n).1 ≠ ivKw := by
      rw [hrec, flatView, kwpLoad_acc]
      exact aiv_ne_ivKw _
    rw [kwUnwrap_eq_body hu (by omega) hL hB hO, kwUnwrapBody_of_wrong_header (by omega) hheader]
    rfl
  · rintro rfl hmax
    obtain ⟨n, hB, ht⟩ := kwWrap_of_success hs hok
    obtain ⟨hn, hL, hO, hrec⟩ := unwraps_of_sealOut hinit ht hB h24 hlen hout hmem
    have hprefix : headerPrefix (kwRecovered P k u n).1 ≠ aivPrefix := by
      rw [hrec, flatView, kwLoad_acc]
      exact headerPrefix_ivKw_ne
    rw [← hlen, hL] at hmax
    rw [kwpUnwrap_eq_body hu (by omega) hL hmax hB hO, kwpUnwrapBody_of_wrong_prefix hn hprefix]
    rfl

end Sys2Proof.Machine

/-! ### The KWP codec (R180 to R190) -/

namespace Sys2Proof.Machine

open Sys2Proof

variable {P : Params} {k : CipherState} {n m L : Nat} {s : State} {a : Semiblock}

/-! Headers and zero bytes (R8, R98b, R187). -/

/-- A header is its first four bytes and its MLI (R98b). -/
theorem semiblockBytes_eq_header (a : Semiblock) :
    semiblockBytes a = beBytes 4 (headerPrefix a).toNat ++ beBytes 4 (headerMli a) := by
  have hmli : headerMli a < 256 ^ 4 := (a.extractLsb' 0 32).isLt
  have hsplit : a.toNat = (headerPrefix a).toNat * 256 ^ 4 + headerMli a := by
    have := a.isLt
    simp only [headerPrefix, headerMli, BitVec.extractLsb'_toNat, Nat.shiftRight_eq_div_pow]
    omega
  rw [← beBytes_split 4 4 _ _ hmli, ← hsplit, semiblockBytes]

theorem headerMli_eq_intBe (a : Semiblock) : headerMli a = intBe ((semiblockBytes a).drop 4) := by
  rw [semiblockBytes_eq_header, List.drop_left' (beBytes_length ..), intBe_beBytes]
  exact (Nat.mod_eq_of_lt (a.extractLsb' 0 32).isLt).symm

theorem headerPrefix_eq_iff :
    headerPrefix a = aivPrefix ↔ (semiblockBytes a).take 4 = [0xA6#8, 0x59#8, 0x59#8, 0xA6#8] := by
  rw [semiblockBytes_eq_header, List.take_left' (beBytes_length ..)]
  constructor
  · intro h
    rw [h]
    decide
  · intro h
    have hnum := congrArg intBe h
    have hlt : (headerPrefix a).toNat < 256 ^ 4 := (headerPrefix a).isLt
    rw [intBe_beBytes, Nat.mod_eq_of_lt hlt] at hnum
    exact BitVec.eq_of_toNat_eq hnum

theorem memRead_eq_zeros_iff {S : Space} {x : Nat} :
    memRead s S x n = zeros n ↔ ∀ p, x ≤ p → p < x + n → readByte s S p = 0 := by
  rw [zeros, List.eq_replicate_iff, and_iff_right (memRead_length ..)]
  simp only [memRead, List.forall_mem_map, List.mem_range]
  constructor
  · intro h p hx hp
    have := h (p - x) (by omega)
    rwa [Nat.add_sub_of_le hx] at this
  · exact fun h i hi => h (x + i) (by omega) (by omega)

theorem memRead_drop (s : State) (S : Space) (x n i : Nat) :
    (memRead s S x n).drop i = memRead s S (x + i) (n - i) := by
  obtain hi | hi := Nat.le_total i n
  · obtain ⟨r, rfl⟩ := Nat.exists_eq_add_of_le hi
    rw [memRead_add, List.drop_left' (memRead_length ..), Nat.add_sub_cancel_left]
  · rw [Nat.sub_eq_zero_of_le hi, List.drop_eq_nil_of_le (by simpa using hi)]
    rfl

/-! `KwpCheck` (R187). -/

/-- The three checks of `KwpCheck` (R187). -/
theorem kwpCheck_eq_some_iff :
    kwpCheck s a n = some m ↔ headerPrefix a = aivPrefix ∧ m = headerMli a ∧ ceil8 m = n ∧
      memRead s .out m (8 * n - m) = zeros (8 * n - m) := by
  constructor
  · intro h
    obtain ⟨hprefix, hm, hn, hpad, -, -⟩ := kwpCheck_eq h
    exact ⟨hprefix, hm, hn, hpad⟩
  · rintro ⟨hprefix, rfl, hn, hpad⟩
    rw [kwpCheck, if_neg (not_not.mpr hprefix), if_neg (not_not.mpr hn), if_neg (not_not.mpr hpad)]

/-- Settles O41: `kwpCheck_eq_some_iff` with the header's parts and the padding read byte by byte; the bounds are
`kwpCheck_eq`'s. -/
theorem kwpCheckRule : Obligations.KwpCheckRule := by
  intro s a n m
  constructor
  · rw [kwpCheck_eq_some_iff, headerPrefix_eq_iff, headerMli_eq_intBe, memRead_eq_zeros_iff]
    refine and_congr_right fun _ => and_congr_right fun _ => and_congr_right fun hn => ?_
    have hn : (m + 7) / 8 = n := hn
    rw [Nat.add_sub_of_le (by omega)]
  · intro h
    obtain ⟨-, -, -, -, hle, hge⟩ := kwpCheck_eq h
    exact ⟨by omega, hle⟩

/-- `KwpCheck` on A and the n semiblocks of OUT passes when the checks on their list do, and then with the header's
MLI (R187). -/
theorem kwpCheck_eq_some_iff_verified :
    kwpCheck s s.acc n = some m ↔ KwpVerified (flatView 0 n s) ∧ m = headerMli s.acc := by
  rw [kwpCheck_eq_some_iff, KwpVerified, flatView, semiblocksAt_length, semiblocksBytes_semiblocksAt, memRead_drop,
    Nat.zero_add]
  constructor
  · rintro ⟨hprefix, rfl, hn, hpad⟩
    exact ⟨⟨hprefix, hn, hpad⟩, rfl⟩
  · rintro ⟨⟨hprefix, hn, hpad⟩, rfl⟩
    exact ⟨hprefix, rfl, hn, hpad⟩

theorem kwpCheck_eq_none_iff_not_verified : kwpCheck s s.acc n = none ↔ ¬ KwpVerified (flatView 0 n s) := by
  simp only [Option.eq_none_iff_forall_ne_some, Ne, kwpCheck_eq_some_iff_verified, not_and]
  exact ⟨fun h hv => h _ hv rfl, fun h _ hv => absurd hv h⟩

/-! KWP_WRAP (R181 to R184). -/

theorem kwpWrapLength_of (h1 : 1 ≤ L) (hmax : L ≤ 4294967295) : kwpWrapLength L = some (8 * ceil8 L + 8) :=
  if_neg (by rw [kwpMaxPlain]; omega)

theorem kwpWrap_eq_body (hk : s.kek = some k) (h1 : 1 ≤ s.inLen.toNat) (hmax : s.inLen.toNat ≤ 4294967295)
    (hB : 8 * ceil8 s.inLen.toNat + 8 ≤ P.bufBytes) (hO : s.outLen.toNat = 8 * ceil8 s.inLen.toNat + 8) :
    kwpWrap P s = kwpWrapBody P k s.inLen.toNat (8 * ceil8 s.inLen.toNat + 8) s :=
  codec_eq_body _ hk (kwpWrapLength_of h1 hmax) (by rw [ceil8] at hB; omega) hB hO

theorem le_mul_ceil8 (L : Nat) : L ≤ 8 * ceil8 L := by
  rw [ceil8]
  omega

/-- A memory that holds the padded bytes holds the padded semiblocks (R182). -/
theorem semiblocksAt_eq_paddedSemiblocks {S : Space} {x : Nat} {bytes : List Byte}
    (h : memRead s S x (8 * n) = bytes ++ zeros (8 * n - bytes.length)) :
    semiblocksAt s S x n = paddedSemiblocks bytes n := by
  refine List.map_congr_left fun i hi => ?_
  have := List.mem_range.mp hi
  rw [← h, memRead_drop_take _ _ _ _ _ _ (by omega)]

theorem paddedSemiblocks_one {bytes : List Byte} (h : bytes.length ≤ 8) :
    paddedSemiblocks bytes 1 = [semiblockOf (bytes ++ zeros (8 - bytes.length))] := by
  have hlen : (bytes ++ zeros (8 - bytes.length)).length ≤ 8 := by simp [h]
  rw [← List.take_of_length_le hlen]
  rfl

theorem kwpWrapBody_ends (P : Params) (k : CipherState) (L E : Nat) (s : State) :
    Ends (kwpWrapBody P k L E s) .success (BitVec.ofNat 64 E) 0 := by
  simp only [kwpWrapBody]
  split <;> exact complete_ends ..

/-- KWP_WRAP's transform works on the padded plaintext (R182, R183). -/
theorem semiblocksAt_kwpLoad (L : Nat) (s : State) :
    semiblocksAt (kwpLoad L s) .out 8 (ceil8 L) = paddedSemiblocks (memRead s .inp 0 L) (ceil8 L) := by
  refine semiblocksAt_eq_paddedSemiblocks ?_
  have hpad : 8 * ceil8 L = L + (8 * ceil8 L - L) := (Nat.add_sub_of_le (le_mul_ceil8 L)).symm
  have hplain : memRead (kwpLoad L s) .out 8 L = memRead s .inp 0 L := by
    rw [kwpLoad, memRead_memWrite_out_of_disjoint _ _ _ _ _ (.inl le_rfl)]
    simpa only [memRead_length] using memRead_memWrite_out (s.setAcc (aiv L)) 8 (memRead s .inp 0 L)
  have hzero : memRead (kwpLoad L s) .out (8 + L) (8 * ceil8 L - L) = zeros (8 * ceil8 L - L) := by
    simpa only [kwpLoad, zeros_length] using memRead_memWrite_out _ (8 + L) (zeros (8 * ceil8 L - L))
  rw [hpad, memRead_add, hplain, ← hpad, hzero, memRead_length]

/-- One semiblock: the work is one cipher block, the AIV and the padded plaintext (R184). -/
theorem memRead_kwpWrapBody_of_one (h : ceil8 L = 1) (P : Params) (k : CipherState) (E : Nat) (s : State) :
    memRead (kwpWrapBody P k L E s) .out 0 16 = kwpWrapped P k (memRead s .inp 0 L) := by
  have hL : L ≤ 8 := (le_mul_ceil8 L).trans_eq (by rw [h])
  rw [kwpWrapped, memRead_length, if_pos h, h, paddedSemiblocks_one (by simpa using hL), memRead_length, kwpWrapBody,
    if_pos h]
  exact (memRead_complete ..).trans (memRead_memWrite_out ..)

/-- KWP_WRAP's work leaves the KWP wrapped value in OUT (R180, R183, R184). -/
theorem memRead_kwpWrapBody (hL : 1 ≤ L) (P : Params) (k : CipherState) (s : State) :
    memRead (kwpWrapBody P k L (8 * ceil8 L + 8) s) .out 0 (8 * ceil8 L + 8) =
      kwpWrapped P k (memRead s .inp 0 L) := by
  by_cases hone : ceil8 L = 1
  · rw [hone, memRead_kwpWrapBody_of_one hone]
  · have hn : 1 ≤ ceil8 L := by have := le_mul_ceil8 L; omega
    rw [kwpWrapBody_of_ne_one hone, memRead_complete, ← Nat.mul_succ, memRead_sealOut hn, flatView, kwpLoad_acc,
      semiblocksAt_kwpLoad, kwpWrapped, memRead_length, if_neg hone]
    rfl

/-- Settles O42: the sizes pass (`kwpWrap_eq_body`), and the work leaves the wrapped value (`memRead_kwpWrapBody`). -/
theorem kwpWrapProducesTheWrappedValue : Obligations.KwpWrapProducesTheWrappedValue := by
  intro s k L E hk h1 hmax hB hO
  exact ⟨_, congrArg Host.Outcome.next (kwpWrap_eq_body hk h1 hmax hB hO), kwpWrapBody_ends ..,
    memRead_kwpWrapBody h1 _ k s, kwpWrapBody_out _ k s rfl (le_mul_ceil8 L), kwpWrapBody_keeps ..⟩

/-! KWP_UNWRAP (R185, R186, R188, R189). -/

/-- What KWP_UNWRAP recovers, in the flat form: by one `Dec` from one semiblock, and by Winv from more (R185, R186). -/
theorem flatView_kwpRecover (hn : 1 ≤ n) (P : Params) (k : CipherState) (s : State) :
    flatView 0 n (kwpRecover P k n (8 * n) s) = kwpRecovered P k s n := by
  by_cases hone : n = 1
  · subst hone
    have hblock : blockOf (memRead s .inp 0 16) =
        joinBlock (semiblockOf (memRead s .inp 0 8)) (semiblockOf (memRead s .inp 8 8)) := by
      rw [memRead_add s .inp 0 8 8, blockOf_append _ _ (memRead_length ..)]
    simp only [kwpRecover, kwpRecovered, if_true, hblock, flatView, memWrite_acc, State.setAcc_acc]
    exact congrArg (Prod.mk _) (semiblocksAt_writeSemiblock _ 0 1 0 _)
  · rw [kwpRecover_of_ne_one hone, flatView_recoverOut hn, kwpRecovered, if_neg hone]

theorem memRead_kwpRecover (hn : 1 ≤ n) (P : Params) (k : CipherState) (s : State) :
    memRead (kwpRecover P k n (8 * n) s) .out 0 (8 * n) = semiblocksBytes (kwpRecovered P k s n).2 := by
  rw [← semiblocksBytes_semiblocksAt, ← flatView_kwpRecover hn P k s]
  rfl

theorem kwpRecover_acc (hn : 1 ≤ n) (P : Params) (k : CipherState) (s : State) :
    (kwpRecover P k n (8 * n) s).acc = (kwpRecovered P k s n).1 := congrArg Prod.fst (flatView_kwpRecover hn P k s)

/-- The checks pass: KWP_UNWRAP completes with the MLI (R187, R189). -/
theorem kwpUnwrapBody_of_verified (hn : 1 ≤ n) (h : KwpVerified (kwpRecovered P k s n)) :
    kwpUnwrapBody P k (8 * (n + 1)) (8 * n) s =
      complete (headerMli (kwpRecovered P k s n).1) (kwpRecover P k n (8 * n) s) := by
  rw [← flatView_kwpRecover hn] at h
  have hcheck := kwpCheck_eq_some_iff_verified.mpr ⟨h, rfl⟩
  rw [kwpUnwrapBody, show 8 * (n + 1) / 8 - 1 = n by omega, ← kwpRecover_acc hn]
  simp only [hcheck]

/-- A check fails: KWP_UNWRAP zeroises the output and reports (R185, R188). -/
theorem kwpUnwrapBody_of_not_verified (hn : 1 ≤ n) (h : ¬ KwpVerified (kwpRecovered P k s n)) :
    kwpUnwrapBody P k (8 * (n + 1)) (8 * n) s = failIntegrity (8 * n) (kwpRecover P k n (8 * n) s) := by
  rw [← flatView_kwpRecover hn] at h
  have hcheck := kwpCheck_eq_none_iff_not_verified.mpr h
  rw [kwpUnwrapBody, show 8 * (n + 1) / 8 - 1 = n by omega]
  simp only [hcheck]

/-- Settles O43: the sizes pass, and the checks on what is recovered do (`kwpUnwrapBody_of_verified`). -/
theorem kwpUnwrapReleasesVerifiedPlaintext : Obligations.KwpUnwrapReleasesVerifiedPlaintext := by
  intro s k L x hk h8 hL hmax hB hO hverified
  obtain ⟨n, hn, hLn, hdiv, hsub⟩ := exists_semiblocks h8 hL
  simp only [x, hdiv] at hverified ⊢
  rw [hsub] at hO ⊢
  have hbody := kwpUnwrapBody_of_verified hn hverified
  refine ⟨_, congrArg Host.Outcome.next (kwpUnwrap_eq_body hk hn hLn (hLn ▸ hmax) (hLn ▸ hB) hO), ?_, ?_,
    kwpUnwrapBody_out _ k s (by omega), kwpUnwrapBody_keeps ..⟩
  · rw [hbody]
    exact complete_ends _ _
  · rw [hbody, memRead_complete, memRead_kwpRecover hn]

/-- Settles O44: likewise with a check that fails (`kwpUnwrapBody_of_not_verified`), and then the output is zeroised
(`memRead_failIntegrity`). -/
theorem kwpUnwrapZeroisesOnFailedCheck : Obligations.KwpUnwrapZeroisesOnFailedCheck := by
  intro s k L hk h8 hL hmax hB hO hverified
  obtain ⟨n, hn, hLn, hdiv, hsub⟩ := exists_semiblocks h8 hL
  rw [hdiv] at hverified
  rw [hsub] at hO ⊢
  have hbody := kwpUnwrapBody_of_not_verified hn hverified
  refine ⟨_, congrArg Host.Outcome.next (kwpUnwrap_eq_body hk hn hLn (hLn ▸ hmax) (hLn ▸ hB) hO), ?_, ?_,
    kwpUnwrapBody_out _ k s (by omega), kwpUnwrapBody_keeps ..⟩
  · rw [hbody]
    exact failIntegrity_ends _ _
  · rw [hbody]
    exact memRead_failIntegrity _ _

end Sys2Proof.Machine

/-! ### What every codec command does with its operands (R217, R218, R219, R237) -/

namespace Sys2Proof.Machine

open Sys2Proof

variable {P : Params} {s t : State} {k : CipherState} {i : Instr} {E : Nat}

/-- Settles O16: every command ends (`commandResult_ended`), and a value that is none ends in IllegalCommand. -/
theorem everyCommandEnds : Obligations.EveryCommandEnds := by
  have hcommand : ∀ (i : Instr) (s : State), ∃ t, exec i s = .next t ∧ t.done = true := by
    intro i s
    obtain ⟨_, _, _, hends⟩ := commandResult_ended Config.params i s
    exact ⟨_, exec_eq i s, hends.done⟩
  refine ⟨hcommand, fun s v rest hp => ?_⟩
  rw [step_writeCmd hp]
  cases hv : decode v with
  | ok i =>
    rw [issueCommand_of_decode_ok hv]
    exact hcommand i _
  | error e => exact ⟨_, issueCommand_of_decode_error hv _, rfl⟩

/-! The length rules are the tables of R164, R190 and R231. -/

/-- A rule that names the lengths it rejects, and a rule that names the ones it accepts. -/
theorem ite_none_some_eq {p q : Prop} [Decidable p] [Decidable q] {x y : Nat} (hpq : q ↔ ¬ p) (hxy : q → x = y) :
    (if p then none else some x) = if q then some y else none := by
  by_cases h : q
  · rw [if_neg (hpq.mp h), if_pos h, hxy h]
  · rw [if_pos (not_not.mp (mt hpq.mpr h)), if_neg h]

theorem kwWrapLength_eq_requiredLength : kwWrapLength = requiredLength .kwWrap :=
  funext fun _ => ite_none_some_eq (by omega) fun _ => rfl

theorem kwUnwrapLength_eq_requiredLength : kwUnwrapLength = requiredLength .kwUnwrap :=
  funext fun _ => ite_none_some_eq (by omega) (by omega)

theorem kwpWrapLength_eq_requiredLength : kwpWrapLength = requiredLength .kwpWrap :=
  funext fun _ => ite_none_some_eq (by rw [kwpMaxPlain]; omega) fun _ => rfl

theorem kwpUnwrapLength_eq_requiredLength : kwpUnwrapLength = requiredLength .kwpUnwrap :=
  funext fun _ => ite_none_some_eq (by rw [kwpUnwrapMaxBytes]; omega) (by omega)

/-- A codec command is its operand tests, on its row of the length table, and then some work of its own (R237). -/
theorem codecCommand_eq_codec (hi : isCodec i = true) (P : Params) :
    ∃ body, commandResult P i = codec P (requiredLength i) body := by
  cases i with
  | kekLoad | kekClr => cases hi
  | kwWrap => exact ⟨kwWrapBody P, kwWrapLength_eq_requiredLength ▸ rfl⟩
  | kwUnwrap => exact ⟨kwUnwrapBody P, kwUnwrapLength_eq_requiredLength ▸ rfl⟩
  | kwpWrap => exact ⟨kwpWrapBody P, kwpWrapLength_eq_requiredLength ▸ rfl⟩
  | kwpUnwrap => exact ⟨kwpUnwrapBody P, kwpUnwrapLength_eq_requiredLength ▸ rfl⟩

/-- A length the command does not accept (R231). -/
theorem codec_of_required_none {required : Nat → Option Nat} {body : CipherState → Nat → Nat → State → State}
    (hk : s.kek = some k) (hE : required s.inLen.toNat = none) :
    codec P required body s = raise .invalidDataSize s := by
  simp only [codec, hk, hE]

/-- An OUT_LEN that is not the required one (R217). -/
theorem codec_of_outLen_ne {required : Nat → Option Nat} {body : CipherState → Nat → Nat → State → State}
    (hk : s.kek = some k) (hE : required s.inLen.toNat = some E) (hL : s.inLen.toNat ≤ P.bufBytes)
    (hB : E ≤ P.bufBytes) (hO : s.outLen.toNat ≠ E) :
    codec P required body s = raise (.invalidOutputSize (BitVec.ofNat 64 E)) s := by
  simp only [codec, hk, hE, if_neg (not_or.mpr ⟨Nat.not_lt.mpr hL, Nat.not_lt.mpr hB⟩), if_pos hO]

/-- Settles O19: `codec_of_outLen_ne`, and the state `raise` leaves is the one written out. -/
theorem wrongOutputLengthOnlyReports : Obligations.WrongOutputLengthOnlyReports := by
  intro i s E hi hkek hE hL hB hO
  obtain ⟨k, hk⟩ := Option.ne_none_iff_exists'.mp hkek
  obtain ⟨body, hbody⟩ := codecCommand_eq_codec hi Config.params
  rw [exec_eq, hbody, codec_of_outLen_ne hk hE hL hB hO]
  rfl

theorem isCodec_of_isUnwrap (hi : isUnwrap i = true) : isCodec i = true := by
  cases i with
  | kwUnwrap | kwpUnwrap => rfl
  | kekLoad | kekClr | kwWrap | kwpWrap => cases hi

/-- An unwrap asks for two semiblocks at least (R162, R185, R219). -/
theorem requiredLength_eight_of_isUnwrap (hi : isUnwrap i = true) : requiredLength i 8 = none := by
  cases i with
  | kwUnwrap | kwpUnwrap => rfl
  | kekLoad | kekClr | kwWrap | kwpWrap => cases hi

/-- Settles O20: no unwrap accepts the length 8 (`requiredLength_eight_of_isUnwrap`). -/
theorem oneSemiblockIsTooShortToUnwrap : Obligations.OneSemiblockIsTooShortToUnwrap := by
  intro i s hi hkek hlen
  obtain ⟨k, hk⟩ := Option.ne_none_iff_exists'.mp hkek
  obtain ⟨body, hbody⟩ := codecCommand_eq_codec (isCodec_of_isUnwrap hi) Config.params
  have hnone : requiredLength i s.inLen.toNat = none := by
    rw [hlen]
    exact requiredLength_eight_of_isUnwrap hi
  refine ⟨_, exec_eq i s, ?_⟩
  rw [hbody, codec_of_required_none hk hnone]
  exact raise_ends .invalidDataSize s

/-- A codec command reports the operand test that fails, and changes nothing else, or its sizes pass (R237). -/
theorem codecCommand_cases (hi : isCodec i = true) (P : Params) (s : State) :
    (∃ e : EngineError, (e.toCode = .kekNotLoaded ∨ e.toCode = .invalidDataSize ∨ e.toCode = .invalidOutputSize) ∧
      commandResult P i s = raise e s) ∨
    ∃ k E, s.kek = some k ∧ SizesPass P i s E := by
  obtain ⟨body, hbody⟩ := codecCommand_eq_codec hi P
  rw [hbody]
  obtain ⟨-, hc⟩ | ⟨_, -, -, hc⟩ | ⟨_, _, -, -, -, hc⟩ | ⟨_, _, -, -, -, -, -, hc⟩ | ⟨k, E, hk, hE, hL, hB, hO, -⟩ :=
    codec_cases P (requiredLength i) body s
  · exact .inl ⟨_, .inl rfl, hc⟩
  · exact .inl ⟨_, .inr (.inl rfl), hc⟩
  · exact .inl ⟨_, .inr (.inl rfl), hc⟩
  · exact .inl ⟨_, .inr (.inr rfl), hc⟩
  · exact .inr ⟨k, E, hk, hE, hL, hB, hO⟩

/-- A codec command that succeeds has got past its operand tests (R237). -/
theorem sizesPass_of_success (hi : isCodec i = true) (h : (commandResult P i s).err = .success) :
    ∃ k E, s.kek = some k ∧ SizesPass P i s E := by
  obtain ⟨e, -, hraise⟩ | hsizes := codecCommand_cases hi P s
  · rw [hraise] at h
    cases e <;> cases h
  · exact hsizes

end Sys2Proof.Machine

/-! ### What an unwrap releases (R210 to R212, R216) -/

namespace Sys2Proof.Machine

open Sys2Proof

variable {s t : State} {k : CipherState} {i : Instr} {E : Nat}

/-- What an unwrap recovers from IN (R162, R185). -/
def unwrapRecovered (P : Params) (k : CipherState) (i : Instr) (s : State) : Semiblock × List Semiblock :=
  match i with
  | .kwpUnwrap => kwpRecovered P k s (s.inLen.toNat / 8 - 1)
  | _ => kwRecovered P k s (s.inLen.toNat / 8 - 1)

/-- The number of plaintext bytes in what an unwrap recovers: all of them, or as many as the MLI says (R162, R187). -/
def unwrapLength (P : Params) (k : CipherState) (i : Instr) (s : State) : Nat :=
  match i with
  | .kwpUnwrap => headerMli (kwpRecovered P k s (s.inLen.toNat / 8 - 1)).1
  | _ => s.inLen.toNat - 8

/-- The lengths an unwrap's sizes allow (R162, R185). -/
theorem SizesPass.unwrap_lengths {P : Params} (hi : isUnwrap i = true) (h : SizesPass P i s E) :
    s.inLen.toNat % 8 = 0 ∧ 16 ≤ s.inLen.toNat ∧ s.inLen.toNat ≤ P.bufBytes ∧ s.outLen.toNat = E ∧
      E = s.inLen.toNat - 8 := by
  obtain ⟨hreq, hL, -, hO⟩ := h
  cases i with
  | kwUnwrap =>
    obtain ⟨⟨h8, h16⟩, hE⟩ := Option.ite_none_right_eq_some.mp hreq
    exact ⟨h8, h16, hL, hO, (Option.some.inj hE).symm⟩
  | kwpUnwrap =>
    obtain ⟨⟨h8, h16, -⟩, hE⟩ := Option.ite_none_right_eq_some.mp hreq
    exact ⟨h8, h16, hL, hO, (Option.some.inj hE).symm⟩
  | kekLoad | kekClr | kwWrap | kwpWrap => cases hi

theorem SizesPass.kwpUnwrap_le {P : Params} (h : SizesPass P .kwpUnwrap s E) : s.inLen.toNat ≤ 4294967295 := by
  obtain ⟨⟨-, -, hmax⟩, -⟩ := Option.ite_none_right_eq_some.mp h.1
  exact hmax

/-- An unwrap whose check passes ends in success, with what it recovered in OUT (`kwUnwrapReleasesVerifiedPlaintext`,
`kwpUnwrapReleasesVerifiedPlaintext`). -/
theorem unwrap_of_verified (hi : isUnwrap i = true) (hk : s.kek = some k) (hsizes : SizesPass Config.params i s E)
    (hv : Verified Config.params k i s) :
    Ends (commandResult Config.params i s) .success (BitVec.ofNat 64 (unwrapLength Config.params k i s)) 0 ∧
      memRead (commandResult Config.params i s) .out 0 E = semiblocksBytes (unwrapRecovered Config.params k i s).2 := by
  obtain ⟨h8, h16, hL, hO, rfl⟩ := hsizes.unwrap_lengths hi
  cases i with
  | kwUnwrap =>
    obtain ⟨t, hexec, hends, hmem, -⟩ := kwUnwrapReleasesVerifiedPlaintext s k hk h8 h16 hL hO hv
    obtain rfl := Host.Outcome.next.inj hexec
    exact ⟨hends, hmem⟩
  | kwpUnwrap =>
    obtain ⟨t, hexec, hends, hmem, -⟩ :=
      kwpUnwrapReleasesVerifiedPlaintext s k hk h8 h16 hsizes.kwpUnwrap_le hL hO hv
    obtain rfl := Host.Outcome.next.inj hexec
    exact ⟨hends, hmem⟩
  | kekLoad | kekClr | kwWrap | kwpWrap => cases hi

/-- An unwrap whose check fails ends in IntegrityCheckFailed, with its output zeroised (`kwUnwrapZeroisesOnWrongHeader`,
`kwpUnwrapZeroisesOnFailedCheck`). -/
theorem unwrap_of_not_verified (hi : isUnwrap i = true) (hk : s.kek = some k) (hsizes : SizesPass Config.params i s E)
    (hv : ¬ Verified Config.params k i s) :
    (commandResult Config.params i s).err = .integrityCheckFailed ∧
      memRead (commandResult Config.params i s) .out 0 E = zeros E := by
  obtain ⟨h8, h16, hL, hO, rfl⟩ := hsizes.unwrap_lengths hi
  cases i with
  | kwUnwrap =>
    obtain ⟨t, hexec, hends, hmem, -⟩ := kwUnwrapZeroisesOnWrongHeader s k hk h8 h16 hL hO hv
    obtain rfl := Host.Outcome.next.inj hexec
    exact ⟨hends.err, hmem⟩
  | kwpUnwrap =>
    obtain ⟨t, hexec, hends, hmem, -⟩ := kwpUnwrapZeroisesOnFailedCheck s k hk h8 h16 hsizes.kwpUnwrap_le hL hO hv
    obtain rfl := Host.Outcome.next.inj hexec
    exact ⟨hends.err, hmem⟩
  | kekLoad | kekClr | kwWrap | kwpWrap => cases hi

/-- Settles O50: `unwrap_of_verified` and `unwrap_of_not_verified`, whose outcomes exclude each other. -/
theorem unwrapSucceedsExactlyWhenVerified : Obligations.UnwrapSucceedsExactlyWhenVerified := by
  intro i s t k E hi hk hsizes hexec
  rw [exec_eq] at hexec
  obtain rfl := Host.Outcome.next.inj hexec
  by_cases hv : Verified Config.params k i s
  · obtain ⟨hends, hmem⟩ := unwrap_of_verified hi hk hsizes hv
    exact ⟨iff_of_true hends.err hv, iff_of_false (by simp [hends.err]) (not_not.mpr hv), fun _ => hmem⟩
  · obtain ⟨herr, -⟩ := unwrap_of_not_verified hi hk hsizes hv
    have hne : (commandResult Config.params i s).err ≠ .success := by simp [herr]
    exact ⟨iff_of_false hne hv, iff_of_true herr hv, fun hok => absurd hok hne⟩

/-- An unwrap that fails its check leaves zero bytes below OUT_LEN, and the bytes from there on as they were. -/
theorem readByte_of_zeroised (hi : isCodec i = true) (P : Params) (hO : s.outLen.toNat = E)
    (h : memRead (commandResult P i s) .out 0 E = zeros E) (a : Nat) :
    readByte (commandResult P i s) .out a = if a < s.outLen.toNat then 0 else readByte s .out a := by
  split
  · next ha => exact memRead_eq_zeros_iff.mp h a (Nat.zero_le a) (by omega)
  · next ha => exact (codecCommand_frame hi P s).2 a (Nat.not_lt.mp ha)

/-- Settles O48: an operand test fails and OUT stays (`codecCommand_cases`), or the check decides
(`unwrap_of_verified`, `unwrap_of_not_verified`). -/
theorem noUnverifiedPlaintext : Obligations.NoUnverifiedPlaintext := by
  intro i s t hi hexec
  rw [exec_eq] at hexec
  obtain rfl := Host.Outcome.next.inj hexec
  have hcodec := isCodec_of_isUnwrap hi
  obtain ⟨e, he, hraise⟩ | ⟨k, E, hk, hsizes⟩ := codecCommand_cases hcodec Config.params s
  · rw [hraise]
    exact .inr (.inl ⟨he, (OutKeptFrom.refl 0 s).raise e⟩)
  by_cases hv : Verified Config.params k i s
  · exact .inl ⟨(unwrap_of_verified hi hk hsizes hv).1.err, k, hk, hv⟩
  · obtain ⟨herr, hzero⟩ := unwrap_of_not_verified hi hk hsizes hv
    obtain ⟨-, -, -, hO⟩ := hsizes
    exact .inr (.inr ⟨herr, readByte_of_zeroised hcodec _ hO hzero⟩)

/-! Which commands can end in which outcome. -/

/-- A wrap whose sizes pass succeeds with a result of the required length (`kwWrapProducesTheWrappedValue`,
`kwpWrapProducesTheWrappedValue`). -/
theorem wrap_of_sizesPass (hi : isCodec i = true) (hwrap : isUnwrap i = false) (hk : s.kek = some k)
    (h : SizesPass Config.params i s E) :
    Ends (commandResult Config.params i s) .success (BitVec.ofNat 64 E) 0 := by
  obtain ⟨hreq, -, hB, hO⟩ := h
  cases i with
  | kekLoad | kekClr => cases hi
  | kwUnwrap | kwpUnwrap => cases hwrap
  | kwWrap =>
    obtain ⟨⟨h8, hL⟩, hE⟩ := Option.ite_none_right_eq_some.mp hreq
    obtain rfl := Option.some.inj hE
    obtain ⟨t, hexec, hends, -⟩ := kwWrapProducesTheWrappedValue s k hk h8 hL hB hO
    obtain rfl := Host.Outcome.next.inj hexec
    exact hends
  | kwpWrap =>
    obtain ⟨⟨h1, hmax⟩, hE⟩ := Option.ite_none_right_eq_some.mp hreq
    obtain rfl := Option.some.inj hE
    obtain ⟨t, hexec, hends, -⟩ := kwpWrapProducesTheWrappedValue s k hk h1 hmax hB hO
    obtain rfl := Host.Outcome.next.inj hexec
    exact hends

/-- Only an unwrap that gets to its check ends in IntegrityCheckFailed (R76, R243). -/
theorem sizesPass_of_integrityCheckFailed (h : (commandResult Config.params i s).err = .integrityCheckFailed) :
    isUnwrap i = true ∧ ∃ k E, s.kek = some k ∧ SizesPass Config.params i s E := by
  have hcodec : isCodec i = true := by
    cases i with
    | kekLoad =>
      simp only [commandResult, kekLoad] at h
      split at h <;> cases h
    | kekClr => cases h
    | kwWrap | kwUnwrap | kwpWrap | kwpUnwrap => rfl
  obtain ⟨e, he, hraise⟩ | ⟨k, E, hk, hsizes⟩ := codecCommand_cases hcodec Config.params s
  · rw [hraise] at h
    have herr : e.toCode = .integrityCheckFailed := h
    simp [herr] at he
  refine ⟨?_, k, E, hk, hsizes⟩
  by_contra hwrap
  have hends := wrap_of_sizesPass hcodec (Bool.eq_false_of_not_eq_true hwrap) hk hsizes
  exact absurd (hends.err.symm.trans h) (by decide)

/-- Settles O49: an unwrap whose sizes passed has failed its check (`unwrap_of_not_verified`). -/
theorem failedIntegrityLeavesOnlyZeroBytes : Obligations.FailedIntegrityLeavesOnlyZeroBytes := by
  intro i s t hexec herr
  rw [exec_eq] at hexec
  obtain rfl := Host.Outcome.next.inj hexec
  obtain ⟨hi, k, E, hk, hsizes⟩ := sizesPass_of_integrityCheckFailed herr
  have hv : ¬ Verified Config.params k i s := fun hv =>
    absurd ((unwrap_of_verified hi hk hsizes hv).1.err.symm.trans herr) (by decide)
  obtain ⟨hkeeps, hout⟩ := codecCommand_frame (isCodec_of_isUnwrap hi) Config.params s
  obtain ⟨-, -, -, hO, hE⟩ := hsizes.unwrap_lengths hi
  rw [hkeeps.outLen, hkeeps.inLen]
  refine ⟨hO.trans hE, ?_, hout⟩
  rw [hO]
  exact (unwrap_of_not_verified hi hk hsizes hv).2

theorem kwpRecovered_length (P : Params) (k : CipherState) (s : State) (n : Nat) :
    (kwpRecovered P k s n).2.length = n := by
  unfold kwpRecovered
  split
  · next h => exact h.symm
  · rw [kwRecovered, flatWinv_length, semiblocksAt_length]

/-- A length the buffers hold is read back from its register (R6). -/
theorem toNat_ofNat_of_le_bufBytes {P : Params} {n : Nat} (h : n ≤ P.bufBytes) : (BitVec.ofNat 64 n).toNat = n := by
  have := P.bufBytes_le
  rw [BitVec.toNat_ofNat, Nat.mod_eq_of_lt (by omega)]

/-- An MLI has 32 bits (R187), so RESULT_LEN holds it. -/
theorem toNat_ofNat_headerMli (a : Semiblock) : (BitVec.ofNat 64 (headerMli a)).toNat = headerMli a := by
  have : headerMli a < 2 ^ 32 := (a.extractLsb' 0 32).isLt
  rw [BitVec.toNat_ofNat, Nat.mod_eq_of_lt (by omega)]

/-- A wrap that succeeds reports the length it required of OUT (R161, R183). -/
theorem resultLen_of_wrap (hi : isCodec i = true) (hwrap : isUnwrap i = false)
    (hok : (commandResult Config.params i s).err = .success) :
    requiredLength i s.inLen.toNat = some (commandResult Config.params i s).resultLen.toNat := by
  obtain ⟨k, E, hk, hsizes⟩ := sizesPass_of_success hi hok
  rw [(wrap_of_sizesPass hi hwrap hk hsizes).resultLen]
  obtain ⟨hreq, -, hB, -⟩ := hsizes
  rw [toNat_ofNat_of_le_bufBytes hB, hreq]

/-- An unwrap that succeeds has passed its check and reports the plaintext's length (R162, R185). -/
theorem resultLen_of_unwrap (hi : isUnwrap i = true) (hok : (commandResult Config.params i s).err = .success) :
    ∃ k E, SizesPass Config.params i s E ∧ Verified Config.params k i s ∧
      (commandResult Config.params i s).resultLen = BitVec.ofNat 64 (unwrapLength Config.params k i s) := by
  obtain ⟨k, E, hk, hsizes⟩ := sizesPass_of_success (isCodec_of_isUnwrap hi) hok
  have hv : Verified Config.params k i s := by
    by_contra hv
    exact absurd ((unwrap_of_not_verified hi hk hsizes hv).1.symm.trans hok) (by decide)
  exact ⟨k, E, hsizes, hv, (unwrap_of_verified hi hk hsizes hv).1.resultLen⟩

/-- Settles O47: a wrap's result has the required length, KW_UNWRAP's is all it recovered, and KWP_UNWRAP's is the MLI,
which its check has held against the number of semiblocks. -/
theorem lengthInvariant : Obligations.LengthInvariant := by
  intro i s t hexec hok
  rw [exec_eq] at hexec
  obtain rfl := Host.Outcome.next.inj hexec
  refine ⟨?_, ?_, ?_, ?_⟩
  · rintro rfl
    obtain ⟨-, hlen⟩ := Option.ite_none_right_eq_some.mp (resultLen_of_wrap rfl rfl hok)
    exact (Option.some.inj hlen).symm
  · rintro rfl
    obtain ⟨-, hlen⟩ := Option.ite_none_right_eq_some.mp (resultLen_of_wrap rfl rfl hok)
    exact (Option.some.inj hlen).symm
  · rintro rfl
    obtain ⟨k, E, hsizes, -, hlen⟩ := resultLen_of_unwrap rfl hok
    obtain ⟨-, -, hL, -⟩ := hsizes.unwrap_lengths rfl
    rw [hlen]
    exact toNat_ofNat_of_le_bufBytes (P := Config.params) ((Nat.sub_le _ _).trans hL)
  · rintro rfl
    obtain ⟨k, E, hsizes, ⟨-, hmli, -⟩, hlen⟩ := resultLen_of_unwrap rfl hok
    obtain ⟨h8, -⟩ := hsizes.unwrap_lengths rfl
    rw [kwpRecovered_length] at hmli
    rw [hlen, unwrapLength, toNat_ofNat_headerMli]
    exact (congrArg (8 * ·) hmli).trans (by omega)

end Sys2Proof.Machine

/-! ### A codec command's outcome is a function of its operands (R213, R220) -/

namespace Sys2Proof.Machine

open Sys2Proof

variable {P : Params} {k : CipherState} {n m L E a : Nat} {s t u : State} {S : Space}

/-- Two states agree on the operands of the codec commands: the slot, the two lengths and IN[0 : IN_LEN) (R213). -/
structure SameOperands (s u : State) : Prop where
  kek : u.kek = s.kek
  inLen : u.inLen = s.inLen
  outLen : u.outLen = s.outLen
  inp : memRead u .inp 0 s.inLen.toNat = memRead s .inp 0 s.inLen.toNat

/-! What is read from equal inputs is equal. -/

theorem memRead_take (s : State) (S : Space) (a : Nat) (h : m ≤ n) : (memRead s S a n).take m = memRead s S a m := by
  simpa using memRead_drop_take s S a n 0 m (by omega)

theorem memRead_congr_of_prefix (h : memRead u S 0 L = memRead s S 0 L) (ha : a + n ≤ L) :
    memRead u S a n = memRead s S a n := by
  simpa only [memRead_drop_take _ _ _ _ _ _ ha, Nat.zero_add] using congrArg (fun l => (l.drop a).take n) h

theorem semiblocksAt_congr_of_prefix (h : memRead u S 0 L = memRead s S 0 L) (ha : a + 8 * n ≤ L) :
    semiblocksAt u S a n = semiblocksAt s S a n :=
  semiblocksAt_congr fun _ hi => readByte_of_memRead_eq (memRead_congr_of_prefix h ha) hi

theorem kwRecovered_congr (h : memRead u .inp 0 (8 * (n + 1)) = memRead s .inp 0 (8 * (n + 1))) (P : Params)
    (k : CipherState) : kwRecovered P k u n = kwRecovered P k s n := by
  rw [kwRecovered, kwRecovered, memRead_congr_of_prefix h (by omega), semiblocksAt_congr_of_prefix h (by omega)]

theorem kwpRecovered_congr (h : memRead u .inp 0 (8 * (n + 1)) = memRead s .inp 0 (8 * (n + 1))) (P : Params)
    (k : CipherState) : kwpRecovered P k u n = kwpRecovered P k s n := by
  unfold kwpRecovered
  split
  · rw [memRead_congr_of_prefix h (by omega), memRead_congr_of_prefix h (by omega)]
  · exact kwRecovered_congr h P k

/-! The outcomes of the two ends of a command, and of each codec's work. -/

/-- After an error the host sees no result byte (R240). -/
theorem outcomeOf_raise (e : EngineError) (s : State) : outcomeOf (raise e s) = (e.toCode, 0, e.info, []) := rfl

theorem outcomeOf_failIntegrity (E : Nat) (s : State) :
    outcomeOf (failIntegrity E s) = (.integrityCheckFailed, 0, 0, []) := rfl

theorem outcomeOf_of_ends_success (h : Ends t .success (BitVec.ofNat 64 m) 0) (hm : m ≤ P.bufBytes) :
    outcomeOf t = (.success, BitVec.ofNat 64 m, 0, memRead t .out 0 m) := by
  rw [outcomeOf, h.err, h.resultLen, h.errInfo, toNat_ofNat_of_le_bufBytes hm]

theorem outcomeOf_kwWrapBody (h8 : L % 8 = 0) (hL : 8 ≤ L) (hB : L + 8 ≤ P.bufBytes) (k : CipherState) (s : State) :
    outcomeOf (kwWrapBody P k L (L + 8) s) =
      (.success, BitVec.ofNat 64 (L + 8), 0, kwWrapped P k (semiblocksAt s .inp 0 (L / 8))) := by
  rw [outcomeOf_of_ends_success (t := kwWrapBody P k L (L + 8) s) (complete_ends _ _) hB, memRead_kwWrapBody h8 hL]

theorem outcomeOf_kwpWrapBody (hL : 1 ≤ L) (hB : 8 * ceil8 L + 8 ≤ P.bufBytes) (k : CipherState) (s : State) :
    outcomeOf (kwpWrapBody P k L (8 * ceil8 L + 8) s) =
      (.success, BitVec.ofNat 64 (8 * ceil8 L + 8), 0, kwpWrapped P k (memRead s .inp 0 L)) := by
  rw [outcomeOf_of_ends_success (kwpWrapBody_ends ..) hB, memRead_kwpWrapBody hL]

theorem outcomeOf_kwUnwrapBody (hn : 1 ≤ n) (hB : 8 * n ≤ P.bufBytes) (k : CipherState) (s : State) :
    outcomeOf (kwUnwrapBody P k (8 * (n + 1)) (8 * n) s) =
      if (kwRecovered P k s n).1 = ivKw then
        (.success, BitVec.ofNat 64 (8 * n), 0, semiblocksBytes (kwRecovered P k s n).2)
      else (.integrityCheckFailed, 0, 0, []) := by
  split
  · next h =>
    rw [kwUnwrapBody_of_header hn h, outcomeOf_of_ends_success (complete_ends _ _) hB, memRead_complete,
      memRead_recoverOut hn]
  · next h => rw [kwUnwrapBody_of_wrong_header hn h, outcomeOf_failIntegrity]

/-- A header that verifies gives an MLI inside what was recovered (R187). -/
theorem KwpVerified.headerMli_le {x : Semiblock × List Semiblock} (h : KwpVerified x) :
    headerMli x.1 ≤ 8 * x.2.length := by
  obtain ⟨-, hmli, -⟩ := h
  exact hmli ▸ le_mul_ceil8 _

theorem outcomeOf_kwpUnwrapBody (hn : 1 ≤ n) (hB : 8 * n ≤ P.bufBytes) (k : CipherState) (s : State)
    [Decidable (KwpVerified (kwpRecovered P k s n))] :
    outcomeOf (kwpUnwrapBody P k (8 * (n + 1)) (8 * n) s) =
      if KwpVerified (kwpRecovered P k s n) then
        (.success, BitVec.ofNat 64 (headerMli (kwpRecovered P k s n).1), 0,
          (semiblocksBytes (kwpRecovered P k s n).2).take (headerMli (kwpRecovered P k s n).1))
      else (.integrityCheckFailed, 0, 0, []) := by
  split
  · next h =>
    have hle := h.headerMli_le
    rw [kwpRecovered_length] at hle
    rw [kwpUnwrapBody_of_verified hn h, outcomeOf_of_ends_success (complete_ends _ _) (hle.trans hB), memRead_complete,
      ← memRead_kwpRecover hn, memRead_take _ _ _ hle]
  · next h => rw [kwpUnwrapBody_of_not_verified hn h, outcomeOf_failIntegrity]

/-! The operand tests read nothing else either. -/

/-- A codec command has one outcome in states with the same operands when its work has (R213, R237). -/
theorem outcomeOf_codec_congr {required : Nat → Option Nat} {body : CipherState → Nat → Nat → State → State}
    (h : SameOperands s u)
    (hbody : ∀ k E, required s.inLen.toNat = some E → E ≤ P.bufBytes →
      outcomeOf (body k s.inLen.toNat E u) = outcomeOf (body k s.inLen.toNat E s)) :
    outcomeOf (codec P required body u) = outcomeOf (codec P required body s) := by
  simp only [codec, h.kek, h.inLen, h.outLen]
  split
  · rw [outcomeOf_raise, outcomeOf_raise]
  split
  · rw [outcomeOf_raise, outcomeOf_raise]
  next hE =>
  split_ifs with hcap hO
  · rw [outcomeOf_raise, outcomeOf_raise]
  · rw [outcomeOf_raise, outcomeOf_raise]
  · exact hbody _ _ hE (Nat.not_lt.mp (not_or.mp hcap).2)

/-- The outcome of a codec command is a function of its operands (R213). -/
theorem outcomeOf_commandResult_congr {i : Instr} (hi : isCodec i = true) (P : Params) (h : SameOperands s u) :
    outcomeOf (commandResult P i u) = outcomeOf (commandResult P i s) := by
  have hinp := h.inp
  cases i with
  | kekLoad | kekClr => cases hi
  | kwWrap =>
    refine outcomeOf_codec_congr h fun k E hE hB => ?_
    obtain ⟨h8, hL, rfl⟩ := kwWrapLength_eq hE
    rw [outcomeOf_kwWrapBody h8 hL hB, outcomeOf_kwWrapBody h8 hL hB, semiblocksAt_congr_of_prefix hinp (by omega)]
  | kwpWrap =>
    refine outcomeOf_codec_congr h fun k E hE hB => ?_
    obtain ⟨hL, -, rfl, -⟩ := kwpWrapLength_eq hE
    rw [outcomeOf_kwpWrapBody hL hB, outcomeOf_kwpWrapBody hL hB, hinp]
  | kwUnwrap =>
    refine outcomeOf_codec_congr h fun k E hE hB => ?_
    obtain ⟨h8, hL, -, rfl⟩ := kwUnwrapLength_eq hE
    obtain ⟨n, hn, hLn, -, hsub⟩ := exists_semiblocks h8 hL
    rw [hLn] at hinp
    rw [hsub] at hB ⊢
    rw [hLn, outcomeOf_kwUnwrapBody hn hB, outcomeOf_kwUnwrapBody hn hB, kwRecovered_congr hinp]
  | kwpUnwrap =>
    classical
    refine outcomeOf_codec_congr h fun k E hE hB => ?_
    obtain ⟨h8, hL, -, -, rfl⟩ := kwpUnwrapLength_eq hE
    obtain ⟨n, hn, hLn, -, hsub⟩ := exists_semiblocks h8 hL
    rw [hLn] at hinp
    rw [hsub] at hB ⊢
    rw [hLn, outcomeOf_kwpUnwrapBody hn hB, outcomeOf_kwpUnwrapBody hn hB, kwpRecovered_congr hinp]

/-- Settles O51: `outcomeOf_commandResult_congr`. -/
theorem codecOutcomeDependsOnItsOperandsAlone : Obligations.CodecOutcomeDependsOnItsOperandsAlone := by
  intro i s u t v hi hkek hin hout hinp ht hv
  rw [exec_eq] at ht hv
  obtain rfl := Host.Outcome.next.inj ht
  obtain rfl := Host.Outcome.next.inj hv
  rw [hin] at hinp
  exact outcomeOf_commandResult_congr hi _ ⟨hkek, hin, hout, hinp⟩

/-- Settles O52: a codec command keeps the operands of the next one (`codecCommand_frame`). -/
theorem codecCallsAreIndependent : Obligations.CodecCallsAreIndependent := by
  intro i j s t u v hi hj ht hu hv
  rw [exec_eq] at ht
  obtain rfl := Host.Outcome.next.inj ht
  obtain ⟨hkeeps, -⟩ := codecCommand_frame hi Config.params s
  exact codecOutcomeDependsOnItsOperandsAlone j s _ u v hj hkeeps.kek hkeeps.inLen hkeeps.outLen
    (hkeeps.inLen ▸ memRead_ext fun _ _ => hkeeps.inp _) hu hv

end Sys2Proof.Machine

/-! ### The round trips (R214, R215) -/

namespace Sys2Proof.Machine

open Sys2Proof

variable {P : Params} {k : CipherState} {n L : Nat} {s u : State}

/-- An unwrap recovers from KW_WRAP's output IV_KW and the plaintext's semiblocks (R149, R161, R162). -/
theorem kwRecovered_of_kwWrapBody (hk : FromInit P k) (hn : 1 ≤ n) (hL : L = 8 * n)
    (h : memRead u .inp 0 (8 * (n + 1)) = memRead (kwWrapBody P k L (L + 8) s) .out 0 (8 * (n + 1))) :
    kwRecovered P k u n = (ivKw, semiblocksAt s .inp 0 n) := by
  rw [kwWrapBody_eq, memRead_complete, show L / 8 = n by omega] at h
  rw [kwRecovered_of_sealOut hk hn h, flatView, kwLoad_acc, semiblocksAt_kwLoad hL]

/-- Settles O40: KW_UNWRAP recovers IV_KW, so it completes, and its output is the plaintext's semiblocks. -/
theorem kwRoundTrip : Obligations.KwRoundTrip := by
  intro P s u k L t hinit hs h8 hL hB hO hu hinp huin huout
  obtain ⟨n, hLn⟩ : ∃ n, L = 8 * n := ⟨L / 8, by omega⟩
  have hn : 1 ≤ n := by omega
  have hE : L + 8 = 8 * (n + 1) := by omega
  have ht : t = kwWrapBody P k L (L + 8) s := kwWrap_eq_body hs h8 hL hB hO
  have hrec : kwRecovered P k u n = (ivKw, semiblocksAt s .inp 0 n) :=
    kwRecovered_of_kwWrapBody hinit hn hLn (hE ▸ ht ▸ hinp)
  have hbody : kwUnwrap P u = complete (8 * n) (recoverOut P k n u) := by
    rw [kwUnwrap_eq_body hu hn (huin.trans hE) (hE ▸ hB) (huout.trans hLn), kwUnwrapBody_of_header hn (by rw [hrec])]
  rw [ht, hbody, hLn]
  refine ⟨rfl, rfl, ?_, ?_⟩
  · rw [complete_resultLen, toNat_ofNat_of_le_bufBytes (P := P) (by omega)]
  · rw [memRead_complete, memRead_recoverOut hn, hrec, semiblocksBytes_semiblocksAt]

/-! KWP: what is recovered is the AIV and the padded plaintext, and these verify. -/

theorem headerMli_aiv (h : L ≤ 4294967295) : headerMli (aiv L) = L := by
  rw [headerMli, aiv, BitVec.extractLsb'_append_eq_right, be32, BitVec.toNat_ofNat, Nat.mod_eq_of_lt (by omega)]

/-- The padded semiblocks are the plaintext's bytes and then zero bytes (R182). -/
theorem semiblocksBytes_paddedSemiblocks {bytes : List Byte} (h : bytes.length ≤ 8 * n) :
    semiblocksBytes (paddedSemiblocks bytes n) = bytes ++ zeros (8 * n - bytes.length) := by
  -- Read the padded bytes back from a state that holds them.
  have hlen : (bytes ++ zeros (8 * n - bytes.length)).length = 8 * n := by simp [h]
  have hread := memRead_memWrite_out State.reset 0 (bytes ++ zeros (8 * n - bytes.length))
  rw [hlen] at hread
  rw [← semiblocksAt_eq_paddedSemiblocks hread, semiblocksBytes_semiblocksAt, hread]

theorem paddedSemiblocks_length (bytes : List Byte) (n : Nat) : (paddedSemiblocks bytes n).length = n := by
  simp [paddedSemiblocks]

/-- The AIV and the padded plaintext pass the three checks (R181, R182, R187). -/
theorem kwpVerified_aiv {bytes : List Byte} (h : bytes.length ≤ 4294967295) :
    KwpVerified (aiv bytes.length, paddedSemiblocks bytes (ceil8 bytes.length)) := by
  refine ⟨headerPrefix_aiv _, ?_, ?_⟩
  · rw [headerMli_aiv h, paddedSemiblocks_length]
  · rw [headerMli_aiv h, paddedSemiblocks_length, semiblocksBytes_paddedSemiblocks (le_mul_ceil8 _), List.drop_left]

/-- One `Dec` recovers what one `Enc` was given (R122, R184, R186). -/
theorem kwpRecovered_of_enc (hk : FromInit P k) {a r : Semiblock}
    (h : memRead u .inp 0 16 = blockBytes (P.cipher.enc k (joinBlock a r))) : kwpRecovered P k u 1 = (a, [r]) := by
  have hblock : joinBlock (semiblockOf (memRead u .inp 0 8)) (semiblockOf (memRead u .inp 8 8)) =
      P.cipher.enc k (joinBlock a r) := by
    rw [← blockOf_append _ _ (memRead_length ..), ← blockOf_blockBytes (P.cipher.enc k _), ← h]
    exact congrArg blockOf (memRead_add u .inp 0 8 8).symm
  simp only [kwpRecovered, if_true, hblock, dec_enc_of_fromInit hk, high_joinBlock, low_joinBlock]

/-- An unwrap recovers from KWP_WRAP's output the AIV and the padded plaintext: by R122 from one block, and by R149
from more (R184, R186). -/
theorem kwpRecovered_of_kwpWrapBody (hk : FromInit P k) (hL : 1 ≤ L)
    (h : memRead u .inp 0 (8 * (ceil8 L + 1)) =
      memRead (kwpWrapBody P k L (8 * ceil8 L + 8) s) .out 0 (8 * (ceil8 L + 1))) :
    kwpRecovered P k u (ceil8 L) = (aiv L, paddedSemiblocks (memRead s .inp 0 L) (ceil8 L)) := by
  by_cases hone : ceil8 L = 1
  · rw [hone] at h ⊢
    have hwrapped := h.trans (memRead_kwpWrapBody_of_one hone ..)
    have hplain := paddedSemiblocks_one (bytes := memRead s .inp 0 L) (by simpa [hone] using le_mul_ceil8 L)
    rw [kwpWrapped, memRead_length, if_pos hone, hone, hplain] at hwrapped
    rw [hplain]
    exact kwpRecovered_of_enc hk hwrapped
  · have hn : 1 ≤ ceil8 L := by have := le_mul_ceil8 L; omega
    rw [kwpWrapBody_of_ne_one hone, memRead_complete] at h
    rw [kwpRecovered, if_neg hone, kwRecovered_of_sealOut hk hn h, flatView, kwpLoad_acc, semiblocksAt_kwpLoad]

/-- Settles O45: KWP_UNWRAP recovers the AIV and the padded plaintext, which verify (`kwpVerified_aiv`), so it completes
with the AIV's MLI, the plaintext's length. -/
theorem kwpRoundTrip : Obligations.KwpRoundTrip := by
  intro P s u k L E t hinit hs hL hB hmax hO hu hinp huin huout
  have hE : E = 8 * (ceil8 L + 1) := rfl
  have hle : L ≤ 8 * ceil8 L := le_mul_ceil8 L
  have hn : 1 ≤ ceil8 L := by omega
  have hL32 : L ≤ 4294967295 := by rw [kwpUnwrapMaxBytes] at hmax; omega
  have hlen : (memRead s .inp 0 L).length = L := memRead_length ..
  have ht : t = kwpWrapBody P k L E s := kwpWrap_eq_body hs hL hL32 hB hO
  have hrec : kwpRecovered P k u (ceil8 L) = (aiv L, paddedSemiblocks (memRead s .inp 0 L) (ceil8 L)) :=
    kwpRecovered_of_kwpWrapBody hinit hL (ht ▸ hinp)
  have hverified : KwpVerified (kwpRecovered P k u (ceil8 L)) := by
    have := kwpVerified_aiv (bytes := memRead s .inp 0 L) (hlen.trans_le hL32)
    rwa [hlen, ← hrec] at this
  have hbody : kwpUnwrap P u = complete L (kwpRecover P k (ceil8 L) (8 * ceil8 L) u) := by
    rw [kwpUnwrap_eq_body hu hn huin hmax hB huout, kwpUnwrapBody_of_verified hn hverified, hrec, headerMli_aiv hL32]
  rw [ht, hbody]
  refine ⟨(kwpWrapBody_ends ..).err, rfl, ?_, ?_⟩
  · rw [complete_resultLen, toNat_ofNat_of_le_bufBytes (P := P) (by omega)]
  · rw [memRead_complete, ← memRead_take _ _ _ hle, memRead_kwpRecover hn, hrec,
      semiblocksBytes_paddedSemiblocks (hlen.trans_le hle), List.take_left' hlen]

end Sys2Proof.Machine

/-! ### Which error a command reports (R230 to R232, R235, R237, R240, R241, R243) -/

namespace Sys2Proof.Machine

open Sys2Proof

variable {P : Params} {s : State} {k : CipherState} {i : Instr} {E : Nat}

/-- Settles O14: `raise` writes what `setOutcome` and `clearTransients` write, with the error's code and number. -/
theorem raiseWritesTheseAndNoOthers : Obligations.RaiseWritesTheseAndNoOthers := fun _ _ =>
  ⟨rfl, rfl, rfl, rfl, rfl, rfl, rfl, rfl, rfl, rfl, rfl, rfl⟩

/-- Settles O15: likewise for `complete`. -/
theorem completeReportsSuccess : Obligations.CompleteReportsSuccess := fun _ _ => ⟨rfl, rfl⟩

/-- Settles O17: `codecCommand_of_kek_none`, and the state `raise` leaves is the one written out. -/
theorem codecWithoutKekOnlyReports : Obligations.CodecWithoutKekOnlyReports := by
  intro i s hi hk
  rw [exec_eq, codecCommand_of_kek_none hi _ hk]
  rfl

/-! The operand tests of a codec command with a KEK, in the order of R237. -/

theorem codecCommand_of_required_none (hi : isCodec i = true) (hk : s.kek = some k)
    (hE : requiredLength i s.inLen.toNat = none) : commandResult P i s = raise .invalidDataSize s := by
  obtain ⟨body, hbody⟩ := codecCommand_eq_codec hi P
  rw [hbody, codec_of_required_none hk hE]

/-- An input, or the output it requires, that the buffers cannot hold (R236). -/
theorem codec_of_exceeds {required : Nat → Option Nat} {body : CipherState → Nat → Nat → State → State}
    (hk : s.kek = some k) (hE : required s.inLen.toNat = some E)
    (hB : P.bufBytes < s.inLen.toNat ∨ P.bufBytes < E) : codec P required body s = raise .invalidDataSize s := by
  simp only [codec, hk, hE]
  exact if_pos hB

theorem codecCommand_of_exceeds (hi : isCodec i = true) (hk : s.kek = some k)
    (hE : requiredLength i s.inLen.toNat = some E) (hB : P.bufBytes < s.inLen.toNat ∨ P.bufBytes < E) :
    commandResult P i s = raise .invalidDataSize s := by
  obtain ⟨body, hbody⟩ := codecCommand_eq_codec hi P
  rw [hbody, codec_of_exceeds hk hE hB]

theorem codecCommand_of_outLen_ne (hi : isCodec i = true) (hk : s.kek = some k)
    (hE : requiredLength i s.inLen.toNat = some E) (hL : s.inLen.toNat ≤ P.bufBytes) (hB : E ≤ P.bufBytes)
    (hO : s.outLen.toNat ≠ E) : commandResult P i s = raise (.invalidOutputSize (BitVec.ofNat 64 E)) s := by
  obtain ⟨body, hbody⟩ := codecCommand_eq_codec hi P
  rw [hbody, codec_of_outLen_ne hk hE hL hB hO]

/-- Past its operand tests a codec command has only its integrity check left to fail (R237). -/
theorem codecCommand_err_of_sizesPass (hi : isCodec i = true) (hk : s.kek = some k)
    (hsizes : SizesPass Config.params i s E) :
    (commandResult Config.params i s).err = .success ∨
      (commandResult Config.params i s).err = .integrityCheckFailed := by
  cases hwrap : isUnwrap i with
  | false => exact .inl (wrap_of_sizesPass hi hwrap hk hsizes).err
  | true =>
    by_cases hv : Verified Config.params k i s
    · exact .inl (unwrap_of_verified hwrap hk hsizes hv).1.err
    · exact .inr (unwrap_of_not_verified hwrap hk hsizes hv).1

/-- InvalidDataSize is reported when IN_LEN is rejected, or it or the length it requires exceeds the buffers (R231,
R236). -/
theorem codecCommand_eq_invalidDataSize_iff (hi : isCodec i = true) (hk : s.kek = some k) :
    commandResult Config.params i s = raise .invalidDataSize s ↔
      ∀ E, requiredLength i s.inLen.toNat = some E →
        Config.params.bufBytes < s.inLen.toNat ∨ Config.params.bufBytes < E := by
  refine ⟨fun h E hE => ?_, fun h => ?_⟩
  · by_contra hfits
    obtain ⟨hL, hB⟩ := not_or.mp hfits
    by_cases hO : s.outLen.toNat = E
    · have herr := codecCommand_err_of_sizesPass hi hk ⟨hE, Nat.not_lt.mp hL, Nat.not_lt.mp hB, hO⟩
      simp [h, EngineError.toCode] at herr
    · rw [codecCommand_of_outLen_ne hi hk hE (Nat.not_lt.mp hL) (Nat.not_lt.mp hB) hO] at h
      exact absurd (congrArg State.err h) (by simp [EngineError.toCode])
  · cases hE : requiredLength i s.inLen.toNat with
    | none => exact codecCommand_of_required_none hi hk hE
    | some E => exact codecCommand_of_exceeds hi hk hE (h E hE)

/-- `codecCommand_eq_invalidDataSize_iff` on one row of the length table: p is the rule for IN_LEN, E the length it
requires of OUT. -/
theorem exec_eq_invalidDataSize_iff (hi : isCodec i = true) (hk : s.kek = some k) {p : Prop} [Decidable p]
    (hrow : requiredLength i s.inLen.toNat = if p then some E else none) :
    exec i s = .next (raise .invalidDataSize s) ↔
      (p → Config.params.bufBytes < s.inLen.toNat ∨ Config.params.bufBytes < E) := by
  rw [exec_eq, Host.Outcome.next.injEq, codecCommand_eq_invalidDataSize_iff hi hk, hrow]
  simp

/-- Settles O18: `exec_eq_invalidDataSize_iff` on each row of the length table. -/
theorem dataSizeRulesReported : Obligations.DataSizeRulesReported := by
  intro s k hk L B reported
  refine ⟨?_, ?_, ?_, ?_⟩ <;> exact (exec_eq_invalidDataSize_iff rfl hk rfl).trans (by omega)

theorem kekLoad_err (P : Params) (s : State) :
    (kekLoad P s).err = if s.kekLen = 16 ∨ s.kekLen = 24 ∨ s.kekLen = 32 then .success else .invalidKekSize := by
  split
  · next h => rw [kekLoad_of_sizeOk P (kekSizeOk_toNat_iff.mpr h), complete_err]
  · next h => exact congrArg State.err (kekLoad_of_not_sizeOk P (mt kekSizeOk_toNat_iff.mp h))

/-- Settles O21: one lemma for each test, in R237's order; past the sizes it is a wrap (`wrap_of_sizesPass`) or the
check decides (`unwrap_of_verified`, `unwrap_of_not_verified`). -/
theorem firstErrorInOrderIsReported : Obligations.FirstErrorInOrderIsReported := by
  refine ⟨fun s v e rest hp hv => ?_, fun s => ⟨_, exec_eq .kekLoad s, kekLoad_err _ s⟩,
    fun i s hi => ⟨_, exec_eq i s, fun hnone => ?_, fun hkek hE => ?_, fun E hkek hE => ?_⟩⟩
  · exact ⟨_, (step_writeCmd hp).trans (issueCommand_of_decode_error hv _), rfl⟩
  · rw [codecCommand_of_kek_none hi _ hnone]
    rfl
  · obtain ⟨k, hk⟩ := Option.ne_none_iff_exists'.mp hkek
    rw [codecCommand_of_required_none hi hk hE]
    rfl
  · obtain ⟨k, hk⟩ := Option.ne_none_iff_exists'.mp hkek
    refine ⟨fun hB => ?_, fun hL hB hO => ?_, fun hL hB hO => ?_⟩
    · rw [codecCommand_of_exceeds hi hk hE hB]
      rfl
    · rw [codecCommand_of_outLen_ne hi hk hE hL hB hO]
      rfl
    · have hsizes : SizesPass Config.params i s E := ⟨hE, hL, hB, hO⟩
      exact ⟨fun hwrap => (wrap_of_sizesPass hi hwrap hk hsizes).err, fun hunwrap _ hk =>
        ⟨fun hv => (unwrap_of_verified hunwrap hk hsizes hv).1.err,
          fun hv => (unwrap_of_not_verified hunwrap hk hsizes hv).1⟩⟩

/-! InvalidKekSize is KEKLOAD's own (R232). -/

/-- InvalidKekSize is no outcome of an operand test or of the integrity check (R232, R237). -/
theorem codecCommand_err_ne_invalidKekSize (hi : isCodec i = true) :
    (commandResult Config.params i s).err ≠ .invalidKekSize := by
  obtain ⟨e, he, hraise⟩ | ⟨k, E, hk, hsizes⟩ := codecCommand_cases hi Config.params s
  · rw [hraise, raise_err]
    intro herr
    simp [herr] at he
  · obtain herr | herr := codecCommand_err_of_sizesPass hi hk hsizes <;> simp [herr]

/-- Settles O24: KEKLOAD's size test decides (`kekLoad_err`), KEKCLR succeeds, and no codec command raises it
(`codecCommand_err_ne_invalidKekSize`). -/
theorem otherKekSizesRejected : Obligations.OtherKekSizesRejected := by
  refine ⟨fun s h16 h24 h32 => ?_, fun i s t hexec herr => ?_⟩
  · have hsize : kekSizeOk s.kekLen.toNat ≠ true :=
      mt kekSizeOk_toNat_iff.mp (not_or.mpr ⟨h16, not_or.mpr ⟨h24, h32⟩⟩)
    rw [exec_eq, commandResult, kekLoad_of_not_sizeOk _ hsize]
    rfl
  · rw [exec_eq] at hexec
    obtain rfl := Host.Outcome.next.inj hexec
    cases i with
    | kekLoad =>
      rw [commandResult, kekLoad_err] at herr
      split at herr
      · cases herr
      · next h => exact ⟨rfl, by simpa only [not_or] using h⟩
    | kekClr => cases herr
    | kwWrap | kwUnwrap | kwpWrap | kwpUnwrap => exact absurd herr (codecCommand_err_ne_invalidKekSize rfl)

/-! What a command has changed, by its outcome (R243). -/

/-- A command that ends in an error other than IntegrityCheckFailed has done nothing but raise it (R240, R243). -/
theorem commandResult_eq_raise (hok : (commandResult Config.params i s).err ≠ .success)
    (hcheck : (commandResult Config.params i s).err ≠ .integrityCheckFailed) :
    ∃ e, commandResult Config.params i s = raise e s := by
  cases hi : isCodec i with
  | true =>
    obtain ⟨e, -, hraise⟩ | ⟨k, E, hk, hsizes⟩ := codecCommand_cases hi Config.params s
    · exact ⟨e, hraise⟩
    · exact ((codecCommand_err_of_sizesPass hi hk hsizes).elim hok hcheck).elim
  | false =>
    cases i with
    | kekLoad =>
      refine ⟨_, kekLoad_of_not_sizeOk _ fun hsize => hok ?_⟩
      rw [commandResult, kekLoad_of_sizeOk _ hsize, complete_err]
    | kekClr => exact absurd rfl hok
    | kwWrap | kwUnwrap | kwpWrap | kwpUnwrap => cases hi

theorem kekLoad_keeps (P : Params) (s : State) : CommandKeeps s (kekLoad P s) := by
  by_cases hsize : kekSizeOk s.kekLen.toNat = true
  · rw [kekLoad_of_sizeOk P hsize]
    exact ⟨rfl, rfl, rfl, fun _ => rfl, rfl, rfl, rfl⟩
  · rw [kekLoad_of_not_sizeOk P hsize]
    exact ((CodecKeeps.refl s).raise _).toCommandKeeps

/-- What no command writes (R29, R72). -/
theorem commandResult_keeps (P : Params) (i : Instr) (s : State) : CommandKeeps s (commandResult P i s) := by
  cases i with
  | kekLoad => exact kekLoad_keeps P s
  | kekClr => exact kekClr_keeps s
  | kwWrap | kwUnwrap | kwpWrap | kwpUnwrap => exact (codecCommand_frame rfl P s).1.toCommandKeeps

/-- Settles O22: an error but IntegrityCheckFailed is only raised (`commandResult_eq_raise`), a failed check zeroises
(`failedIntegrityLeavesOnlyZeroBytes`), and a success stays within its command's frame. -/
theorem errorsArePrecise : Obligations.ErrorsArePrecise := by
  refine ⟨fun _ => rfl, fun i s t hexec => ?_⟩
  have ht : commandResult Config.params i s = t := Host.Outcome.next.inj ((exec_eq i s).symm.trans hexec)
  refine ⟨fun hok hcheck => ?_, fun hcheck => ?_, fun _ => ?_⟩
  · subst ht
    obtain ⟨e, he⟩ := commandResult_eq_raise hok hcheck
    rw [he]
    rfl
  · obtain ⟨-, hzero, -⟩ := failedIntegrityLeavesOnlyZeroBytes i s t hexec hcheck
    subst ht
    have hcodec := isCodec_of_isUnwrap (sizesPass_of_integrityCheckFailed hcheck).1
    have hkeeps := (codecCommand_frame hcodec Config.params s).1
    rw [hkeeps.outLen] at hzero
    exact ⟨readByte_of_zeroised hcodec _ rfl hzero, hkeeps⟩
  · subst ht
    exact ⟨commandResult_keeps .., fun hi => (codecCommand_frame hi Config.params s).symm,
      fun hi a _ => readByte_commandResult_out (by simp [hi]) _⟩

end Sys2Proof.Machine
